-- ==== Sys2Proof/Config.lean ====
section
/-! DEFINITION. What is fixed for the machine, and the free values (spec/00_scope.md R6,
spec/92_eei_decisions.md section 6, spec/93_implementation_defined.md section 1.2). Every parameter of
R6 stands here but one: step granularity is no constant, each turn picks it (`Turn.dec` or
`Turn.decCodeword`; log entry 4). -/

namespace Sys2Proof

/-- COUNT_W: the bits of `numPixels`, run lengths, indices and counters (R6, decision D2; log entry 10).
Reducible, so that it is seen as a literal where it is a width. -/
abbrev Config.countW : Nat := 32

/-- The byte order of a word in the byte view of the payload (R6, R66). -/
inductive ByteOrder where
  | littleEndian
  | bigEndian
deriving DecidableEq, Repr

/-- BYTE_ORDER: this hardware's is little-endian and cannot be switched (R6, R66, decision D4; log
entry 22). -/
def Config.byteOrder : ByteOrder := .littleEndian

/-- The number of EXHAUSTED in STATUS.CODE (R6, R221, decision D11; log entry 22). -/
def Config.exhaustedNumber : BitVec 4 := 1

/-- The number of OVERRUN (R6, R221). -/
def Config.overrunNumber : BitVec 4 := 2

/-- The number of RANGE (R6, R221). -/
def Config.rangeNumber : BitVec 4 := 3

/-- The number of OUT_FULL (R6, R221). -/
def Config.outFullNumber : BitVec 4 := 4

/-- Which nibble slot of a word the first-written nibble takes (R6, R95, R97). -/
inductive NibbleFill where
  | lowFirst
  | highFirst
deriving DecidableEq, Repr

/-- The four buffers (R60). -/
inductive Space where
  | encIn
  | encOut
  | decIn
  | decOut
deriving DecidableEq, Repr

/-- This hardware packs `LOW_FIRST` (R6, R95, decision D5; log entry 9). -/
def Config.nibbleFill : NibbleFill := .lowFirst

/-- REG_BASE, left OPEN (R6, R40; log entry 11): no body, so nothing can be proved of its value. -/
opaque Config.regBase : Nat

/-- REG_STRIDE, left OPEN (R6, R40; log entry 11): no body. -/
opaque Config.regStride : Nat

/-- PORT_PROTOCOL, left OPEN (R6, decision D3; log entry 19): which signal-level protocol the four buffer
ports speak. No body, and no rule depends on it. -/
opaque Config.portProtocol : Nat

/-- FREE VALUE (R57, R251, R263, U11; log entry 1): what element `i` of a buffer holds when nothing
has written it since the buffer's contents were drawn the `epoch`-th time. A sample buffer's element is the low 16 bits. -/
opaque Config.unwritten (epoch : Nat) (space : Space) (i : Nat) : BitVec 32

/-- FREE VALUE (R54, U10; log entry 2): what the `draw`-th read of a busy unit's counter register
returns, if it is a read of register `reg`. -/
opaque Config.busyCounter (reg draw : Nat) : BitVec 32

end Sys2Proof
end

