-- ==== Sys2Proof/Word.lean ====
section
/-! DEFINITION. The bit widths of the RVL entropy coder (spec/00_scope.md R5, R6, R8; spec/10_state.md R22 to R40). -/

namespace Sys2Proof

/-- A nibble: bit 3 is the continuation bit, bits 2..0 are the payload (R8, R91). -/
abbrev Nibble := BitVec 4

/-- The three value bits of a nibble (R91). -/
abbrev Payload := BitVec 3

/-- One sample: a 16-bit unsigned value (R5, R148). -/
abbrev Sample := BitVec 16

/-- A 32-bit packing word of eight nibbles; also a host register's value (R8, R40). -/
abbrev Word := BitVec 32

/-- A count, run length or element index: COUNT_W bits (R6, R22). -/
abbrev Count := BitVec Config.countW

/-- One byte of the payload's byte view (R66). -/
abbrev Byte := BitVec 8

/-- A host register number, 0 to 15 (R40). -/
abbrev RegNo := BitVec 4

/-- A codeword as the payloads of its nibbles, the first-written first (R92, R94). The
continuation bits carry no more: they are set on every nibble but the last. -/
abbrev Codeword := List Payload

end Sys2Proof
end

