-- ==== Sys2Proof/Syntax.lean ====
section
/-! DEFINITION. The decodable things of the RVL entropy coder: one constructor of `Instr` for each
row of spec/opcode_table.json (spec/30_encoding.md R111). -/

namespace Sys2Proof

/-- The two units (R20). -/
inductive UnitId where
  | enc
  | dec
deriving DecidableEq, Repr

/-- The role of a codeword, told by position only (R100, R101). -/
inductive Role where
  | z
  | n
  | d
deriving DecidableEq, Repr

/-- What the block decodes. `vle1` to `vle11` are codewords by their length, the payloads first
written first (R91, R92); `z`, `n`, `d` are symbols, a codeword of any length in a role (R100);
`pad` is a padding nibble (R98); the last four are the commands of a control write (R107), whose
bits 31:2 are ignored and so no operand (R108). -/
inductive Instr where
  | vle1 (p0 : Payload)
  | vle2 (p0 p1 : Payload)
  | vle3 (p0 p1 p2 : Payload)
  | vle4 (p0 p1 p2 p3 : Payload)
  | vle5 (p0 p1 p2 p3 p4 : Payload)
  | vle6 (p0 p1 p2 p3 p4 p5 : Payload)
  | vle7 (p0 p1 p2 p3 p4 p5 p6 : Payload)
  | vle8 (p0 p1 p2 p3 p4 p5 p6 p7 : Payload)
  | vle9 (p0 p1 p2 p3 p4 p5 p6 p7 p8 : Payload)
  | vle10 (p0 p1 p2 p3 p4 p5 p6 p7 p8 p9 : Payload)
  | vle11 (p0 p1 p2 p3 p4 p5 p6 p7 p8 p9 p10 : Payload)
  | z (cw : Codeword)
  | n (cw : Codeword)
  | d (cw : Codeword)
  | pad
  | encStart
  | encSrst
  | decStart
  | decSrst
deriving DecidableEq, Repr

end Sys2Proof
end

