-- ==== Sys2Proof/WellFormed.lean ====
section
/-! DEFINITION. Which instruction terms stand for something the block can decode. -/

namespace Sys2Proof

/-- A codeword has at least one nibble (R92: at least one nibble is always emitted). -/
def codewordOk (cw : Codeword) : Bool := !cw.isEmpty

/-- Well-formed instructions: a symbol carries a codeword of at least one nibble. The codeword rows
carry their payloads one by one and the other rows carry none, so there every term is well formed. -/
def WellFormed : Instr → Bool
  | .z cw => codewordOk cw
  | .n cw => codewordOk cw
  | .d cw => codewordOk cw
  | .vle1 .. => true
  | .vle2 .. => true
  | .vle3 .. => true
  | .vle4 .. => true
  | .vle5 .. => true
  | .vle6 .. => true
  | .vle7 .. => true
  | .vle8 .. => true
  | .vle9 .. => true
  | .vle10 .. => true
  | .vle11 .. => true
  | .pad => true
  | .encStart => true
  | .encSrst => true
  | .decStart => true
  | .decSrst => true

end Sys2Proof
end

