-- ==== Sys2Proof/Decode.lean ====
section
/-! DEFINITION. The decoder and, after it, the encoder (spec/30_encoding.md R90 to R108,
spec/20_memory.md R66, R67). -/

namespace Sys2Proof

/-! ### Nibbles, bytes and words -/

/-- The continuation bit of a nibble (R91). -/
def nibbleCont (q : Nibble) : Bool := q.getLsbD 3

/-- The payload of a nibble (R91). -/
def nibblePayload (q : Nibble) : Payload := q.setWidth 3

/-- A nibble of a continuation bit and a payload (R91). -/
def mkNibble (c : Bool) (p : Payload) : Nibble := BitVec.ofBool c ++ p

/-- The two nibbles of a payload byte in stream order: bits 3:0 first (R67). -/
def byteNibbles (b : Byte) : List Nibble := [b.setWidth 4, (b >>> 4).setWidth 4]

/-- The nibbles of a byte sequence in stream order (R67). -/
def bytesNibbles (bs : List Byte) : List Nibble := bs.flatMap byteNibbles

/-- Byte `b` of a word, byte 0 the least significant (R66). -/
def wordByte (w : Word) (b : Nat) : Byte := (w >>> (8 * b)).setWidth 8

/-- The four bytes of a word in the byte order of the hardware: little-endian, the least significant
byte first (R66). -/
def wordBytes (w : Word) : List Byte :=
  match Config.byteOrder with
  | .littleEndian => [wordByte w 0, wordByte w 1, wordByte w 2, wordByte w 3]
  | .bigEndian => [wordByte w 3, wordByte w 2, wordByte w 1, wordByte w 0]

/-- The payload byte sequence of a word sequence (R66). -/
def payloadBytes (ws : List Word) : List Byte := ws.flatMap wordBytes

/-- The word of four bytes in the byte order of the hardware (R66). -/
def bytesWord (b0 b1 b2 b3 : Byte) : Word :=
  match Config.byteOrder with
  | .littleEndian => b3 ++ b2 ++ b1 ++ b0
  | .bigEndian => b0 ++ b1 ++ b2 ++ b3

/-- Nibble slot `k` of a word (R8). -/
def wordSlot (w : Word) (k : Nat) : Nibble := (w >>> (4 * k)).setWidth 4

/-- The eight nibbles of a word in stream order (R95; R97 for the alternative). -/
def wordNibbles (fill : NibbleFill) (w : Word) : List Nibble :=
  match fill with
  | .lowFirst => [wordSlot w 0, wordSlot w 1, wordSlot w 2, wordSlot w 3,
      wordSlot w 4, wordSlot w 5, wordSlot w 6, wordSlot w 7]
  | .highFirst => [wordSlot w 7, wordSlot w 6, wordSlot w 5, wordSlot w 4,
      wordSlot w 3, wordSlot w 2, wordSlot w 1, wordSlot w 0]

/-! ### Codewords -/

/-- The value of a codeword: the sum of `payload i` times `8^i` (R94). -/
def codewordValue : Codeword → Nat
  | [] => 0
  | p :: ps => p.toNat + 8 * codewordValue ps

/-- Read one codeword off the front of a nibble sequence: up to and including the first nibble whose
continuation bit is 0 (R94, R106). `none` when the sequence ends first. -/
def splitCodeword : List Nibble → Option (Codeword × List Nibble)
  | [] => none
  | q :: qs =>
    if nibbleCont q then
      match splitCodeword qs with
      | none => none
      | some (ps, rest) => some (nibblePayload q :: ps, rest)
    else some ([nibblePayload q], qs)

/-- The table row of a codeword by its length (R111): rows VLE1 to VLE11. A longer codeword is
accepted by the unit (R94) but has no row. -/
def vleRow : Codeword → Option Instr
  | [a] => some (.vle1 a)
  | [a, b] => some (.vle2 a b)
  | [a, b, c] => some (.vle3 a b c)
  | [a, b, c, d] => some (.vle4 a b c d)
  | [a, b, c, d, e] => some (.vle5 a b c d e)
  | [a, b, c, d, e, f] => some (.vle6 a b c d e f)
  | [a, b, c, d, e, f, g] => some (.vle7 a b c d e f g)
  | [a, b, c, d, e, f, g, h] => some (.vle8 a b c d e f g h)
  | [a, b, c, d, e, f, g, h, i] => some (.vle9 a b c d e f g h i)
  | [a, b, c, d, e, f, g, h, i, j] => some (.vle10 a b c d e f g h i j)
  | [a, b, c, d, e, f, g, h, i, j, k] => some (.vle11 a b c d e f g h i j k)
  | _ => none

/-- A codeword in its role (R100). -/
def symbolInstr (r : Role) (cw : Codeword) : Instr :=
  match r with
  | .z => .z cw
  | .n => .n cw
  | .d => .d cw

/-! ### The decoder -/

/-- Where the bits stand, which for most rows is what selects them (R101, R107, table rows'
`selected_by`): a codeword before its role is applied, a codeword in a role, padding, or a value
written to a unit's control register. -/
inductive Position where
  | codeword
  | symbol (r : Role)
  | padding
  | ctrl (u : UnitId)
deriving DecidableEq, Repr

/-- Why nothing is decoded. -/
inductive DecodeError where
  /-- The nibbles end before a nibble whose continuation bit is 0: in the unit, the fault EXHAUSTED (R104). -/
  | truncated
  /-- A codeword of twelve or more nibbles: legal (R94), but no row of the table. -/
  | noRow
  /-- A control write whose bits 1:0 are 00 is no command (R107). -/
  | noCommand
  /-- A control write takes four bytes (R40: whole-register access only). -/
  | notAWord
deriving DecidableEq, Repr

/-- Decode at the front of a nibble sequence; what is left comes back. Padding is decoded whatever
its value (R103, R188). -/
def decodeNibbles (pos : Position) (qs : List Nibble) : Except DecodeError (Instr × List Nibble) :=
  match pos with
  | .codeword =>
    match splitCodeword qs with
    | none => .error .truncated
    | some (cw, rest) =>
      match vleRow cw with
      | none => .error .noRow
      | some i => .ok (i, rest)
  | .symbol r =>
    match splitCodeword qs with
    | none => .error .truncated
    | some (cw, rest) => .ok (symbolInstr r cw, rest)
  | .padding =>
    match qs with
    | [] => .error .truncated
    | _ :: rest => .ok (.pad, rest)
  | .ctrl _ => .error .notAWord

/-- Decode a value written to a unit's control register: SRST wins, bits 31:2 are ignored (R107, R108). -/
def decodeCtrl (u : UnitId) (v : Word) : Except DecodeError Instr :=
  if v.getLsbD 1 then
    match u with
    | .enc => .ok .encSrst
    | .dec => .ok .decSrst
  else if v.getLsbD 0 then
    match u with
    | .enc => .ok .encStart
    | .dec => .ok .decStart
  else .error .noCommand

/-- Decode bytes: the payload's byte view of a stream (R66, R67), or the bytes of a control write.

DESIGN CHOICE, safe (log entry 23): a control write's four bytes stand in the payload's byte order; R40
and R107 give its 32-bit value alone. -/
def decode (pos : Position) (bs : List Byte) : Except DecodeError Instr :=
  match pos with
  | .ctrl u =>
    match bs with
    | b0 :: b1 :: b2 :: b3 :: _ => decodeCtrl u (bytesWord b0 b1 b2 b3)
    | _ => .error .notAWord
  | _ => (decodeNibbles pos (bytesNibbles bs)).map Prod.fst

/-! ### The encoder -/

/-- The nibbles of a codeword: the continuation bit on all but the last (R92). -/
def codewordNibbles : Codeword → List Nibble
  | [] => []
  | [p] => [mkNibble false p]
  | p :: q :: ps => mkNibble true p :: codewordNibbles (q :: ps)

/-- The base-8 digits of `x`, least significant first, at least one (R92, R121). -/
def codewordOfFuel : Nat → Nat → Codeword
  | 0, x => [BitVec.ofNat 3 x]
  | fuel + 1, x =>
    if x / 8 = 0 then [BitVec.ofNat 3 x] else BitVec.ofNat 3 x :: codewordOfFuel fuel (x / 8)

/-- The canonical codeword of an unsigned value (R92). -/
def codewordOf (x : Nat) : Codeword := codewordOfFuel x x

/-- The nibbles the encoder emits for `x` (R92, R121). -/
def vleNibbles (x : Nat) : List Nibble := codewordNibbles (codewordOf x)

/-- The number of bits of `x` (R7). -/
def bitlen (x : Nat) : Nat := if x = 0 then 0 else Nat.log2 x + 1

/-- The codeword length `L(x)` (R93). -/
def codewordLength (x : Nat) : Nat := if x = 0 then 1 else (bitlen x + 2) / 3

/-- The payloads of a codeword row or of a symbol. -/
def instrCodeword : Instr → Codeword
  | .vle1 a => [a]
  | .vle2 a b => [a, b]
  | .vle3 a b c => [a, b, c]
  | .vle4 a b c d => [a, b, c, d]
  | .vle5 a b c d e => [a, b, c, d, e]
  | .vle6 a b c d e f => [a, b, c, d, e, f]
  | .vle7 a b c d e f g => [a, b, c, d, e, f, g]
  | .vle8 a b c d e f g h => [a, b, c, d, e, f, g, h]
  | .vle9 a b c d e f g h i => [a, b, c, d, e, f, g, h, i]
  | .vle10 a b c d e f g h i j => [a, b, c, d, e, f, g, h, i, j]
  | .vle11 a b c d e f g h i j k => [a, b, c, d, e, f, g, h, i, j, k]
  | .z cw => cw
  | .n cw => cw
  | .d cw => cw
  | .pad => []
  | .encStart => []
  | .encSrst => []
  | .decStart => []
  | .decSrst => []

/-- Where an instruction stands. -/
def instrPosition : Instr → Position
  | .vle1 .. => .codeword
  | .vle2 .. => .codeword
  | .vle3 .. => .codeword
  | .vle4 .. => .codeword
  | .vle5 .. => .codeword
  | .vle6 .. => .codeword
  | .vle7 .. => .codeword
  | .vle8 .. => .codeword
  | .vle9 .. => .codeword
  | .vle10 .. => .codeword
  | .vle11 .. => .codeword
  | .z _ => .symbol .z
  | .n _ => .symbol .n
  | .d _ => .symbol .d
  | .pad => .padding
  | .encStart => .ctrl .enc
  | .encSrst => .ctrl .enc
  | .decStart => .ctrl .dec
  | .decSrst => .ctrl .dec

/-- The nibbles an instruction of the stream is written as; none for a command. The encoder writes
padding as `0x0` (R98). -/
def encodeNibbles (i : Instr) : List Nibble :=
  match i with
  | .pad => [0]
  | _ => codewordNibbles (instrCodeword i)

/-- The control word of a command, its ignored bits 0 (R107). -/
def encodeCtrl : Instr → Option Word
  | .encStart => some 1
  | .encSrst => some 2
  | .decStart => some 1
  | .decSrst => some 2
  | _ => none

/-- Nibbles as bytes, the earlier nibble in bits 3:0 (R67), an odd last nibble beside a 0. -/
def nibblesBytes : List Nibble → List Byte
  | [] => []
  | [a] => [(0 : Nibble) ++ a]
  | a :: b :: rest => (b ++ a) :: nibblesBytes rest

/-- The bytes of an instruction; a control write's in the order of log entry 23. -/
def encode (i : Instr) : List Byte :=
  match encodeCtrl i with
  | some w => wordBytes w
  | none => nibblesBytes (encodeNibbles i)

/-! ### The opcode table's words -/

/-- The longest table row is VLE11: 44 bits, six bytes. -/
def tableBytes (w : Nat) : List Byte :=
  [BitVec.ofNat 8 w, BitVec.ofNat 8 (w >>> 8), BitVec.ofNat 8 (w >>> 16), BitVec.ofNat 8 (w >>> 24),
    BitVec.ofNat 8 (w >>> 32), BitVec.ofNat 8 (w >>> 40)]

/-- The position a table word is read at (log entry 12): the table's bits do not say it, its widths
almost do. A row without bits is a symbol; a 32-bit word is a control write to register 0 unless it
has the continuation bits of VLE7 and VLE8, the codeword rows of that width; every other word is a
codeword at slot 0. -/
def tablePosition (nbits w : Nat) : Position :=
  if nbits = 0 then .symbol .z
  else if nbits = 32 ∧ w &&& 0x888888 ≠ 0x888888 then .ctrl .enc
  else .codeword

/-- The instruction the decoder reads from a table word. -/
def decodeTableWord (nbits w : Nat) : Option Instr :=
  match decode (tablePosition nbits w) (tableBytes w) with
  | .ok i => some i
  | .error _ => none

end Sys2Proof
end

