-- ==== Sys2Proof/Machine/State.lean ====
section
/-! DEFINITION. The state of the RVL entropy coder (spec/10_state.md R20 to R58, spec/20_memory.md
R60), its reasons to stop, and its reset (R57, R251). -/

namespace Sys2Proof.Machine

/-! ### Why the model stops -/

/-- Reasons why the machine stops with a fault. There is none: every fault of the spec ends one unit's
operation and the machine goes on (R226), so nobody raises a `Fault`, which is safe. -/
inductive Fault : Type
deriving DecidableEq, Repr

/-- Reasons why the model gives no next state. -/
inductive Refusal where
  /-- Raised by `exec` for an instruction that has no meaning yet (none now). Safe: nothing can be
  proved of what such an instruction does. -/
  | notModelled (mnemonic : String)
  /-- Raised by a host write to a busy unit's input buffer (R262 a). Safe: the spec gives no outcome
  and says a model must refuse the run. -/
  | busyInputWritten (u : UnitId)
  /-- Raised by a host read of a busy unit's output buffer (R262 b). Safe, as above. -/
  | busyOutputRead (u : UnitId)
  /-- Raised by a host write to a busy unit's output buffer (R262 c). Safe, as above. -/
  | busyOutputWritten (u : UnitId)
deriving DecidableEq, Repr

/-! ### Units -/

/-- The faults of the units (R221). -/
inductive FaultCode where
  | exhausted
  | overrun
  | range
  | outFull
deriving DecidableEq, Repr

/-- The phases of ENC (R22, R158). -/
inductive EncPhase where
  | idle
  | pair
  | zrun
  | nrun
  | delta
  | flush
deriving DecidableEq, Repr

/-- The phases of DEC (R29, R183). -/
inductive DecPhase where
  | idle
  | pair
  | zrun
  | nrun
  | delta
deriving DecidableEq, Repr

/-- The fields of a status register (R42, R47). The reserved bits 3 and 31:8 read 0 and nothing
writes them, so they are not stored. -/
structure Status where
  busy : Bool
  done : Bool
  err : Bool
  code : BitVec 4
deriving DecidableEq, Repr

/-- The compressor: working registers (R22 to R28), status (R42), configuration (R43, R44). -/
structure EncUnit where
  phase : EncPhase
  pos : Count
  prev : Sample
  word : Word
  nib : BitVec 3
  wr : Count
  run : Count
  status : Status
  numPixels : Count
  outCap : Count
deriving DecidableEq, Repr

/-- The decompressor: working registers (R29 to R36), status (R47), configuration (R48, R49).
`held` is the model's own (log entry 4): the codeword a codeword turn has read, whose symbol step is
still to come. -/
structure DecUnit where
  phase : DecPhase
  cnt : Count
  prev : Sample
  word : Word
  nib : BitVec 4
  rd : Count
  run : Count
  acc : Word
  ovf : Bool
  sh : BitVec 6
  status : Status
  numPixels : Count
  inWords : Count
  held : Option Codeword
deriving DecidableEq, Repr

/-! ### Buffers -/

/-- A buffer of `w`-bit elements: the elements something has written, by index, strictly rising. The
spec's smallest addressable unit is the element (R60, R68, R70; log entry 11). -/
abbrev Buf (w : Nat) := List (Nat × BitVec w)

/-- The form every buffer keeps: indices strictly rising. An index not listed has no value in the list,
so no entry can equal what an unlisted one reads as (log entry 1). -/
def bufWf {w : Nat} : Buf w → Bool
  | [] => true
  | (i, _) :: rest => rest.all (fun c => i < c.1) && bufWf rest

/-! ### The agents' turns -/

/-- The buffers with 16-bit elements (R60). -/
inductive SampleSpace where
  | encIn
  | decOut
deriving DecidableEq, Repr

/-- The buffers with 32-bit elements (R60). -/
inductive WordSpace where
  | encOut
  | decIn
deriving DecidableEq, Repr

/-- One host step (R200). -/
inductive HostAction where
  | regRead (i : RegNo)
  | regWrite (i : RegNo) (v : Word)
  | sampleRead (b : SampleSpace) (i : Count)
  | sampleWrite (b : SampleSpace) (i : Count) (v : Sample)
  | wordRead (b : WordSpace) (i : Count)
  | wordWrite (b : WordSpace) (i : Count) (v : Word)
deriving DecidableEq, Repr

/-- Who moves next (R75, log entry 3). -/
inductive Turn where
  /-- One phase step of ENC (R158). -/
  | enc
  /-- One phase step of DEC (R183). -/
  | dec
  /-- Only the DECVLE of DEC's next phase step (R172, D20; log entry 4). -/
  | decCodeword
  /-- The first `k` buffer writes of a unit's next phase step become visible (R205, U12; log entry 5). -/
  | partialWrites (u : UnitId) (k : Nat)
  /-- One host step. -/
  | host (a : HostAction)
  /-- Hardware reset (R250; log entry 7). The buffers named in `kept` keep their contents (R252), the
  others have them drawn anew (R251): log entry 1. -/
  | hardReset (kept : List Space)
deriving DecidableEq, Repr

/-! ### The state -/

/-- For each buffer, how often its contents have been drawn (R251): the model's own (log entry 1). -/
structure Epochs where
  encIn : Nat
  encOut : Nat
  decIn : Nat
  decOut : Nat
deriving DecidableEq, Repr

/-- The two units with their host registers (R20, R40), the four buffers (R60), and the model's own
fields (log entries 1, 2, 3, 6). -/
structure State where
  enc : EncUnit
  dec : DecUnit
  encIn : Buf 16
  encOut : Buf 32
  decIn : Buf 32
  decOut : Buf 16
  epochs : Epochs
  draws : Nat
  hostData : Word
  turns : List Turn
deriving DecidableEq, Repr

/-- Status 0: not busy, not done, no error, code 0 (R57). -/
def Status.reset : Status := { busy := false, done := false, err := false, code := 0 }

/-- No buffer has been drawn anew (log entry 1). -/
def Epochs.reset : Epochs := { encIn := 0, encOut := 0, decIn := 0, decOut := 0 }

/-- ENC after reset (R57). -/
def EncUnit.reset : EncUnit :=
  { phase := .idle, pos := 0, prev := 0, word := 0, nib := 0, wr := 0, run := 0,
    status := Status.reset, numPixels := 0, outCap := 0 }

/-- DEC after reset (R57). -/
def DecUnit.reset : DecUnit :=
  { phase := .idle, cnt := 0, prev := 0, word := 0, nib := 0, rd := 0, run := 0,
    acc := 0, ovf := false, sh := 0, status := Status.reset, numPixels := 0, inWords := 0,
    held := none }

/-- The machine after hardware reset: both units idle, every register 0, no buffer element written,
nobody's turn yet (R57, R251). -/
def State.reset : State :=
  { enc := EncUnit.reset, dec := DecUnit.reset, encIn := [], encOut := [], decIn := [], decOut := [],
    epochs := Epochs.reset, draws := 0, hostData := 0, turns := [] }

/-- Every buffer is in its form. -/
def State.buffersWf (s : State) : Bool :=
  bufWf s.encIn && bufWf s.encOut && bufWf s.decIn && bufWf s.decOut

end Sys2Proof.Machine
end

