-- ==== Sys2Proof/Machine/Flags.lean ====
section
/-! DEFINITION. The flags of the block: the status registers and their set and clear rules
(spec/10_state.md R42, R47, R53; spec/60_exceptions.md R221, R226). -/

namespace Sys2Proof.Machine

/-- The number of a fault in STATUS.CODE (R6, R221). -/
def faultNumber : FaultCode → BitVec 4
  | .exhausted => Config.exhaustedNumber
  | .overrun => Config.overrunNumber
  | .range => Config.rangeNumber
  | .outFull => Config.outFullNumber

/-- A flag as bit `k` of a register value. -/
def flagBit (b : Bool) (k : Nat) : Word := (BitVec.ofBool b).setWidth 32 <<< k

/-- What a read of a status register returns: BUSY bit 0, DONE bit 1, ERR bit 2, CODE bits 7:4,
every other bit 0 (R42, R47). -/
def statusWord (st : Status) : Word :=
  flagBit st.busy 0 ||| flagBit st.done 1 ||| flagBit st.err 2 ||| (st.code.setWidth 32 <<< 4)

/-- START: BUSY set, the rest cleared (R53, R203, R204). -/
def Status.started : Status := { busy := true, done := false, err := false, code := 0 }

/-- The end of a successful operation: BUSY cleared, DONE set, ERR and CODE stay (R163, R184). -/
def Status.finished (st : Status) : Status := { st with busy := false, done := true }

/-- The end of an operation by a fault (R226). -/
def Status.faulted (c : FaultCode) : Status :=
  { busy := false, done := true, err := true, code := faultNumber c }

end Sys2Proof.Machine
end

