-- ==== Sys2Proof/Machine/Ops.lean ====
section
/-! DEFINITION. The named operations over buffers and registers: element access (spec/20_memory.md),
fault entry and what follows it (spec/60_exceptions.md R226, R231), and the nibble and codeword
micro-operations (spec/40_vle_nibble.md). -/

namespace Sys2Proof.Machine

/-! ### Buffers -/

/-- Element `i` of a buffer, if something has written it. -/
def bufRead {w : Nat} : Buf w → Nat → Option (BitVec w)
  | [], _ => none
  | (j, v) :: rest, i => if i = j then some v else bufRead rest i

/-- Store `v` as element `i`, keeping the indices strictly rising. -/
def bufWrite {w : Nat} : Buf w → Nat → BitVec w → Buf w
  | [], i, v => [(i, v)]
  | (j, u) :: rest, i, v =>
    if i < j then (i, v) :: (j, u) :: rest
    else if i = j then (i, v) :: rest
    else (j, u) :: bufWrite rest i v

/-- Store `v` as each of the `n` elements from index `start`, in increasing order (R185). -/
def bufFill {w : Nat} (b : Buf w) (start : Nat) (v : BitVec w) : Nat → Buf w
  | 0 => b
  | n + 1 => bufWrite (bufFill b start v n) (start + n) v

/-- Take over from `src` its first `n` elements from index `start` (log entry 5). -/
def bufCopy {w : Nat} (src dst : Buf w) (start : Nat) : Nat → Buf w
  | 0 => dst
  | n + 1 =>
    match bufRead src (start + n) with
    | some v => bufWrite (bufCopy src dst start n) (start + n) v
    | none => bufCopy src dst start n

/-- `MemRead(ENC_IN:i, 2)` (R11, R65); an element nothing has written is a free value (R263, U11). -/
def State.readEncIn (s : State) (i : Nat) : Sample :=
  (bufRead s.encIn i).getD ((Config.unwritten s.epochs.encIn .encIn i).setWidth 16)

/-- Element `i` of ENC_OUT. -/
def State.readEncOut (s : State) (i : Nat) : Word :=
  (bufRead s.encOut i).getD (Config.unwritten s.epochs.encOut .encOut i)

/-- `MemRead(DEC_IN:i, 4)` (R11, R65); an element nothing has written is a free value. -/
def State.readDecIn (s : State) (i : Nat) : Word :=
  (bufRead s.decIn i).getD (Config.unwritten s.epochs.decIn .decIn i)

/-- Element `i` of DEC_OUT. -/
def State.readDecOut (s : State) (i : Nat) : Sample :=
  (bufRead s.decOut i).getD ((Config.unwritten s.epochs.decOut .decOut i).setWidth 16)

/-! ### Fault entry, and what follows a fault -/

/-- `raise Fault(C)` in a step of unit `u` (R226): the unit idle, BUSY 0, DONE 1, ERR 1, CODE; nothing
else changes. -/
def State.takeFault (s : State) (u : UnitId) (c : FaultCode) : State :=
  match u with
  | .enc => { s with enc := { s.enc with phase := .idle, status := Status.faulted c } }
  | .dec => { s with dec := { s.dec with phase := .idle, status := Status.faulted c } }

/-- START of ENC, which is also the way on after a fault (R203, R231). -/
def EncUnit.start (e : EncUnit) : EncUnit :=
  { e with pos := 0, prev := 0, run := 0, word := 0, nib := 0, wr := 0,
           status := Status.started, phase := .pair }

/-- START of DEC, which is also the way on after a fault (R204, R231). The scratch registers need no
initialisation; the model's `held` is emptied with the codeword cursor. -/
def DecUnit.start (d : DecUnit) : DecUnit :=
  { d with cnt := 0, prev := 0, run := 0, word := 0, nib := 0, rd := 0,
           status := Status.started, phase := .pair, held := none }

/-- A buffer after a hardware reset: as it was, or with no element written. -/
def resetBuf {w : Nat} (kept : List Space) (b : Space) (buf : Buf w) : Buf w :=
  if b ∈ kept then buf else []

/-- How often a buffer's contents have been drawn, after a hardware reset. -/
def resetEpoch (kept : List Space) (b : Space) (epoch : Nat) : Nat :=
  if b ∈ kept then epoch else epoch + 1

/-- Hardware reset (R250, R251): both units at their reset values. What the host holds and the coming
turns are outside the block.

DESIGN CHOICE, safe (log entry 1): R252 and U12 say that the output prefix of an operation this reset cuts
short stays and the rest of the buffer is unchanged; R251 and U11 say any value for every element. The
turn says for each buffer which of the two it is: the ones in `kept` keep their contents, the others are
drawn anew, as free values. -/
def State.hardReset (kept : List Space) (s : State) : State :=
  { s with
    enc := EncUnit.reset
    dec := DecUnit.reset
    encIn := resetBuf kept .encIn s.encIn
    encOut := resetBuf kept .encOut s.encOut
    decIn := resetBuf kept .decIn s.decIn
    decOut := resetBuf kept .decOut s.decOut
    epochs :=
      { encIn := resetEpoch kept .encIn s.epochs.encIn
        encOut := resetEpoch kept .encOut s.epochs.encOut
        decIn := resetEpoch kept .decIn s.epochs.decIn
        decOut := resetEpoch kept .decOut s.epochs.decOut } }

/-! ### The end of a micro-operation -/

/-- How a step or micro-operation ends: normally, or by `raise Fault(C)` with the state at the raise
(R12, R226). -/
inductive Ended where
  | ok (s : State)
  | raised (c : FaultCode) (s : State)
deriving DecidableEq, Repr

/-- Go on with `f` unless a fault was raised (R12: the rest is abandoned). -/
def andThen (m : Ended) (f : State → Ended) : Ended :=
  match m with
  | .ok s => f s
  | .raised c s => .raised c s

/-- The state after a step of unit `u`: a raised fault is taken (R226). -/
def settle (u : UnitId) : Ended → State
  | .ok s => s
  | .raised c s => s.takeFault u c

/-! ### Encoder side: PUTNIB, ENCVLE, FLUSH -/

/-- How PUTNIB and FLUSH end. -/
inductive Put where
  | ok (e : EncUnit) (out : Buf 32)
  | full (e : EncUnit) (out : Buf 32)
deriving DecidableEq, Repr

/-- The word register with one more nibble (R120; R129 for HIGH_FIRST). -/
def appendNibble (fill : NibbleFill) (w : Word) (n : Nat) (nb : Nibble) : Word :=
  match fill with
  | .lowFirst => w ||| (nb.setWidth 32 <<< (4 * n))
  | .highFirst => (w <<< 4) ||| nb.setWidth 32

/-- The word FLUSH writes (R122; R129 for HIGH_FIRST). -/
def flushWord (fill : NibbleFill) (w : Word) (n : Nat) : Word :=
  match fill with
  | .lowFirst => w
  | .highFirst => w <<< (4 * (8 - n))

/-- Write a word to ENC_OUT:wr and empty the word register, or raise OUT_FULL (R120, R122). -/
def writeWord (w : Word) (e : EncUnit) (out : Buf 32) : Put :=
  if e.wr = e.outCap then .full e out
  else .ok { e with wr := e.wr + 1, word := 0, nib := 0 } (bufWrite out e.wr.toNat w)

/-- PUTNIB (R120): the word is written the moment its eighth nibble arrives. -/
def putNib (fill : NibbleFill) (nb : Nibble) (e : EncUnit) (out : Buf 32) : Put :=
  let w := appendNibble fill e.word e.nib.toNat nb
  if e.nib = 7 then writeWord w { e with word := w } out
  else .ok { e with word := w, nib := e.nib + 1 } out

/-- PUTNIB of each nibble in turn, up to the first OUT_FULL (R121). -/
def putNibs (fill : NibbleFill) : List Nibble → EncUnit → Buf 32 → Put
  | [], e, out => .ok e out
  | nb :: rest, e, out =>
    match putNib fill nb e out with
    | .ok e' out' => putNibs fill rest e' out'
    | .full e' out' => .full e' out'

/-- FLUSH (R122): write the partly filled word, if there is one. -/
def flushNibs (fill : NibbleFill) (e : EncUnit) (out : Buf 32) : Put :=
  if e.nib = 0 then .ok e out
  else writeWord (flushWord fill e.word e.nib.toNat) e out

/-- The machine after an encoder micro-operation. -/
def State.put (s : State) : Put → Ended
  | .ok e out => .ok { s with enc := e, encOut := out }
  | .full e out => .raised .outFull { s with enc := e, encOut := out }

/-- ENCVLE(x) in the machine (R121). -/
def encVle (x : Nat) (s : State) : Ended :=
  s.put (putNibs Config.nibbleFill (vleNibbles x) s.enc s.encOut)

/-- FLUSH in the machine (R122). -/
def encFlush (s : State) : Ended :=
  s.put (flushNibs Config.nibbleFill s.enc s.encOut)

/-! ### Decoder side: GETNIB, DECVLE -/

/-- Deliver one nibble of `dec.word` (R123, second half; R129 for HIGH_FIRST). -/
def shiftNibble (fill : NibbleFill) (d : DecUnit) : Nibble × DecUnit :=
  match fill with
  | .lowFirst => (d.word.setWidth 4, { d with word := d.word >>> 4, nib := d.nib - 1 })
  | .highFirst => ((d.word >>> 28).setWidth 4, { d with word := d.word <<< 4, nib := d.nib - 1 })

/-- GETNIB (R123): fetch a word when none is left, deliver a nibble; `none` is `raise Fault(EXHAUSTED)`
with nothing changed. `mem` reads DEC_IN. -/
def getNib (fill : NibbleFill) (mem : Nat → Word) (d : DecUnit) : Option (Nibble × DecUnit) :=
  if d.nib = 0 then
    if d.rd = d.inWords then none
    else some (shiftNibble fill { d with word := mem d.rd.toNat, rd := d.rd + 1, nib := 8 })
  else some (shiftNibble fill d)

/-- How many nibbles GETNIB can still deliver: those in `dec.word` and eight for each word not fetched. -/
def nibblesLeft (d : DecUnit) : Nat := d.nib.toNat + 8 * (d.inWords - d.rd).toNat

/-- The next `n` nibbles GETNIB would deliver. -/
def nibblesAhead (fill : NibbleFill) (mem : Nat → Word) : Nat → DecUnit → List Nibble
  | 0, _ => []
  | n + 1, d =>
    match getNib fill mem d with
    | none => []
    | some (nb, d') => nb :: nibblesAhead fill mem n d'

/-- The update of `dec.acc`, `dec.ovf`, `dec.sh` for one nibble's payload (R125). -/
def accumulate (p : Payload) (d : DecUnit) : DecUnit :=
  let sh := d.sh.toNat
  { d with
    acc := if sh ≤ 29 then d.acc ||| (p.setWidth 32 <<< sh)
           else if sh = 30 then d.acc ||| ((p &&& 3).setWidth 32 <<< 30) else d.acc
    ovf := if sh = 30 then d.ovf || p.getLsbD 2
           else if 33 ≤ sh then d.ovf || decide (p ≠ 0) else d.ovf
    sh := BitVec.ofNat 6 (min (sh + 3) 33) }

/-- The scratch registers at the entry of DECVLE (R125). -/
def DecUnit.clearScratch (d : DecUnit) : DecUnit := { d with acc := 0, ovf := false, sh := 0 }

/-- How reading a codeword ends. -/
inductive Took where
  | ok (d : DecUnit)
  | exhausted (d : DecUnit)
deriving DecidableEq, Repr

/-- The loop of DECVLE (R124, R125) over a codeword's nibbles: each is delivered by GETNIB and its
payload accumulated; EXHAUSTED leaves the unit as it was at the raise. -/
def takeNibbles (fill : NibbleFill) (mem : Nat → Word) : Codeword → DecUnit → Took
  | [], d => .ok d
  | p :: ps, d =>
    match getNib fill mem d with
    | none => .exhausted d
    | some (_, d') => takeNibbles fill mem ps (accumulate p d')

/-- DECVLE in the machine, on the codeword that stands at the cursor (R124, R125). -/
def decVle (cw : Codeword) (s : State) : Ended :=
  match takeNibbles Config.nibbleFill s.readDecIn cw s.dec.clearScratch with
  | .ok d => .ok { s with dec := d }
  | .exhausted d => .raised .exhausted { s with dec := d }

end Sys2Proof.Machine
end

