-- ==== Sys2Proof/Machine/Bus.lean ====
section
/-! DEFINITION. The host's accesses that are no command: registers and buffers
(spec/44_host_commands.md R201, R202, R206; spec/70_reset_and_hazards.md R261, R262). -/

namespace Sys2Proof.Machine

/-- The bus address of register `i`, of OPEN base and stride (R40). -/
def busAddress (i : RegNo) : Nat := Config.regBase + Config.regStride * i.toNat

/-- A counter register: exact while its unit is idle, any value drawn afresh while it is busy (R54). -/
def readCounter (i : RegNo) (busy : Bool) (v : Count) (s : State) : State :=
  if busy then { s with hostData := Config.busyCounter i.toNat s.draws, draws := s.draws + 1 }
  else { s with hostData := v }

/-- REGREAD(i) (R201): the value goes to the host, nothing of the block changes. -/
def regRead (i : RegNo) (s : State) : State :=
  match i.toNat with
  | 1 => { s with hostData := statusWord s.enc.status }
  | 2 => { s with hostData := s.enc.numPixels }
  | 3 => { s with hostData := s.enc.outCap }
  | 4 => readCounter i s.enc.status.busy s.enc.wr s
  | 9 => { s with hostData := statusWord s.dec.status }
  | 10 => { s with hostData := s.dec.numPixels }
  | 11 => { s with hostData := s.dec.inWords }
  | 12 => readCounter i s.dec.status.busy s.dec.cnt s
  | 13 => readCounter i s.dec.status.busy s.dec.rd s
  | _ => { s with hostData := 0 }

/-- REGWRITE(i, v) where it is no command (R202): a configuration register of an idle unit is written,
every other write is ignored. -/
def configWrite (i : RegNo) (v : Word) (s : State) : State :=
  match i.toNat with
  | 2 => if s.enc.status.busy then s else { s with enc := { s.enc with numPixels := v } }
  | 3 => if s.enc.status.busy then s else { s with enc := { s.enc with outCap := v } }
  | 10 => if s.dec.status.busy then s else { s with dec := { s.dec with numPixels := v } }
  | 11 => if s.dec.status.busy then s else { s with dec := { s.dec with inWords := v } }
  | _ => s

/-- A host read of a sample buffer's element; of a busy unit's output buffer it is refused (R262 b). -/
def sampleRead (b : SampleSpace) (i : Count) (s : State) : Host.Outcome State Fault Refusal :=
  match b with
  | .encIn => .next { s with hostData := (s.readEncIn i.toNat).setWidth 32 }
  | .decOut =>
    if s.dec.status.busy then .refused (.busyOutputRead .dec)
    else .next { s with hostData := (s.readDecOut i.toNat).setWidth 32 }

/-- A host write of a sample buffer's element; refused while the unit is busy (R262 a, c). -/
def sampleWrite (b : SampleSpace) (i : Count) (v : Sample) (s : State) :
    Host.Outcome State Fault Refusal :=
  match b with
  | .encIn =>
    if s.enc.status.busy then .refused (.busyInputWritten .enc)
    else .next { s with encIn := bufWrite s.encIn i.toNat v }
  | .decOut =>
    if s.dec.status.busy then .refused (.busyOutputWritten .dec)
    else .next { s with decOut := bufWrite s.decOut i.toNat v }

/-- A host read of a word buffer's element; of a busy unit's output buffer it is refused (R262 b). -/
def wordRead (b : WordSpace) (i : Count) (s : State) : Host.Outcome State Fault Refusal :=
  match b with
  | .decIn => .next { s with hostData := s.readDecIn i.toNat }
  | .encOut =>
    if s.enc.status.busy then .refused (.busyOutputRead .enc)
    else .next { s with hostData := s.readEncOut i.toNat }

/-- A host write of a word buffer's element; refused while the unit is busy (R262 a, c). -/
def wordWrite (b : WordSpace) (i : Count) (v : Word) (s : State) :
    Host.Outcome State Fault Refusal :=
  match b with
  | .decIn =>
    if s.dec.status.busy then .refused (.busyInputWritten .dec)
    else .next { s with decIn := bufWrite s.decIn i.toNat v }
  | .encOut =>
    if s.enc.status.busy then .refused (.busyOutputWritten .enc)
    else .next { s with encOut := bufWrite s.encOut i.toNat v }

end Sys2Proof.Machine
end

