-- ==== Sys2Proof/Machine/Commands.lean ====
section
/-! DEFINITION. The four commands (spec/44_host_commands.md R203 to R205). -/

namespace Sys2Proof.Machine

/-- ENC.START (R203): ignored while an operation runs. -/
def execEncStart (s : State) : Host.Outcome State Fault Refusal :=
  if s.enc.status.busy then .next s else .next { s with enc := s.enc.start }

/-- ENC.SRST (R205): every register of ENC at its reset value, at any time; no buffer is touched. -/
def execEncSrst (s : State) : Host.Outcome State Fault Refusal :=
  .next { s with enc := EncUnit.reset }

/-- DEC.START (R204): ignored while an operation runs. -/
def execDecStart (s : State) : Host.Outcome State Fault Refusal :=
  if s.dec.status.busy then .next s else .next { s with dec := s.dec.start }

/-- DEC.SRST (R205): every register of DEC at its reset value, at any time; no buffer is touched. -/
def execDecSrst (s : State) : Host.Outcome State Fault Refusal :=
  .next { s with dec := DecUnit.reset }

end Sys2Proof.Machine
end

