-- ==== Sys2Proof/Machine/Operands.lean ====
section
/-! DEFINITION. The operands of the steps: the value of a codeword at the decoder, and the arithmetic
on samples (spec/41_zigzag_delta.md). -/

namespace Sys2Proof.Machine

/-! ### Zig-zag and delta arithmetic -/

/-- ZZENC(d) (R99, R141). -/
def zzEnc (d : Int) : Nat := if 0 ≤ d then (2 * d).toNat else (-2 * d - 1).toNat

/-- ZZDEC(u) (R99, R142). -/
def zzDec (u : Nat) : Int := if u % 2 = 0 then ((u / 2 : Nat) : Int) else -(((u + 1) / 2 : Nat) : Int)

/-- The difference DELTA(v) returns: exact, on unsigned values (R140, R148). -/
def sampleDelta (v prev : Sample) : Int := (v.toNat : Int) - (prev.toNat : Int)

/-- ACCUM(d) (R143): the reconstructed sample, or `none` for `raise Fault(RANGE)`. -/
def accum (prev : Sample) (d : Int) : Option Sample :=
  let v := (prev.toNat : Int) + d
  if v < 0 ∨ 65535 < v then none else some (BitVec.ofNat 16 v.toNat)

/-! ### The operand of a symbol -/

/-- The codeword of a symbol step: its DECVLE, unless a codeword turn has done it already, in which
case its result stands in `dec.acc` and `dec.ovf` (log entry 4). -/
def symbolOperand (cw : Codeword) (s : State) : Ended :=
  match s.dec.held with
  | some _ => .ok { s with dec := { s.dec with held := none } }
  | none => decVle cw s

/-- The remaining count `N - dec.cnt` (R30). -/
def remaining (d : DecUnit) : Nat := d.numPixels.toNat - d.cnt.toNat

/-- The OVERRUN test on the pair of `dec.acc` and `dec.ovf` (R125, R223). -/
def overRemaining (d : DecUnit) : Bool := d.ovf || decide (remaining d < d.acc.toNat)

/-- ZZDEC and ACCUM on the pair of `dec.acc` and `dec.ovf` (R125): an overflow is out of range. -/
def reconstruct (d : DecUnit) : Option Sample :=
  if d.ovf then none else accum d.prev (zzDec d.acc.toNat)

end Sys2Proof.Machine
end

