-- ==== Sys2Proof/Machine/Symbols.lean ====
section
/-! DEFINITION. The symbols Z, N, D and PAD, and the PAIR step of DEC (spec/43_decompress.md R184 to
R188). -/

namespace Sys2Proof.Machine

/-- The ZRUN step after its DECVLE (R185): the test comes before every write. -/
def zRunBody (s : State) : Ended :=
  if overRemaining s.dec then .raised .overrun s
  else .ok { s with
    decOut := bufFill s.decOut s.dec.cnt.toNat 0 s.dec.acc.toNat
    dec := { s.dec with cnt := s.dec.cnt + s.dec.acc, phase := .nrun } }

/-- The NRUN step after its DECVLE (R186). -/
def nRunBody (s : State) : Ended :=
  if overRemaining s.dec then .raised .overrun s
  else .ok { s with
    dec := { s.dec with run := s.dec.acc, phase := if s.dec.acc = 0 then .pair else .delta } }

/-- The DELTA step after its DECVLE (R187). -/
def deltaBody (s : State) : Ended :=
  match reconstruct s.dec with
  | none => .raised .range s
  | some v => .ok { s with
      decOut := bufWrite s.decOut s.dec.cnt.toNat v
      dec := { s.dec with
        prev := v, cnt := s.dec.cnt + 1, run := s.dec.run - 1,
        phase := if s.dec.run - 1 = 0 then .pair else .delta } }

/-- Z (R185). -/
def execZ (cw : Codeword) (s : State) : Host.Outcome State Fault Refusal :=
  .next (settle .dec (andThen (symbolOperand cw s) zRunBody))

/-- N (R186). -/
def execN (cw : Codeword) (s : State) : Host.Outcome State Fault Refusal :=
  .next (settle .dec (andThen (symbolOperand cw s) nRunBody))

/-- D (R187). -/
def execD (cw : Codeword) (s : State) : Host.Outcome State Fault Refusal :=
  .next (settle .dec (andThen (symbolOperand cw s) deltaBody))

/-- PAD (R188): the decoder never looks at it (log entry 18). -/
def execPad (s : State) : Host.Outcome State Fault Refusal := .next s

/-- The PAIR step of DEC (R184): the only place where completion is tested. -/
def decPair (s : State) : State :=
  if s.dec.cnt = s.dec.numPixels then
    { s with dec := { s.dec with phase := .idle, status := s.dec.status.finished } }
  else { s with dec := { s.dec with phase := .zrun } }

end Sys2Proof.Machine
end

