-- ==== Sys2Proof/Machine/Vle.lean ====
section
/-! DEFINITION. The codeword rows VLE1 to VLE11: DECVLE reads a codeword of that length
(spec/30_encoding.md R92, R94; spec/40_vle_nibble.md R123 to R125). -/

namespace Sys2Proof.Machine

/-- Read a codeword and keep it for its symbol step (log entry 4), or take EXHAUSTED (R124). -/
def readCodeword (cw : Codeword) (s : State) : State :=
  settle .dec (andThen (decVle cw s) (fun s' => .ok { s' with dec := { s'.dec with held := some cw } }))

/-- VLE1 (R92, R124). -/
def execVle1 (p0 : Payload) (s : State) : Host.Outcome State Fault Refusal :=
  .next (readCodeword [p0] s)

/-- VLE2 (R92, R124). -/
def execVle2 (p0 p1 : Payload) (s : State) : Host.Outcome State Fault Refusal :=
  .next (readCodeword [p0, p1] s)

/-- VLE3 (R92, R124). -/
def execVle3 (p0 p1 p2 : Payload) (s : State) : Host.Outcome State Fault Refusal :=
  .next (readCodeword [p0, p1, p2] s)

/-- VLE4 (R92, R124). -/
def execVle4 (p0 p1 p2 p3 : Payload) (s : State) : Host.Outcome State Fault Refusal :=
  .next (readCodeword [p0, p1, p2, p3] s)

/-- VLE5 (R92, R124). -/
def execVle5 (p0 p1 p2 p3 p4 : Payload) (s : State) : Host.Outcome State Fault Refusal :=
  .next (readCodeword [p0, p1, p2, p3, p4] s)

/-- VLE6 (R92, R124). -/
def execVle6 (p0 p1 p2 p3 p4 p5 : Payload) (s : State) : Host.Outcome State Fault Refusal :=
  .next (readCodeword [p0, p1, p2, p3, p4, p5] s)

/-- VLE7 (R92, R124). -/
def execVle7 (p0 p1 p2 p3 p4 p5 p6 : Payload) (s : State) : Host.Outcome State Fault Refusal :=
  .next (readCodeword [p0, p1, p2, p3, p4, p5, p6] s)

/-- VLE8 (R92, R124). -/
def execVle8 (p0 p1 p2 p3 p4 p5 p6 p7 : Payload) (s : State) : Host.Outcome State Fault Refusal :=
  .next (readCodeword [p0, p1, p2, p3, p4, p5, p6, p7] s)

/-- VLE9 (R92, R124). -/
def execVle9 (p0 p1 p2 p3 p4 p5 p6 p7 p8 : Payload) (s : State) :
    Host.Outcome State Fault Refusal :=
  .next (readCodeword [p0, p1, p2, p3, p4, p5, p6, p7, p8] s)

/-- VLE10 (R92, R124). -/
def execVle10 (p0 p1 p2 p3 p4 p5 p6 p7 p8 p9 : Payload) (s : State) :
    Host.Outcome State Fault Refusal :=
  .next (readCodeword [p0, p1, p2, p3, p4, p5, p6, p7, p8, p9] s)

/-- VLE11 (R92, R124). -/
def execVle11 (p0 p1 p2 p3 p4 p5 p6 p7 p8 p9 p10 : Payload) (s : State) :
    Host.Outcome State Fault Refusal :=
  .next (readCodeword [p0, p1, p2, p3, p4, p5, p6, p7, p8, p9, p10] s)

end Sys2Proof.Machine
end

