-- ==== Sys2Proof/Machine/Dispatch.lean ====
section
/-! DEFINITION. One arm per instruction. -/

namespace Sys2Proof.Machine

def exec (i : Instr) (s : State) : Host.Outcome State Fault Refusal :=
  match i with
  | .vle1 a => Sys2Proof.Machine.execVle1 a s
  | .vle2 a b => Sys2Proof.Machine.execVle2 a b s
  | .vle3 a b c => Sys2Proof.Machine.execVle3 a b c s
  | .vle4 a b c d => Sys2Proof.Machine.execVle4 a b c d s
  | .vle5 a b c d e => Sys2Proof.Machine.execVle5 a b c d e s
  | .vle6 a b c d e f => Sys2Proof.Machine.execVle6 a b c d e f s
  | .vle7 a b c d e f g => Sys2Proof.Machine.execVle7 a b c d e f g s
  | .vle8 a b c d e f g h => Sys2Proof.Machine.execVle8 a b c d e f g h s
  | .vle9 a b c d e f g h j => Sys2Proof.Machine.execVle9 a b c d e f g h j s
  | .vle10 a b c d e f g h j k => Sys2Proof.Machine.execVle10 a b c d e f g h j k s
  | .vle11 a b c d e f g h j k l => Sys2Proof.Machine.execVle11 a b c d e f g h j k l s
  | .z cw => Sys2Proof.Machine.execZ cw s
  | .n cw => Sys2Proof.Machine.execN cw s
  | .d cw => Sys2Proof.Machine.execD cw s
  | .pad => Sys2Proof.Machine.execPad s
  | .encStart => Sys2Proof.Machine.execEncStart s
  | .encSrst => Sys2Proof.Machine.execEncSrst s
  | .decStart => Sys2Proof.Machine.execDecStart s
  | .decSrst => Sys2Proof.Machine.execDecSrst s

end Sys2Proof.Machine
end

