-- ==== Sys2Proof/Machine/Encoder.lean ====
section
/-! DEFINITION. The phase steps of ENC (spec/42_compress.md R158 to R163). -/

namespace Sys2Proof.Machine

/-- The length of the run, from index `pos`, of samples that are zero (`zero = true`) or non-zero,
looking at no more than `n` samples (R160, R161). -/
def runLength (mem : Nat → Sample) (zero : Bool) : Nat → Nat → Nat
  | _, 0 => 0
  | pos, n + 1 =>
    if decide (mem pos = 0) = zero then runLength mem zero (pos + 1) n + 1 else 0

/-- The run that starts at `enc.pos` (R160, R161). -/
def State.encRun (s : State) (zero : Bool) : Nat :=
  runLength s.readEncIn zero s.enc.pos.toNat (s.enc.numPixels.toNat - s.enc.pos.toNat)

/-- The PAIR step of ENC (R159). -/
def encPair (s : State) : Ended :=
  .ok { s with enc := { s.enc with
    phase := if s.enc.pos = s.enc.numPixels then .flush else .zrun } }

/-- The ZRUN step of ENC (R160). -/
def encZRun (s : State) : Ended :=
  let z := s.encRun true
  andThen (encVle z s) (fun s' => .ok { s' with enc := { s'.enc with
    pos := s'.enc.pos + BitVec.ofNat Config.countW z, phase := .nrun } })

/-- The NRUN step of ENC (R161): the samples are looked at ahead and read again by DELTA. -/
def encNRun (s : State) : Ended :=
  let n := s.encRun false
  andThen (encVle n s) (fun s' => .ok { s' with enc := { s'.enc with
    run := BitVec.ofNat Config.countW n, phase := if n = 0 then .pair else .delta } })

/-- The DELTA step of ENC (R162), with DELTA(v) setting `enc.prev` before ENCVLE (R140). -/
def encDelta (s : State) : Ended :=
  let v := s.readEncIn s.enc.pos.toNat
  let d := sampleDelta v s.enc.prev
  andThen (encVle (zzEnc d) { s with enc := { s.enc with prev := v } })
    (fun s' => .ok { s' with enc := { s'.enc with
      pos := s'.enc.pos + 1, run := s'.enc.run - 1,
      phase := if s'.enc.run - 1 = 0 then .pair else .delta } })

/-- The FLUSH step of ENC (R163): the end of a successful operation. -/
def encEnd (s : State) : Ended :=
  andThen (encFlush s) (fun s' => .ok { s' with enc := { s'.enc with
    phase := .idle, status := s'.enc.status.finished } })

/-- The step of each phase; IDLE has none (R158). -/
def encPhaseStep (s : State) : Ended :=
  match s.enc.phase with
  | .idle => .ok s
  | .pair => encPair s
  | .zrun => encZRun s
  | .nrun => encNRun s
  | .delta => encDelta s
  | .flush => encEnd s

/-- One step of ENC: only while BUSY (R20); a raised fault is taken (R226). -/
def encStep (s : State) : State :=
  if s.enc.status.busy then settle .enc (encPhaseStep s) else s

end Sys2Proof.Machine
end

