-- ==== Sys2Proof/Machine/Fetch.lean ====
section
/-! DEFINITION. What a unit or the host has next to run: the decoder unit reads its stream symbol by
symbol (spec/30_encoding.md, spec/43_decompress.md R183), the host writes commands (R107). -/

namespace Sys2Proof.Machine

/-- What is next for DEC. -/
inductive Fetched where
  /-- An instruction of the table. -/
  | instr (i : Instr)
  /-- A codeword of twelve or more nibbles, which no table row stands for (R94; log entry 16). -/
  | longCodeword (cw : Codeword)
  /-- A codeword is needed and the stream ends before its last nibble (R222). -/
  | cutShort
  /-- The PAIR step, which reads nothing (R184). -/
  | pairTest
  /-- Nothing to do. -/
  | nothing
deriving DecidableEq, Repr

/-- The role of the codeword that DEC's phase asks for (R101). -/
def phaseRole : DecPhase → Option Role
  | .zrun => some .z
  | .nrun => some .n
  | .delta => some .d
  | .idle => none
  | .pair => none

/-- All nibbles of DEC's stream from its cursor on. -/
def State.stream (s : State) : List Nibble :=
  nibblesAhead Config.nibbleFill s.readDecIn (nibblesLeft s.dec) s.dec

/-- What the decoder reads at the cursor. -/
def fetchAt (pos : Position) (s : State) : Fetched :=
  match decodeNibbles pos s.stream with
  | .ok (i, _) => .instr i
  | .error _ =>
    match splitCodeword s.stream with
    | some (cw, _) => .longCodeword cw
    | none => .cutShort

/-- What DEC's next phase step runs (R183). An idle unit has no step: what is left of its stream is
padding (R188). A codeword already read by a codeword turn is not read again (log entry 4). -/
def fetchDec (s : State) : Fetched :=
  if s.dec.status.busy then
    match phaseRole s.dec.phase with
    | some r =>
      match s.dec.held with
      | some cw => .instr (symbolInstr r cw)
      | none => fetchAt (.symbol r) s
    | none => if s.dec.phase = .pair then .pairTest else .nothing
  else .instr .pad

/-- What DEC's next codeword turn runs: the DECVLE of the phase step, once (log entry 4). -/
def fetchDecCodeword (s : State) : Fetched :=
  if s.dec.status.busy && (phaseRole s.dec.phase).isSome && s.dec.held.isNone then
    fetchAt .codeword s
  else .nothing

/-- DECVLE on a codeword cut short by the end of the stream: every nibble there is is consumed, the
next one raises EXHAUSTED (R123, R124, R222). -/
def runCutShort (s : State) : State :=
  settle .dec (decVle (s.stream.map nibblePayload ++ [0]) s)

/-- The command in a control write, if the register is a control register (R202). -/
def fetchCommand (i : RegNo) (v : Word) : Option Instr :=
  if i = 0 then (decodeCtrl .enc v).toOption
  else if i = 8 then (decodeCtrl .dec v).toOption
  else none

end Sys2Proof.Machine
end

