-- ==== Sys2Proof/Machine/Turns.lean ====
section
/-! DEFINITION. One turn of one agent (spec/10_state.md R20, spec/20_memory.md R75,
spec/44_host_commands.md R200), and where `withFetchWord` puts a word. -/

namespace Sys2Proof.Machine

/-- Run what was fetched for DEC. -/
def runFetched (f : Fetched) (s : State) : Host.Outcome State Fault Refusal :=
  match f with
  | .instr i => exec i s
  | .longCodeword cw => .next (readCodeword cw s)
  | .cutShort => .next (runCutShort s)
  | .pairTest => .next (decPair s)
  | .nothing => .next s

/-- One host step (R200). -/
def runHost (a : HostAction) (s : State) : Host.Outcome State Fault Refusal :=
  match a with
  | .regRead i => .next (regRead i s)
  | .regWrite i v =>
    match fetchCommand i v with
    | some c => exec c s
    | none => .next (configWrite i v s)
  | .sampleRead b i => sampleRead b i s
  | .sampleWrite b i v => sampleWrite b i v s
  | .wordRead b i => wordRead b i s
  | .wordWrite b i v => wordWrite b i v s

/-- The first `k` buffer writes of a unit's next phase step, and nothing else of that step: what an
operation abandoned there leaves in its output buffer (R205, R252, U12; log entry 5). -/
def partialWrites (u : UnitId) (k : Nat) (s : State) : State :=
  match u with
  | .enc =>
    let t := encStep s
    let n := t.enc.wr.toNat - s.enc.wr.toNat
    { s with encOut := bufCopy t.encOut s.encOut s.enc.wr.toNat (min k n) }
  | .dec =>
    match runFetched (fetchDec s) s with
    | .next t =>
      let n := t.dec.cnt.toNat - s.dec.cnt.toNat
      { s with decOut := bufCopy t.decOut s.decOut s.dec.cnt.toNat (min k n) }
    | _ => s

/-- One turn. -/
def runTurn (t : Turn) (s : State) : Host.Outcome State Fault Refusal :=
  match t with
  | .enc => .next (encStep s)
  | .dec => runFetched (fetchDec s) s
  | .decCodeword => runFetched (fetchDecCodeword s) s
  | .partialWrites u k => .next (partialWrites u k s)
  | .host a => runHost a s
  | .hardReset kept => .next (s.hardReset kept)

/-- DEC busy at the start of the two words `w0`, `w1`, in the phase that asks for a codeword (ZRUN),
and the turn that reads it. -/
def State.placeStream (s : State) (w0 w1 : Word) (t : Turn) : State :=
  { s with
    decIn := bufWrite (bufWrite s.decIn 0 w0) 1 w1
    dec := { s.dec with phase := .zrun, nib := 0, rd := 0, inWords := 2, held := none,
                        status := Status.started }
    turns := t :: s.turns }

/-- The host's write of `w` to register `i` as the next turn. -/
def State.placeWrite (s : State) (i : RegNo) (w : Word) : State :=
  { s with turns := .host (.regWrite i w) :: s.turns }

/-- Put a table word where the next step takes it, at the position `tablePosition` reads it at (log
entries 3 and 12). -/
def State.placeTableWord (s : State) (nbits w : Nat) : State :=
  match tablePosition nbits w with
  | .ctrl .enc => s.placeWrite 0 (BitVec.ofNat 32 w)
  | .ctrl .dec => s.placeWrite 8 (BitVec.ofNat 32 w)
  | .codeword => s.placeStream (BitVec.ofNat 32 w) (BitVec.ofNat 32 (w >>> 32)) .decCodeword
  | .symbol _ => s.placeStream (BitVec.ofNat 32 w) (BitVec.ofNat 32 (w >>> 32)) .dec
  | .padding => s.placeStream (BitVec.ofNat 32 w) (BitVec.ofNat 32 (w >>> 32)) .dec

end Sys2Proof.Machine
end

