-- ==== Sys2Proof/Machine/Step.lean ====
section
/-! DEFINITION. One step of the machine: the next turn (spec/20_memory.md R75, log entry 3). -/

namespace Sys2Proof.Machine

/-- One step: the agent whose turn is first moves. With no turn left nobody moves and nothing changes. -/
def step (s : State) : Host.Outcome State Fault Refusal :=
  match s.turns with
  | [] => .next s
  | t :: rest => runTurn t { s with turns := rest }

/-- `s` with the table word `w` stored where the next step takes it. -/
def State.withFetchWord (s : State) (nbits w : Nat) : State := s.placeTableWord nbits w

end Sys2Proof.Machine
end

