-- ==== Sys2Proof/Machine/Function.lean ====
section
/-! DEFINITION. The two functions that are normative for the results: RvlCompress
(spec/42_compress.md R156) and RvlDecompress (spec/43_decompress.md R181). -/

namespace Sys2Proof.Machine

/-! ### RvlCompress -/

/-- Stage 1 (R156): cut the samples into pairs of a zero-run's length and a non-zero-run's samples.
`fuel` is at least the number of samples. -/
def pairsFuel : Nat → List Sample → List (Nat × List Sample)
  | 0, _ => []
  | _ + 1, [] => []
  | fuel + 1, v :: xs =>
    let zs := (v :: xs).takeWhile (fun y => decide (y = 0))
    let rest := (v :: xs).dropWhile (fun y => decide (y = 0))
    let vs := rest.takeWhile (fun y => decide (y ≠ 0))
    (zs.length, vs) :: pairsFuel fuel (rest.dropWhile (fun y => decide (y ≠ 0)))

/-- `Pairs(x)` (R156 stage 1). -/
def pairsOf (x : List Sample) : List (Nat × List Sample) := pairsFuel x.length x

/-- A symbol with its value (R100, R109). -/
inductive Symbol where
  | z (len : Nat)
  | n (len : Nat)
  | d (delta : Int)
deriving DecidableEq, Repr

/-- The delta symbols of a non-zero-run, from the predictor `prev` (R156 stage 2). -/
def deltaSymbols : Sample → List Sample → List Symbol
  | _, [] => []
  | prev, v :: vs => .d (sampleDelta v prev) :: deltaSymbols v vs

/-- The symbols of a list of pairs, from the predictor `prev` (R156 stage 2). -/
def symbolsOfPairs : Sample → List (Nat × List Sample) → List Symbol
  | _, [] => []
  | prev, (z, vs) :: ps =>
    .z z :: .n vs.length :: (deltaSymbols prev vs ++ symbolsOfPairs (vs.getLastD prev) ps)

/-- `Symbols(x)` (R156 stage 2): `previous` is 0 at the start. -/
def symbolsOf (x : List Sample) : List Symbol := symbolsOfPairs 0 (pairsOf x)

/-- The codeword's nibbles of a symbol (R156 stage 3). -/
def symbolNibbles : Symbol → List Nibble
  | .z len => vleNibbles len
  | .n len => vleNibbles len
  | .d delta => vleNibbles (zzEnc delta)

/-- `Nibbles(x)` (R156 stage 3). -/
def nibblesOf (x : List Sample) : List Nibble := (symbolsOf x).flatMap symbolNibbles

/-- The word value of up to eight nibbles, the first in slot 0 (R156 stage 4). -/
def packValue : List Nibble → Nat
  | [] => 0
  | b :: bs => b.toNat + 16 * packValue bs

/-- Eight nibbles to a word, the last word padded with 0 (R95, R98). `fuel` is at least the number of
nibbles. -/
def packFuel : Nat → List Nibble → List Word
  | 0, _ => []
  | _ + 1, [] => []
  | fuel + 1, b :: bs =>
    BitVec.ofNat 32 (packValue ((b :: bs).take 8)) :: packFuel fuel ((b :: bs).drop 8)

/-- Pack a nibble sequence (R95, R98). -/
def packNibbles (b : List Nibble) : List Word := packFuel b.length b

/-- `RvlCompress(x)` (R156). -/
def rvlCompress (x : List Sample) : List Word := packNibbles (nibblesOf x)

/-! ### RvlDecompress -/

/-- The nibbles of a word sequence in stream order (R95). -/
def wordsNibbles (ws : List Word) : List Nibble := ws.flatMap (wordNibbles .lowFirst)

/-- The outcome of RvlDecompress (R181). A fault also says the samples written and the words used at
the moment of the fault (R189). -/
inductive Decompressed where
  | ok (out : List Sample) (used : Nat)
  | fault (c : FaultCode) (out : List Sample) (used : Nat)
deriving DecidableEq, Repr

/-- `vle()` (R181): the value of the next codeword and the nibbles after it; `none` is EXHAUSTED. -/
def nextValue (b : List Nibble) : Option (Nat × List Nibble) :=
  match splitCodeword b with
  | none => none
  | some (cw, rest) => some (codewordValue cw, rest)

/-- How the deltas of one run end. -/
inductive DeltaRun where
  | ok (prev : Sample) (out : List Sample) (b : List Nibble)
  | fault (c : FaultCode) (out : List Sample) (b : List Nibble)
deriving DecidableEq, Repr

/-- `repeat n times` of R181: `n` deltas from the nibbles `b`, appended to `out`. -/
def decodeDeltas : Nat → Sample → List Sample → List Nibble → DeltaRun
  | 0, prev, out, b => .ok prev out b
  | n + 1, prev, out, b =>
    match nextValue b with
    | none => .fault .exhausted out []
    | some (u, b') =>
      match accum prev (zzDec u) with
      | none => .fault .range out b'
      | some v => decodeDeltas n v (out ++ [v]) b'

/-- Words used when `left` of the `8·m` nibbles are not consumed: `ceil(t / 8)` (R181). -/
def wordsUsed (m left : Nat) : Nat := (8 * m - left + 7) / 8

/-- The `while` of R181 over pairs. `fuel` is more than the number of nibbles; every pair takes at
least two. -/
def decodePairs (m numPixels : Nat) : Nat → Sample → List Sample → List Nibble → Decompressed
  | 0, _, out, b => .fault .exhausted out (wordsUsed m b.length)
  | fuel + 1, prev, out, b =>
    if numPixels ≤ out.length then .ok out (wordsUsed m b.length)
    else
      match nextValue b with
      | none => .fault .exhausted out m
      | some (z, b1) =>
        if numPixels - out.length < z then .fault .overrun out (wordsUsed m b1.length)
        else
          let out1 := out ++ List.replicate z 0
          match nextValue b1 with
          | none => .fault .exhausted out1 m
          | some (n, b2) =>
            if numPixels - out1.length < n then .fault .overrun out1 (wordsUsed m b2.length)
            else
              match decodeDeltas n prev out1 b2 with
              | .fault c out2 b3 => .fault c out2 (wordsUsed m b3.length)
              | .ok prev' out2 b3 => decodePairs m numPixels fuel prev' out2 b3

/-- `RvlDecompress(w, N)` (R181). -/
def rvlDecompress (w : List Word) (numPixels : Nat) : Decompressed :=
  decodePairs w.length numPixels (8 * w.length + 1) 0 [] (wordsNibbles w)

end Sys2Proof.Machine
end

