-- ==== Sys2Proof/Safety.lean ====
section
/-! DEFINITION. What the statements speak of: the invariants of the units (spec/10_state.md R22, R37,
R38, R42), the operand of a symbol step, and what a buffer holds as a sequence. -/

namespace Sys2Proof.Machine

/-! ### Invariants -/

/-- A status register's legal contents, `codes` being the fault codes of its unit (R42, R47, U33). -/
def statusOk (codes : List (BitVec 4)) (st : Status) : Prop :=
  ¬ (st.busy = true ∧ st.done = true) ∧
  (st.err = true → st.done = true ∧ st.code ≠ 0) ∧
  (st.err = false → st.code = 0) ∧
  st.code ∈ codes

/-- The last non-zero sample of a sequence, 0 if there is none (R37 item 5). -/
def lastNonZero (x : List Sample) : Sample := (x.filter (fun v => decide (v ≠ 0))).getLastD 0

/-- `ENC_IN[0 .. n)`. -/
def State.encSamples (s : State) (n : Nat) : List Sample := (List.range n).map s.readEncIn

/-- `DEC_IN[0 .. n)`. -/
def State.decWords (s : State) (n : Nat) : List Word := (List.range n).map s.readDecIn

/-- ENC between two steps: BUSY exactly outside IDLE (R22), a legal status (R42), and while an
operation runs the registers in range, the free nibble slots 0 and the predictor the last non-zero
sample consumed (R37 items 1, 2, 3, 5). -/
structure EncOk (s : State) : Prop where
  busy_iff : s.enc.status.busy = true ↔ s.enc.phase ≠ .idle
  status : statusOk [0, 4] s.enc.status
  pos_le : s.enc.status.busy = true → s.enc.pos.toNat ≤ s.enc.numPixels.toNat
  wr_le : s.enc.status.busy = true → s.enc.wr.toNat ≤ s.enc.outCap.toNat
  free_slots : s.enc.status.busy = true → s.enc.word.toNat < 16 ^ s.enc.nib.toNat
  predictor : s.enc.status.busy = true →
    s.enc.prev = lastNonZero (s.encSamples s.enc.pos.toNat)
  zrun_room : s.enc.phase = .zrun → s.enc.pos.toNat < s.enc.numPixels.toNat
  run_pos : s.enc.phase = .delta → 0 < s.enc.run.toNat
  run_room : s.enc.phase = .delta →
    s.enc.pos.toNat + s.enc.run.toNat ≤ s.enc.numPixels.toNat
  run_nonzero : s.enc.phase = .delta →
    ∀ j, j < s.enc.run.toNat → s.readEncIn (s.enc.pos.toNat + j) ≠ 0
  flush_end : s.enc.phase = .flush → s.enc.pos = s.enc.numPixels

/-- DEC between two steps: BUSY exactly outside IDLE (R29), a legal status (R47), and while an
operation runs the registers in range and the consumed slots shifted out (R38 items 1, 2, 3). A
codeword is held only where a symbol step is to come (log entry 4). -/
structure DecOk (s : State) : Prop where
  busy_iff : s.dec.status.busy = true ↔ s.dec.phase ≠ .idle
  status : statusOk [0, 1, 2, 3] s.dec.status
  cnt_le : s.dec.status.busy = true → s.dec.cnt.toNat ≤ s.dec.numPixels.toNat
  rd_le : s.dec.status.busy = true → s.dec.rd.toNat ≤ s.dec.inWords.toNat
  nib_le : s.dec.status.busy = true → s.dec.nib.toNat ≤ 8
  fetched : s.dec.status.busy = true → 0 < s.dec.nib.toNat → 0 < s.dec.rd.toNat
  shifted_out : s.dec.status.busy = true → s.dec.word.toNat < 16 ^ s.dec.nib.toNat
  zrun_room : s.dec.phase = .zrun → s.dec.cnt.toNat < s.dec.numPixels.toNat
  run_pos : s.dec.phase = .delta → 0 < s.dec.run.toNat
  run_room : s.dec.phase = .delta →
    s.dec.cnt.toNat + s.dec.run.toNat ≤ s.dec.numPixels.toNat
  held_phase : s.dec.held ≠ none → phaseRole s.dec.phase ≠ none

/-- Every index a buffer lists is one of its `2^COUNT_W` elements (R60). -/
def bufInRange {w : Nat} (b : Buf w) : Prop := ∀ c ∈ b, c.1 < 2 ^ Config.countW

/-- The four buffers in their form, with indices in range. -/
structure BuffersOk (s : State) : Prop where
  wf : s.buffersWf = true
  encIn : bufInRange s.encIn
  encOut : bufInRange s.encOut
  decIn : bufInRange s.decIn
  decOut : bufInRange s.decOut

/-- A good state. -/
structure Safe (s : State) : Prop where
  enc : EncOk s
  dec : DecOk s
  buffers : BuffersOk s

/-! ### The operand of a symbol step -/

/-- How many nibbles the symbol step takes off the stream: its codeword's, or none when a codeword
turn has taken them already. -/
def operandNibbles (cw : Codeword) (s : State) : Nat :=
  match s.dec.held with
  | none => cw.length
  | some _ => 0

/-- The nibbles of the operand are there. -/
def operandReady (cw : Codeword) (s : State) : Prop := operandNibbles cw s ≤ nibblesLeft s.dec

/-- The value of the operand: its codeword's, or what a codeword turn left in the pair of `dec.acc`
and `dec.ovf`, an overflow counting as one more `2^32` (R125). -/
def operandValue (cw : Codeword) (s : State) : Nat :=
  match s.dec.held with
  | none => codewordValue cw
  | some _ => s.dec.acc.toNat + (if s.dec.ovf then 2 ^ 32 else 0)

/-- From `s` to `t` only DEC's stream cursor, scratch and `held` may have changed, and `k` nibbles are
consumed. -/
def CursorMoved (k : Nat) (s t : State) : Prop :=
  nibblesLeft t.dec + k = nibblesLeft s.dec ∧ t.stream = s.stream.drop k ∧
  t.dec.numPixels = s.dec.numPixels ∧ t.dec.inWords = s.dec.inWords

/-- What DECVLE on the codeword `cw` leaves (R124, R125): its value in the scratch pair, its nibbles
consumed, the codeword held for the symbol step, everything else as it was. -/
def CodewordRead (cw : Codeword) (s t : State) : Prop :=
  t.dec.acc.toNat = codewordValue cw % 2 ^ 32 ∧
  (t.dec.ovf = true ↔ 2 ^ 32 ≤ codewordValue cw) ∧
  t.dec.held = some cw ∧
  CursorMoved cw.length s t ∧
  t = { s with dec := { s.dec with
    word := t.dec.word, nib := t.dec.nib, rd := t.dec.rd,
    acc := t.dec.acc, ovf := t.dec.ovf, sh := t.dec.sh, held := t.dec.held } }

/-- The row `i` runs, where its nibbles are there, and reads the codeword `cw`. -/
def ReadsCodeword (i : Instr) (cw : Codeword) : Prop :=
  ∀ s : State, cw.length ≤ nibblesLeft s.dec →
    ∃ t, exec i s = .next t ∧ CodewordRead cw s t

/-- What EXHAUSTED leaves (R222, R226): every nibble consumed, the unit idle with DONE, ERR and CODE 1,
everything but the cursor, the scratch and the status as it was. -/
def Exhausted (s t : State) : Prop :=
  t.dec.nib = 0 ∧ t.dec.rd = t.dec.inWords ∧
  t = { s with dec := { s.dec with
    word := t.dec.word, nib := t.dec.nib, rd := t.dec.rd,
    acc := t.dec.acc, ovf := t.dec.ovf, sh := t.dec.sh,
    phase := .idle, status := Status.faulted .exhausted } }

/-- What OVERRUN and RANGE leave (R194, R226): the operand's nibbles consumed, the unit idle with DONE,
ERR and CODE, everything but the cursor, the scratch, `held` and the status as it was. -/
def FaultedAfterOperand (c : FaultCode) (cw : Codeword) (s t : State) : Prop :=
  CursorMoved (operandNibbles cw s) s t ∧
  t = { s with dec := { s.dec with
    word := t.dec.word, nib := t.dec.nib, rd := t.dec.rd,
    acc := t.dec.acc, ovf := t.dec.ovf, sh := t.dec.sh, held := none,
    phase := .idle, status := Status.faulted c } }

/-! ### Runs -/

/-- `t` is what `k` steps reach from `s`. -/
def Reaches (k : Nat) (s t : State) : Prop := Host.Core.run Sys2Proof.core k s = .next t

/-- Only steps of the two units, in any order (R75). -/
def OnlyUnits (ts : List Turn) : Prop := ∀ u ∈ ts, u = .enc ∨ u = .dec ∨ u = .decCodeword

/-- How many ENC steps an operation on `n` samples takes at most (R172). -/
def encStepBound (n : Nat) : Nat := n + 3 * ((n + 2) / 2) + 2

/-- How many DEC steps an operation on `m` words takes at most (R195). -/
def decStepBound (m : Nat) : Nat := 16 * m + 2

/-- The turn that is one phase step of a unit. -/
def unitTurn : UnitId → Turn
  | .enc => .enc
  | .dec => .dec

/-- `n` is the number of samples that some whole number of leading pairs of `x` describes (R193). -/
def OnPairBoundary (x : List Sample) (n : Nat) : Prop :=
  ∃ j, (((pairsOf x).take j).map (fun p => p.1 + p.2.length)).sum = n

/-- The host accesses that have no specified outcome (R262): a write to a busy unit's input buffer, a
read or a write of its output buffer. -/
def Hazard (a : HostAction) (s : State) : Prop :=
  (∃ i v, a = .sampleWrite .encIn i v ∧ s.enc.status.busy = true) ∨
  (∃ i v, a = .wordWrite .decIn i v ∧ s.dec.status.busy = true) ∨
  (∃ i, a = .wordRead .encOut i ∧ s.enc.status.busy = true) ∨
  (∃ i, a = .sampleRead .decOut i ∧ s.dec.status.busy = true) ∨
  (∃ i v, a = .wordWrite .encOut i v ∧ s.enc.status.busy = true) ∨
  (∃ i v, a = .sampleWrite .decOut i v ∧ s.dec.status.busy = true)

/-- `s` with these turns to come. -/
def State.withTurns (s : State) (ts : List Turn) : State := { s with turns := ts }

end Sys2Proof.Machine
end

