-- ==== Sys2Proof/Certificates/Slice0/Obligations.lean ====
section
/-! DEFINITION. The statements for the provers: the numbered rules of spec/ about the encoding, the
codewords and symbols, the commands, the registers, the micro-operations, the two units and the two
functions. -/

open Sys2Proof Sys2Proof.Machine

/-! ### The encoding -/

/-- Decode and encode agree on every well-formed instruction, every operand at every value (R90: each
layer is the exact inverse between encoder and decoder). -/
def Obligations.DecodeUndoesEncode : Prop :=
  ∀ i : Instr, WellFormed i = true → decode (instrPosition i) (encode i) = .ok i

/-- R92: the nibbles of the codeword of `x`, one by one. -/
def Obligations.CodewordNibblesOfValue : Prop :=
  ∀ x i : Nat, (vleNibbles x).length = codewordLength x ∧
    (i < codewordLength x → (vleNibbles x)[i]? =
      some (BitVec.ofNat 4 (((x >>> (3 * i)) &&& 7) ||| (if i + 1 < codewordLength x then 8 else 0))))

/-- R93: the length of a codeword, its range of values, and its non-zero last payload. -/
def Obligations.CodewordLengthRanges : Prop :=
  ∀ x : Nat,
    (x = 0 → codewordLength x = 1) ∧
    (1 ≤ x → codewordLength x = (bitlen x + 2) / 3 ∧ 2 ^ (bitlen x - 1) ≤ x ∧ x < 2 ^ bitlen x) ∧
    (x < 8 → codewordLength x = 1) ∧
    (∀ k, 2 ≤ k → (codewordLength x = k ↔ 8 ^ (k - 1) ≤ x ∧ x < 8 ^ k)) ∧
    (2 ≤ codewordLength x → ∃ p, (codewordOf x).getLast? = some p ∧ p ≠ 0)

/-- R127: ENCVLE appends exactly `L(x)` nibbles, and how large `L(x)` can be. The nibble count of the
output is `8·enc.wr + enc.nib` (R27). -/
def Obligations.EncvleNibbleCount : Prop :=
  ∀ x : Nat,
    (vleNibbles x).length = codewordLength x ∧
    (x = 0 → codewordLength x = 1) ∧
    (1 ≤ x → codewordLength x = (bitlen x + 2) / 3) ∧
    (x < 2 ^ 32 → codewordLength x ≤ 11) ∧
    (1 ≤ x → codewordLength x ≤ x) ∧
    ∀ s t : State, s.enc.wr.toNat ≤ s.enc.outCap.toNat → encVle x s = .ok t →
      8 * t.enc.wr.toNat + t.enc.nib.toNat =
        8 * s.enc.wr.toNat + s.enc.nib.toNat + codewordLength x

/-- R126: where the nibbles of ENCVLE(x) are the next ones at DEC's cursor, the decoder finds exactly
that codeword there, DECVLE gives `x` (in the pair of `dec.acc` and `dec.ovf`) and consumes exactly
those nibbles. -/
def Obligations.DecvleInvertsEncvle : Prop :=
  ∀ (x : Nat) (s : State) (rest : List Nibble), s.stream = vleNibbles x ++ rest →
    splitCodeword s.stream = some (codewordOf x, rest) ∧
    ∃ t, decVle (codewordOf x) s = .ok t ∧ t.stream = rest ∧
      t.dec.acc.toNat = x % 2 ^ 32 ∧ (t.dec.ovf = true ↔ 2 ^ 32 ≤ x)

/-- R107, R108: SRST is bit 1 and wins, START is bit 0 with bit 1 clear, neither is no command, and
bits 31:2 are ignored; each command is what a host write to register 0 or 8 runs. -/
def Obligations.ControlWordsSelectCommands : Prop :=
  ∀ (v w : Word) (s : State),
    (v &&& 3 = 1 → runHost (.regWrite 0 v) s = exec .encStart s ∧
      runHost (.regWrite 8 v) s = exec .decStart s) ∧
    (v &&& 2 = 2 → runHost (.regWrite 0 v) s = exec .encSrst s ∧
      runHost (.regWrite 8 v) s = exec .decSrst s) ∧
    (v &&& 3 = 0 → runHost (.regWrite 0 v) s = .next s ∧ runHost (.regWrite 8 v) s = .next s) ∧
    (v &&& 3 = w &&& 3 → runHost (.regWrite 0 v) s = runHost (.regWrite 0 w) s ∧
      runHost (.regWrite 8 v) s = runHost (.regWrite 8 w) s)

/-- Words written out from the spec's encodings decode to what they stand for: R92's `0xC 0x8 0xF 0x3`
(value 1988), the symbols `Z3 N4` of scenario S1 (vector V30, section 3 of 95_test_vectors.md), a
padding nibble (R98), and command words of R107; the two nibbles of a byte stand as R67 has them, and
which symbol a codeword is follows from its place (R100). That the bytes of the two command words stand
low byte first is the model's choice: R107 and R40 give the 32-bit value alone (log entry 23). -/
def Obligations.SpecWordsDecode : Prop :=
  decode .codeword [0x8C, 0x3F] = .ok (.vle4 4 0 7 3) ∧
  decode (.symbol .d) [0x8C, 0x3F] = .ok (.d [4, 0, 7, 3]) ∧
  decode (.symbol .z) [0x43] = .ok (.z [3]) ∧
  decode (.symbol .n) [0x04] = .ok (.n [4]) ∧
  decode .padding [0x00] = .ok .pad ∧
  decode (.ctrl .enc) [0x01, 0x00, 0x00, 0x00] = .ok .encStart ∧
  decode (.ctrl .dec) [0x03, 0x00, 0x00, 0x80] = .ok .decSrst

/-- R66, R67: the byte view of a word sequence, where a nibble of the stream lies in it, and that an
operation's whole stream is the payload of its input words, in that order. -/
def Obligations.StreamIsPayload : Prop :=
  (∀ (ws : List Word) (b : Nat), (payloadBytes ws)[b]? =
    ws[b / 4]?.map (fun w => BitVec.ofNat 8 (w.toNat / 2 ^ (8 * (b % 4))))) ∧
  (∀ (ws : List Word) (t : Nat), (wordsNibbles ws)[t]? =
    (payloadBytes ws)[t / 2]?.map (fun b => BitVec.ofNat 4 (b.toNat / 2 ^ (4 * (t % 2))))) ∧
  (∀ s : State, s.dec.nib = 0 → s.dec.rd = 0 →
    s.stream = bytesNibbles (payloadBytes (s.decWords s.dec.inWords.toNat)) ∧
    s.stream = wordsNibbles (s.decWords s.dec.inWords.toNat))

/-! ### A step runs what is decoded -/

/-- A step runs the decoded instruction: the symbol or codeword at DEC's cursor when DEC moves, the
symbol whose codeword is held, the command when the host writes it, padding when an idle DEC is asked.
The step takes the turn off the list before. A command's value is given to `decode` as four bytes, low
byte first (the model's choice, log entry 23). -/
def Obligations.StepRunsDecodedInstruction : Prop :=
  ∀ (s : State) (rest : List Turn) (i : Instr) (left : List Nibble) (r : Role) (cw : Codeword)
    (v : Word),
    let s' := s.withTurns rest
    (s.dec.status.busy = true → phaseRole s.dec.phase = some r → s.dec.held = none →
      decodeNibbles (.symbol r) s.stream = .ok (i, left) →
      step (s.withTurns (.dec :: rest)) = exec i s') ∧
    (s.dec.status.busy = true → phaseRole s.dec.phase = some r → s.dec.held = some cw →
      step (s.withTurns (.dec :: rest)) = exec (symbolInstr r cw) s') ∧
    (s.dec.status.busy = true → phaseRole s.dec.phase = some r → s.dec.held = none →
      decodeNibbles .codeword s.stream = .ok (i, left) →
      step (s.withTurns (.decCodeword :: rest)) = exec i s') ∧
    (s.dec.status.busy = false → step (s.withTurns (.dec :: rest)) = exec .pad s') ∧
    (decode (.ctrl .enc) (wordBytes v) = .ok i →
      step (s.withTurns (.host (.regWrite 0 v) :: rest)) = exec i s') ∧
    (decode (.ctrl .dec) (wordBytes v) = .ok i →
      step (s.withTurns (.host (.regWrite 8 v) :: rest)) = exec i s')

/-! ### Codewords -/

/-- Rows VLE1 to VLE11 (R92, R94, R124): where its nibbles are left in the stream, each runs and leaves
its value in the scratch pair, its nibbles consumed, the codeword held, and nothing else changed. -/
def Obligations.CodewordRowsReadTheirValue : Prop :=
  ∀ a b c d e f g h j k l : Payload,
    ReadsCodeword (.vle1 a) [a] ∧
    ReadsCodeword (.vle2 a b) [a, b] ∧
    ReadsCodeword (.vle3 a b c) [a, b, c] ∧
    ReadsCodeword (.vle4 a b c d) [a, b, c, d] ∧
    ReadsCodeword (.vle5 a b c d e) [a, b, c, d, e] ∧
    ReadsCodeword (.vle6 a b c d e f) [a, b, c, d, e, f] ∧
    ReadsCodeword (.vle7 a b c d e f g) [a, b, c, d, e, f, g] ∧
    ReadsCodeword (.vle8 a b c d e f g h) [a, b, c, d, e, f, g, h] ∧
    ReadsCodeword (.vle9 a b c d e f g h j) [a, b, c, d, e, f, g, h, j] ∧
    ReadsCodeword (.vle10 a b c d e f g h j k) [a, b, c, d, e, f, g, h, j, k] ∧
    ReadsCodeword (.vle11 a b c d e f g h j k l) [a, b, c, d, e, f, g, h, j, k, l]

/-- From R222, R226: EXHAUSTED at the first nibble that does not exist. A codeword row whose nibbles are
not all there faults so, whatever its value so far (R229 a), and so does a DEC step where the stream
ends before any final nibble. The symbols' own clauses are in their statements. -/
def Obligations.MissingNibbleExhausts : Prop :=
  (∀ (cw : Codeword) (i : Instr) (s : State), vleRow cw = some i →
    nibblesLeft s.dec < cw.length → ∃ t, exec i s = .next t ∧ Exhausted s t) ∧
  (∀ (s : State) (r : Role), s.dec.status.busy = true → phaseRole s.dec.phase = some r →
    s.dec.held = none → splitCodeword s.stream = none →
    ∃ t, runTurn .dec s = .next t ∧ Exhausted s t ∧ runTurn .decCodeword s = .next t)

/-- R125: the scratch registers for one nibble, and after a whole DECVLE: the pair stands for the
value, the shift count saturates at 33, and the two tests made on the value have the same outcome on
the pair. -/
def Obligations.ScratchPairStandsForValue : Prop :=
  (∀ (p : Payload) (d : DecUnit),
    (d.sh.toNat ≤ 29 → (accumulate p d).acc = d.acc ||| (p.setWidth 32 <<< d.sh.toNat) ∧
      (accumulate p d).ovf = d.ovf) ∧
    (d.sh.toNat = 30 → (accumulate p d).acc = d.acc ||| ((p &&& 3).setWidth 32 <<< 30) ∧
      ((accumulate p d).ovf = true ↔ d.ovf = true ∨ p.getLsbD 2 = true)) ∧
    (33 ≤ d.sh.toNat → (accumulate p d).acc = d.acc ∧
      ((accumulate p d).ovf = true ↔ d.ovf = true ∨ p ≠ 0)) ∧
    (accumulate p d).sh.toNat = min (d.sh.toNat + 3) 33) ∧
  (∀ (cw : Codeword) (s t : State), decVle cw s = .ok t →
    t.dec.acc.toNat = codewordValue cw % 2 ^ 32 ∧
    (t.dec.ovf = true ↔ 2 ^ 32 ≤ codewordValue cw) ∧
    t.dec.sh.toNat = min (3 * cw.length) 33 ∧
    (overRemaining t.dec = true ↔ remaining t.dec < codewordValue cw) ∧
    reconstruct t.dec = accum t.dec.prev (zzDec (codewordValue cw)))

/-! ### Symbols -/

/-- From R185. The model's choices: the codeword may be one a codeword turn has read before (`held`,
log entry 4), and `exec` runs the symbol whatever the phase and BUSY (log entry 17). A `Z` symbol
whose run fits writes that many zeros from `dec.cnt` on, moves `dec.cnt` past them and goes to NRUN;
nothing else changes, no other element of any buffer. A run of 0 writes nothing; one that completes
the output fits. A longer run raises OVERRUN with none of its zeros written, and a codeword cut short
raises EXHAUSTED. -/
def Obligations.ZSymbolWritesZeros : Prop :=
  ∀ (cw : Codeword) (s : State),
    (operandReady cw s → operandValue cw s ≤ remaining s.dec →
      ∃ t, exec (.z cw) s = .next t ∧ CursorMoved (operandNibbles cw s) s t ∧
        t = { s with
          decOut := t.decOut
          dec := { s.dec with
            word := t.dec.word, nib := t.dec.nib, rd := t.dec.rd, acc := t.dec.acc,
            ovf := t.dec.ovf, sh := t.dec.sh, held := none, phase := .nrun
            cnt := s.dec.cnt + BitVec.ofNat Config.countW (operandValue cw s) } } ∧
        ∀ i, bufRead t.decOut i =
          if s.dec.cnt.toNat ≤ i ∧ i < s.dec.cnt.toNat + operandValue cw s then some 0
          else bufRead s.decOut i) ∧
    (operandReady cw s → remaining s.dec < operandValue cw s →
      ∃ t, exec (.z cw) s = .next t ∧ FaultedAfterOperand .overrun cw s t) ∧
    (s.dec.held = none → nibblesLeft s.dec < cw.length →
      ∃ t, exec (.z cw) s = .next t ∧ Exhausted s t)

/-- From R186. The model's choices: the codeword may be one a codeword turn has read before (`held`,
log entry 4), and `exec` runs the symbol whatever the phase and BUSY (log entry 17). An `N` symbol
whose run fits loads `dec.run` and goes to DELTA, or to PAIR for a run of 0; nothing else changes, and
no element of any buffer. A longer run raises OVERRUN, and a codeword cut short raises EXHAUSTED. -/
def Obligations.NSymbolLoadsRun : Prop :=
  ∀ (cw : Codeword) (s : State),
    (operandReady cw s → operandValue cw s ≤ remaining s.dec →
      ∃ t, exec (.n cw) s = .next t ∧ CursorMoved (operandNibbles cw s) s t ∧
        t = { s with
          dec := { s.dec with
            word := t.dec.word, nib := t.dec.nib, rd := t.dec.rd, acc := t.dec.acc,
            ovf := t.dec.ovf, sh := t.dec.sh, held := none
            run := BitVec.ofNat Config.countW (operandValue cw s)
            phase := if operandValue cw s = 0 then .pair else .delta } }) ∧
    (operandReady cw s → remaining s.dec < operandValue cw s →
      ∃ t, exec (.n cw) s = .next t ∧ FaultedAfterOperand .overrun cw s t) ∧
    (s.dec.held = none → nibblesLeft s.dec < cw.length →
      ∃ t, exec (.n cw) s = .next t ∧ Exhausted s t)

/-- From R187 with R142, R143. The model's choices: the codeword may be one a codeword turn has read
before (`held`, log entry 4), and `exec` runs the symbol whatever the phase and BUSY (log entry 17). A
`D` symbol whose sample is in range writes that sample at `dec.cnt`; it becomes the predictor;
`dec.cnt` goes up, `dec.run` down, and the phase to PAIR at the end of the run; nothing else changes,
no other element of any buffer. A sample below 0 or above 65535 raises RANGE and is not written, and a
codeword cut short raises EXHAUSTED. -/
def Obligations.DSymbolWritesSample : Prop :=
  ∀ (cw : Codeword) (s : State),
    let v : Int := s.dec.prev.toNat + zzDec (operandValue cw s)
    (operandReady cw s → 0 ≤ v → v ≤ 65535 →
      ∃ t, exec (.d cw) s = .next t ∧ CursorMoved (operandNibbles cw s) s t ∧
        t = { s with
          decOut := t.decOut
          dec := { s.dec with
            word := t.dec.word, nib := t.dec.nib, rd := t.dec.rd, acc := t.dec.acc,
            ovf := t.dec.ovf, sh := t.dec.sh, held := none
            prev := BitVec.ofNat 16 v.toNat, cnt := s.dec.cnt + 1, run := s.dec.run - 1
            phase := if s.dec.run - 1 = 0 then .pair else .delta } } ∧
        ∀ i, bufRead t.decOut i =
          if i = s.dec.cnt.toNat then some (BitVec.ofNat 16 v.toNat) else bufRead s.decOut i) ∧
    (operandReady cw s → v < 0 ∨ 65535 < v →
      ∃ t, exec (.d cw) s = .next t ∧ FaultedAfterOperand .range cw s t) ∧
    (s.dec.held = none → nibblesLeft s.dec < cw.length →
      ∃ t, exec (.d cw) s = .next t ∧ Exhausted s t)

/-- R188 (that an idle DEC's turn runs PAD is the model's choice, log entry 18): padding has no effect,
and an idle DEC changes nothing whatever is left of its stream. -/
def Obligations.PaddingHasNoEffect : Prop :=
  ∀ s : State, exec .pad s = .next s ∧
    (s.dec.status.busy = false → runTurn .dec s = .next s ∧ runTurn .decCodeword s = .next s)

/-- R184: the PAIR step of DEC ends the operation exactly when `dec.cnt = N`, and else asks for a `Z`.
-/
def Obligations.PairStepTestsCompletion : Prop :=
  ∀ s : State, s.dec.status.busy = true → s.dec.phase = .pair →
    (s.dec.cnt = s.dec.numPixels → runTurn .dec s = .next { s with dec := { s.dec with
      phase := .idle, status := { s.dec.status with busy := false, done := true } } }) ∧
    (s.dec.cnt ≠ s.dec.numPixels →
      runTurn .dec s = .next { s with dec := { s.dec with phase := .zrun } })

/-! ### Commands -/

/-- R203: ENC.START on an idle unit re-initialises every working register, sets BUSY, clears the other
flags and goes to PAIR, keeping the configuration; on a busy unit it does nothing. -/
def Obligations.EncStartBegins : Prop :=
  ∀ s : State,
    (s.enc.status.busy = false → exec .encStart s = .next { s with enc :=
      { phase := .pair, pos := 0, prev := 0, word := 0, nib := 0, wr := 0, run := 0,
        status := { busy := true, done := false, err := false, code := 0 },
        numPixels := s.enc.numPixels, outCap := s.enc.outCap } }) ∧
    (s.enc.status.busy = true → exec .encStart s = .next s)

/-- From R204: DEC.START, the same for DEC; the scratch keeps its contents, and no codeword is held (the
model's own field, log entry 4). -/
def Obligations.DecStartBegins : Prop :=
  ∀ s : State,
    (s.dec.status.busy = false → exec .decStart s = .next { s with dec :=
      { phase := .pair, cnt := 0, prev := 0, word := 0, nib := 0, rd := 0, run := 0,
        acc := s.dec.acc, ovf := s.dec.ovf, sh := s.dec.sh,
        status := { busy := true, done := false, err := false, code := 0 },
        numPixels := s.dec.numPixels, inWords := s.dec.inWords, held := none } }) ∧
    (s.dec.status.busy = true → exec .decStart s = .next s)

/-- From R205, R57: SRST puts every register of its unit to its reset value at any time, and touches no
buffer and nothing of the other unit. That DEC.SRST also empties `held` is the model's choice: R57 has
no such register (log entry 4). -/
def Obligations.SoftResetClearsItsUnit : Prop :=
  ∀ s : State,
    exec .encSrst s = .next { s with enc :=
      { phase := .idle, pos := 0, prev := 0, word := 0, nib := 0, wr := 0, run := 0,
        status := { busy := false, done := false, err := false, code := 0 },
        numPixels := 0, outCap := 0 } } ∧
    exec .decSrst s = .next { s with dec :=
      { phase := .idle, cnt := 0, prev := 0, word := 0, nib := 0, rd := 0, run := 0,
        acc := 0, ovf := false, sh := 0,
        status := { busy := false, done := false, err := false, code := 0 },
        numPixels := 0, inWords := 0, held := none } }

/-- From R250, R251, R252: hardware reset puts both units to their reset values, and the machine's own
reset state has the same ones. That the turn names the buffers whose contents stay (R252), and that a
new epoch draws those of the others anew (R251), is the model's choice (log entry 1). -/
def Obligations.HardwareResetClearsBothUnits : Prop :=
  (∀ (s : State) (kept : List Space), ∃ t, runTurn (.hardReset kept) s = .next t ∧
    t.enc = State.reset.enc ∧ t.dec = State.reset.dec ∧
    (.encIn ∈ kept → ∀ i, t.readEncIn i = s.readEncIn i) ∧
    (.encOut ∈ kept → ∀ i, t.readEncOut i = s.readEncOut i) ∧
    (.decIn ∈ kept → ∀ i, t.readDecIn i = s.readDecIn i) ∧
    (.decOut ∈ kept → ∀ i, t.readDecOut i = s.readDecOut i) ∧
    (.encIn ∉ kept → t.encIn = [] ∧ t.epochs.encIn = s.epochs.encIn + 1) ∧
    (.encOut ∉ kept → t.encOut = [] ∧ t.epochs.encOut = s.epochs.encOut + 1) ∧
    (.decIn ∉ kept → t.decIn = [] ∧ t.epochs.decIn = s.epochs.decIn + 1) ∧
    (.decOut ∉ kept → t.decOut = [] ∧ t.epochs.decOut = s.epochs.decOut + 1) ∧
    t.hostData = s.hostData ∧ t.draws = s.draws ∧ t.turns = s.turns) ∧
  (∀ s : State, exec .encSrst State.reset = .next State.reset ∧
    exec .decSrst State.reset = .next State.reset ∧
    (exec .encSrst s = .next { s with enc := State.reset.enc }) ∧
    (exec .decSrst s = .next { s with dec := State.reset.dec }))

/-! ### The host -/

/-- R201: what a read of each register returns; it changes nothing of the block. A counter of a busy
unit returns some value (log entry 2). -/
def Obligations.RegisterReadsReturn : Prop :=
  ∀ s : State,
    (∀ i : RegNo, ∃ v n, runHost (.regRead i) s = .next { s with hostData := v, draws := n }) ∧
    runHost (.regRead 0) s = .next { s with hostData := 0 } ∧
    runHost (.regRead 8) s = .next { s with hostData := 0 } ∧
    runHost (.regRead 1) s = .next { s with hostData := statusWord s.enc.status } ∧
    runHost (.regRead 9) s = .next { s with hostData := statusWord s.dec.status } ∧
    runHost (.regRead 2) s = .next { s with hostData := s.enc.numPixels } ∧
    runHost (.regRead 3) s = .next { s with hostData := s.enc.outCap } ∧
    runHost (.regRead 10) s = .next { s with hostData := s.dec.numPixels } ∧
    runHost (.regRead 11) s = .next { s with hostData := s.dec.inWords } ∧
    (s.enc.status.busy = false → runHost (.regRead 4) s = .next { s with hostData := s.enc.wr }) ∧
    (s.dec.status.busy = false →
      runHost (.regRead 12) s = .next { s with hostData := s.dec.cnt } ∧
      runHost (.regRead 13) s = .next { s with hostData := s.dec.rd }) ∧
    (∀ i ∈ ([5, 6, 7, 14, 15] : List RegNo),
      runHost (.regRead i) s = .next { s with hostData := 0 })

/-- R202: a write reaches the configuration registers of an idle unit; every write that is no command
is otherwise ignored. The commands are `ControlWordsSelectCommands`. -/
def Obligations.RegisterWritesStore : Prop :=
  ∀ (s : State) (v : Word),
    (s.enc.status.busy = false →
      runHost (.regWrite 2 v) s = .next { s with enc := { s.enc with numPixels := v } } ∧
      runHost (.regWrite 3 v) s = .next { s with enc := { s.enc with outCap := v } }) ∧
    (s.dec.status.busy = false →
      runHost (.regWrite 10 v) s = .next { s with dec := { s.dec with numPixels := v } } ∧
      runHost (.regWrite 11 v) s = .next { s with dec := { s.dec with inWords := v } }) ∧
    (s.enc.status.busy = true →
      runHost (.regWrite 2 v) s = .next s ∧ runHost (.regWrite 3 v) s = .next s) ∧
    (s.dec.status.busy = true →
      runHost (.regWrite 10 v) s = .next s ∧ runHost (.regWrite 11 v) s = .next s) ∧
    (∀ i ∈ ([1, 4, 9, 12, 13, 5, 6, 7, 14, 15] : List RegNo),
      runHost (.regWrite i v) s = .next s)

/-- R42, R47: every bit of a status register's value. -/
def Obligations.StatusWordBits : Prop :=
  ∀ (st : Status) (k : Nat), (statusWord st).getLsbD k =
    if k = 0 then st.busy else if k = 1 then st.done else if k = 2 then st.err
    else if 4 ≤ k ∧ k ≤ 7 then st.code.getLsbD (k - 4) else false

/-- R52: reserved registers read 0 and ignore writes; reserved bits are ignored on write and read 0. -/
def Obligations.ReservedRegistersReadZero : Prop :=
  ∀ (s : State) (v w : Word),
    (∀ i ∈ ([5, 6, 7, 14, 15] : List RegNo),
      runHost (.regRead i) s = .next { s with hostData := 0 } ∧
      runHost (.regWrite i v) s = .next s) ∧
    (v &&& 3 = w &&& 3 → ∀ i ∈ ([0, 8] : List RegNo),
      runHost (.regWrite i v) s = runHost (.regWrite i w) s) ∧
    (∀ i ∈ ([1, 9] : List RegNo), ∃ x, runHost (.regRead i) s = .next { s with hostData := x } ∧
      ∀ k, k = 3 ∨ 8 ≤ k → x.getLsbD k = false)

/-- R262: the model refuses exactly the host accesses that have no specified outcome; every other turn
answers a next state. -/
def Obligations.OnlyHazardsRefused : Prop :=
  (∀ (s : State) (a : HostAction) (rest : List Turn), s.turns = .host a :: rest →
    ((∃ r, step s = .refused r) ↔ Hazard a s)) ∧
  (∀ s : State, (∃ t, step s = .next t) ∨
    ∃ a rest, s.turns = .host a :: rest ∧ Hazard a s)

/-- R206: what the host writes to an element of a buffer, while that is safe, it reads back; no other
element and nothing else changes. -/
def Obligations.HostBufferAccess : Prop :=
  ∀ (s : State) (i : Count) (x : Sample) (w : Word),
    (s.enc.status.busy = false →
      (∃ t, runHost (.sampleWrite .encIn i x) s = .next t ∧ t = { s with encIn := t.encIn } ∧
        ∀ j, t.readEncIn j = if j = i.toNat then x else s.readEncIn j) ∧
      (∃ t, runHost (.wordWrite .encOut i w) s = .next t ∧ t = { s with encOut := t.encOut } ∧
        ∀ j, t.readEncOut j = if j = i.toNat then w else s.readEncOut j) ∧
      runHost (.wordRead .encOut i) s = .next { s with hostData := s.readEncOut i.toNat }) ∧
    (s.dec.status.busy = false →
      (∃ t, runHost (.wordWrite .decIn i w) s = .next t ∧ t = { s with decIn := t.decIn } ∧
        ∀ j, t.readDecIn j = if j = i.toNat then w else s.readDecIn j) ∧
      (∃ t, runHost (.sampleWrite .decOut i x) s = .next t ∧ t = { s with decOut := t.decOut } ∧
        ∀ j, t.readDecOut j = if j = i.toNat then x else s.readDecOut j) ∧
      runHost (.sampleRead .decOut i) s =
        .next { s with hostData := (s.readDecOut i.toNat).setWidth 32 }) ∧
    runHost (.sampleRead .encIn i) s =
      .next { s with hostData := (s.readEncIn i.toNat).setWidth 32 } ∧
    runHost (.wordRead .decIn i) s = .next { s with hostData := s.readDecIn i.toNat }

/-! ### The micro-operations -/

/-- R120, on a word register whose free slots are 0 (R37 item 2): the nibble takes the lowest free
slot, the eighth one writes the word, and OUT_FULL comes instead where there is no room. -/
def Obligations.PutnibFillsLowestSlot : Prop :=
  ∀ (nb : Nibble) (e : EncUnit) (out : Buf 32), e.word.toNat < 16 ^ e.nib.toNat →
    let w := e.word.toNat + nb.toNat * 16 ^ e.nib.toNat
    (e.nib ≠ 7 → ∃ e', putNib Config.nibbleFill nb e out = .ok e' out ∧ e'.word.toNat = w ∧
      e'.nib.toNat = e.nib.toNat + 1 ∧ e' = { e with word := e'.word, nib := e'.nib }) ∧
    (e.nib = 7 → e.wr ≠ e.outCap → putNib Config.nibbleFill nb e out =
      .ok { e with wr := e.wr + 1, word := 0, nib := 0 }
        (bufWrite out e.wr.toNat (BitVec.ofNat 32 w))) ∧
    (e.nib = 7 → e.wr = e.outCap → ∃ e', putNib Config.nibbleFill nb e out = .full e' out ∧
      e' = { e with word := e'.word })

/-- R122: FLUSH writes the partly filled word, nothing if there is none, OUT_FULL if there is no room.
-/
def Obligations.FlushWritesPartialWord : Prop :=
  ∀ (e : EncUnit) (out : Buf 32),
    (e.nib = 0 → flushNibs Config.nibbleFill e out = .ok e out) ∧
    (e.nib ≠ 0 → e.wr ≠ e.outCap → flushNibs Config.nibbleFill e out =
      .ok { e with wr := e.wr + 1, word := 0, nib := 0 } (bufWrite out e.wr.toNat e.word)) ∧
    (e.nib ≠ 0 → e.wr = e.outCap → flushNibs Config.nibbleFill e out = .full e out)

/-- R123: GETNIB fetches a word exactly when none is at hand, delivers slot 0 and shifts right, and
raises EXHAUSTED exactly when no word is left. -/
def Obligations.GetnibDeliversLowestSlot : Prop :=
  ∀ (mem : Nat → Word) (d : DecUnit),
    (d.nib = 0 → d.rd = d.inWords → getNib Config.nibbleFill mem d = none) ∧
    (d.nib = 0 → d.rd ≠ d.inWords → ∃ nb d', getNib Config.nibbleFill mem d = some (nb, d') ∧
      nb.toNat = (mem d.rd.toNat).toNat % 16 ∧ d'.word.toNat = (mem d.rd.toNat).toNat / 16 ∧
      d' = { d with word := d'.word, rd := d.rd + 1, nib := 7 }) ∧
    (d.nib ≠ 0 → ∃ nb d', getNib Config.nibbleFill mem d = some (nb, d') ∧
      nb.toNat = d.word.toNat % 16 ∧ d'.word.toNat = d.word.toNat / 16 ∧
      d' = { d with word := d'.word, nib := d.nib - 1 })

/-- R128, for this hardware's packing and for the alternative of R129: nibbles appended by PUTNIB and
closed by FLUSH come back from GETNIB in order, then the padding, then EXHAUSTED (the list of what
GETNIB delivers ends there). No element above the words written changes. -/
def Obligations.UnpackingUndoesPacking : Prop :=
  ∀ (fill : NibbleFill) (b : List Nibble) (e : EncUnit) (out : Buf 32) (d : DecUnit)
    (mem : Nat → Word),
    let w := (b.length + 7) / 8
    e.word = 0 → e.nib = 0 → e.wr = 0 → w ≤ e.outCap.toNat →
    d.nib = 0 → d.rd = 0 → d.inWords.toNat = w →
    ∃ e1 out1 e2 out2, putNibs fill b e out = .ok e1 out1 ∧ flushNibs fill e1 out1 = .ok e2 out2 ∧
      e2.wr.toNat = w ∧ e2.nib = 0 ∧
      (∀ k, w ≤ k → bufRead out2 k = bufRead out k) ∧
      ((∀ k, k < w → bufRead out2 k = some (mem k)) →
        nibblesAhead fill mem (8 * w + 1) d = b ++ List.replicate (8 * w - b.length) 0)

/-! ### The arithmetic -/

/-- R146 items 1 to 3, with R141 and R142's formulas: zig-zag is a bijection that keeps small
magnitudes small, and a delta from the predictor accumulates back to its sample. -/
def Obligations.ZigzagAndPredictorLaws : Prop :=
  (∀ d : Int, zzDec (zzEnc d) = d ∧ (0 ≤ d → (zzEnc d : Int) = 2 * d) ∧
    (d < 0 → (zzEnc d : Int) = -2 * d - 1)) ∧
  (∀ u : Nat, zzEnc (zzDec u) = u) ∧
  (∀ d d' : Int, d.natAbs < d'.natAbs → zzEnc d < zzEnc d') ∧
  (∀ m : Nat, 1 ≤ m → zzEnc (-(m : Int)) + 1 = zzEnc m) ∧
  (∀ v p : Sample, accum p (zzDec (zzEnc (sampleDelta v p))) = some v)

/-- R147: a delta fits in `k` nibbles exactly in this range, and no delta of two samples needs more
than six. -/
def Obligations.DeltaNibbleCost : Prop :=
  (∀ (d : Int) (k : Nat), 1 ≤ k →
    (codewordLength (zzEnc d) ≤ k ↔ -4 * 8 ^ (k - 1) ≤ d ∧ d < 4 * 8 ^ (k - 1))) ∧
  (∀ v p : Sample, codewordLength (zzEnc (sampleDelta v p)) ≤ 6)

/-! ### The compressor -/

/-- R160, R161: the run ENC measures is the longest from that index, up to the end of the input. -/
def Obligations.RunIsLongest : Prop :=
  ∀ (mem : Nat → Sample) (zero : Bool) (pos n : Nat),
    let r := runLength mem zero pos n
    r ≤ n ∧ (∀ j, j < r → (mem (pos + j) = 0 ↔ zero = true)) ∧
    (r < n → ¬ (mem (pos + r) = 0 ↔ zero = true))

/-- R158: the phase after each ENC step, or IDLE with OUT_FULL. -/
def Obligations.EncPhasesFollowTable : Prop :=
  ∀ s : State, s.enc.status.busy = true →
    let t := encStep s
    let faulted := t.enc.phase = .idle ∧ t.enc.status = Status.faulted .outFull
    match s.enc.phase with
    | .idle => t = s
    | .pair => t.enc.phase = if s.enc.pos = s.enc.numPixels then .flush else .zrun
    | .zrun => t.enc.phase = .nrun ∨ faulted
    | .nrun => (t.enc.phase = if t.enc.run = 0 then .pair else .delta) ∨ faulted
    | .delta => (t.enc.phase = if s.enc.run - 1 = 0 then .pair else .delta) ∨ faulted
    | .flush => (t.enc.phase = .idle ∧ t.enc.status =
        { s.enc.status with busy := false, done := true }) ∨ faulted

/-- R228, R226: ENC faults only by OUT_FULL, only with `enc.wr` at the capacity, and the step leaves its
cursor, its run and its configuration. -/
def Obligations.EncFaultsOnlyWhenFull : Prop :=
  ∀ s : State, s.enc.status.busy = true → s.enc.status.err = false →
    let t := encStep s
    t.enc.status.err = true →
    t.enc.status = { busy := false, done := true, err := true, code := 4 } ∧
    t.enc.phase = .idle ∧ t.enc.wr = t.enc.outCap ∧
    t.enc.pos = s.enc.pos ∧ t.enc.run = s.enc.run ∧
    t.enc.numPixels = s.enc.numPixels ∧ t.enc.outCap = s.enc.outCap ∧
    t = { s with enc := t.enc, encOut := t.encOut }

/-- R226: what taking a fault changes, and that nothing else does. -/
def Obligations.FaultEntryChangesOnlyStatus : Prop :=
  ∀ (s : State) (c : FaultCode),
    s.takeFault .enc c = { s with enc := { s.enc with
      phase := .idle
      status := { busy := false, done := true, err := true, code := faultNumber c } } } ∧
    s.takeFault .dec c = { s with dec := { s.dec with
      phase := .idle
      status := { busy := false, done := true, err := true, code := faultNumber c } } } ∧
    faultNumber .exhausted = 1 ∧ faultNumber .overrun = 2 ∧ faultNumber .range = 3 ∧
    faultNumber .outFull = 4

/-- R157: the facts about `Pairs(x)`. -/
def Obligations.PairsPartitionTheInput : Prop :=
  ∀ x : List Sample,
    let ps := pairsOf x
    (∀ p ∈ ps, 1 ≤ p.1 + p.2.length) ∧
    (∀ j p, ps[j]? = some p → p.1 = 0 → j = 0 ∧ x[0]? ≠ some 0) ∧
    (∀ j p, ps[j]? = some p → p.2.length = 0 → j + 1 = ps.length ∧ x.getLast? = some 0) ∧
    (ps.map (fun p => p.1 + p.2.length)).sum = x.length ∧
    (ps = [] ↔ x.length = 0) ∧
    ps.length ≤ (x.length + 2) / 2 ∧
    ps.flatMap (fun p => List.replicate p.1 0 ++ p.2) = x

/-- R166: a sequence of `n` zeros is the codeword of `n` and one more nibble, one word or two, and
decompresses to `n` zeros. -/
def Obligations.AllZeroInputIsShort : Prop :=
  ∀ n : Nat, 1 ≤ n → n < 2 ^ 32 →
    let x : List Sample := List.replicate n 0
    symbolsOf x = [.z n, .n 0] ∧ nibblesOf x = vleNibbles n ++ [0] ∧
    (nibblesOf x).length = codewordLength n + 1 ∧ codewordLength n + 1 ≤ 12 ∧
    (rvlCompress x).length = (if n ≤ 2097151 then 1 else 2) ∧
    rvlDecompress (rvlCompress x) n = .ok x (rvlCompress x).length

/-- From R167 and R168: both bounds on the number of nibbles, hence on the words. R168's is for run
lengths of 32 bits. -/
def Obligations.CompressedSizeBounds : Prop :=
  ∀ x : List Sample, x.length < 2 ^ 32 →
    (nibblesOf x).length ≤ 7 * x.length + 2 ∧
    (nibblesOf x).length ≤ 6 * x.length + 6 + 6 * (x.length / 32768) ∧
    (x = [] → (nibblesOf x).length = 0) ∧
    (rvlCompress x).length = ((nibblesOf x).length + 7) / 8 ∧
    (rvlCompress x).length ≤ (7 * x.length + 2 + 7) / 8

/-! ### The two functions -/

/-- R192: the round trip is lossless. -/
def Obligations.DecompressUndoesCompress : Prop :=
  ∀ x : List Sample,
    rvlDecompress (rvlCompress x) x.length = .ok x (rvlCompress x).length

/-- From R193 (a), (b): a canonical stream cut short by one or more words always gives EXHAUSTED, and
words appended to it change nothing. -/
def Obligations.CutStreamExhausts : Prop :=
  ∀ x : List Sample,
    (∀ k, k < (rvlCompress x).length →
      ∃ out used, rvlDecompress ((rvlCompress x).take k) x.length = .fault .exhausted out used) ∧
    (∀ ys, rvlDecompress (rvlCompress x ++ ys) x.length = .ok x (rvlCompress x).length)

/-- From R193 (c) and R264: a canonical stream decoded with a larger number of samples gives EXHAUSTED;
with a smaller one it gives the prefix if that falls on a pair boundary, and OVERRUN if not. -/
def Obligations.WrongPixelCountOutcomes : Prop :=
  ∀ (x : List Sample) (n : Nat),
    (x.length < n → ∃ out used, rvlDecompress (rvlCompress x) n = .fault .exhausted out used) ∧
    (n < x.length → OnPairBoundary x n →
      ∃ used, rvlDecompress (rvlCompress x) n = .ok (x.take n) used) ∧
    (n < x.length → ¬ OnPairBoundary x n →
      ∃ out used, rvlDecompress (rvlCompress x) n = .fault .overrun out used)

/-! ### The machine computes the functions -/

/-- R164, with R171 and the step bound of R172: from ENC.START, under every order of the units' steps
that gives ENC its bounded number, ENC ends with RvlCompress of its input in ENC_OUT, or with OUT_FULL
and the first ENC_OUT_CAP words of it. -/
def Obligations.CompressorComputesFunction : Prop :=
  ∀ (s : State) (ts : List Turn), s.enc.status.busy = false → OnlyUnits ts →
    encStepBound s.enc.numPixels.toNat ≤ ts.count .enc →
    ∃ t, Reaches (ts.length + 1) (s.withTurns (.host (.regWrite 0 1) :: ts)) t ∧
      let x := s.encSamples s.enc.numPixels.toNat
      let ws := rvlCompress x
      let room := s.enc.outCap.toNat
      (∀ k, bufRead t.encOut k =
        if k < min room ws.length then ws[k]? else bufRead s.encOut k) ∧
      (ws.length ≤ room → t.enc =
        { phase := .idle, pos := s.enc.numPixels, prev := lastNonZero x, word := 0, nib := 0,
          wr := BitVec.ofNat Config.countW ws.length, run := 0,
          status := { busy := false, done := true, err := false, code := 0 },
          numPixels := s.enc.numPixels, outCap := s.enc.outCap }) ∧
      (room < ws.length → t.enc.phase = .idle ∧ t.enc.wr = s.enc.outCap ∧
        t.enc.status = { busy := false, done := true, err := true, code := 4 })

/-- R189, with the step bound of R195: from DEC.START, under every order of the units' steps that gives
DEC its bounded number (codeword turns among them or not), DEC ends as RvlDecompress of its input words
says: the same outcome and fault code, the same samples in DEC_OUT, the same counters. -/
def Obligations.DecompressorComputesFunction : Prop :=
  ∀ (s : State) (ts : List Turn), s.dec.status.busy = false → OnlyUnits ts →
    decStepBound s.dec.inWords.toNat ≤ ts.count .dec →
    ∃ t, Reaches (ts.length + 1) (s.withTurns (.host (.regWrite 8 1) :: ts)) t ∧
      t.dec.phase = .idle ∧
      match rvlDecompress (s.decWords s.dec.inWords.toNat) s.dec.numPixels.toNat with
      | .ok out used =>
        t.dec.status = { busy := false, done := true, err := false, code := 0 } ∧
        out.length = s.dec.numPixels.toNat ∧ t.dec.cnt = s.dec.numPixels ∧
        t.dec.rd.toNat = used ∧
        ∀ i, bufRead t.decOut i = if i < out.length then out[i]? else bufRead s.decOut i
      | .fault c out used =>
        t.dec.status = { busy := false, done := true, err := true, code := faultNumber c } ∧
        t.dec.cnt.toNat = out.length ∧ t.dec.rd.toNat = used ∧
        ∀ i, bufRead t.decOut i = if i < out.length then out[i]? else bufRead s.decOut i

/-- R211: the two units chained. If ENC compresses without a fault, and DEC, idle, is given those
words and their number and the same number of samples, DEC ends without a fault, has used every word,
and DEC_OUT holds the samples of ENC_IN. -/
def Obligations.ChainedUnitsAreLossless : Prop :=
  ∀ (s t u : State) (ts us : List Turn),
    s.enc.status.busy = false → OnlyUnits ts →
    encStepBound s.enc.numPixels.toNat ≤ ts.count .enc →
    Reaches (ts.length + 1) (s.withTurns (.host (.regWrite 0 1) :: ts)) t →
    t.enc.status.err = false →
    u.dec.status.busy = false → u.dec.numPixels = s.enc.numPixels → u.dec.inWords = t.enc.wr →
    (∀ k, k < t.enc.wr.toNat → u.readDecIn k = t.readEncOut k) → OnlyUnits us →
    decStepBound t.enc.wr.toNat ≤ us.count .dec →
    ∃ v, Reaches (us.length + 1) (u.withTurns (.host (.regWrite 8 1) :: us)) v ∧
      v.dec.status = { busy := false, done := true, err := false, code := 0 } ∧
      v.dec.cnt = s.enc.numPixels ∧ v.dec.rd = t.enc.wr ∧
      ∀ i, i < s.enc.numPixels.toNat → v.readDecOut i = s.readEncIn i

/-- From R165, R190: with no samples an operation succeeds, reads nothing, writes nothing and counts 0,
whatever the sizes are. That no codeword is held is of the model's own field (log entry 4). -/
def Obligations.EmptyOperationsSucceed : Prop :=
  (∀ s : State, s.enc.status.busy = false → s.enc.numPixels = 0 →
    Reaches 3 (s.withTurns [.host (.regWrite 0 1), .enc, .enc])
      { s.withTurns [] with enc :=
        { phase := .idle, pos := 0, prev := 0, word := 0, nib := 0, wr := 0, run := 0,
          status := { busy := false, done := true, err := false, code := 0 },
          numPixels := 0, outCap := s.enc.outCap } }) ∧
  (∀ s : State, s.dec.status.busy = false → s.dec.numPixels = 0 →
    Reaches 2 (s.withTurns [.host (.regWrite 8 1), .dec])
      { s.withTurns [] with dec :=
        { phase := .idle, cnt := 0, prev := 0, word := 0, nib := 0, rd := 0, run := 0,
          acc := s.dec.acc, ovf := s.dec.ovf, sh := s.dec.sh,
          status := { busy := false, done := true, err := false, code := 0 },
          numPixels := 0, inWords := s.dec.inWords, held := none } })

/-! ### The whole machine -/

/-- From R22, R29, R37 items 1, 2, 3, 5, R38 items 1, 2, 3, R42, R47: every step keeps the invariants of
both units and the form of the buffers. -/
def Obligations.EveryStepKeepsSafe : Prop :=
  ∀ s t : State, Safe s → step s = .next t → Safe t

/-- The reset state (R57, R251) satisfies them. -/
def Obligations.ResetIsSafe : Prop := Safe State.reset

/-- R20: a step of one unit neither reads nor writes anything of the other, nor anything of the
host's. -/
def Obligations.UnitsShareNothing : Prop :=
  ∀ (s : State) (e : EncUnit) (d : DecUnit) (a : Buf 16) (b : Buf 32) (c : Buf 32) (o : Buf 16),
    encStep { s with dec := d, decIn := c, decOut := o } =
      { encStep s with dec := d, decIn := c, decOut := o } ∧
    encStep s = { s with enc := (encStep s).enc, encOut := (encStep s).encOut } ∧
    ∀ u ∈ [Turn.dec, Turn.decCodeword], ∃ t, runTurn u s = .next t ∧
      t = { s with dec := t.dec, decOut := t.decOut } ∧
      runTurn u { s with enc := e, encIn := a, encOut := b } =
        .next { t with enc := e, encIn := a, encOut := b }

/-- From R75: the order of an ENC step and a DEC step cannot be told from the result. -/
def Obligations.UnitStepsCommute : Prop :=
  ∀ s t : State, (Reaches 2 (s.withTurns [.enc, .dec]) t ↔ Reaches 2 (s.withTurns [.dec, .enc]) t) ∧
    (Reaches 2 (s.withTurns [.enc, .decCodeword]) t ↔
      Reaches 2 (s.withTurns [.decCodeword, .enc]) t)

/-- From R172, R195 and decision D20 (the codeword turn is the model's finer granularity, log entry 4):
a codeword turn before a DEC step makes no difference to where that step ends. -/
def Obligations.CodewordTurnIsRefinement : Prop :=
  ∀ s t : State, Reaches 2 (s.withTurns [.decCodeword, .dec]) t ↔ Reaches 1 (s.withTurns [.dec]) t

/-- From R205, R252 (the turn is the model's, log entry 5): the early writes of a step that an abort
would leave behind are a prefix of its own. Of the elements from the unit's counter up to where the step
moves it, the first `k` (all, if there are no more) read as after the step; every other element, and all
else, is as before. They make no difference to where the step ends if it does run. -/
def Obligations.EarlyWritesArePrefix : Prop :=
  ∀ (s : State) (k : Nat), s.buffersWf = true →
    (∀ u t, Reaches 2 (s.withTurns [.partialWrites u k, unitTurn u]) t ↔
      Reaches 1 (s.withTurns [unitTurn u]) t) ∧
    (∃ t t', runTurn (.partialWrites .enc k) s = .next t ∧ t = { s with encOut := t.encOut } ∧
      runTurn .enc s = .next t' ∧
      ∀ i, bufRead t.encOut i =
        if s.enc.wr.toNat ≤ i ∧
            i < s.enc.wr.toNat + min k (t'.enc.wr.toNat - s.enc.wr.toNat) then
          bufRead t'.encOut i
        else bufRead s.encOut i) ∧
    (∃ t t', runTurn (.partialWrites .dec k) s = .next t ∧ t = { s with decOut := t.decOut } ∧
      runTurn .dec s = .next t' ∧
      ∀ i, bufRead t.decOut i =
        if s.dec.cnt.toNat ≤ i ∧
            i < s.dec.cnt.toNat + min k (t'.dec.cnt.toNat - s.dec.cnt.toNat) then
          bufRead t'.decOut i
        else bufRead s.decOut i)

/-- R194: where each DEC fault is raised, and what it leaves: nothing written to DEC_OUT, `dec.cnt` of
the completed steps, and for EXHAUSTED every word used. -/
def Obligations.DecFaultsWriteNothing : Prop :=
  ∀ s t : State, s.dec.status.busy = true → s.dec.status.err = false →
    runTurn .dec s = .next t → t.dec.status.err = true →
    t.decOut = s.decOut ∧ t.dec.cnt = s.dec.cnt ∧ t.dec.prev = s.dec.prev ∧ t.dec.phase = .idle ∧
    t.dec.numPixels = s.dec.numPixels ∧ t.dec.inWords = s.dec.inWords ∧
    (DecOk s → t.dec.cnt.toNat ≤ t.dec.numPixels.toNat) ∧
    ((t.dec.status = Status.faulted .exhausted ∧ t.dec.rd = t.dec.inWords ∧
        phaseRole s.dec.phase ≠ none) ∨
      (t.dec.status = Status.faulted .overrun ∧ (s.dec.phase = .zrun ∨ s.dec.phase = .nrun)) ∨
      (t.dec.status = Status.faulted .range ∧ s.dec.phase = .delta))

/-- R72, its writes: a unit in a good state changes an output element only at or above its counter and
below the declared extent. -/
def Obligations.WritesStayInExtent : Prop :=
  (∀ s : State, EncOk s → ∀ k, bufRead (encStep s).encOut k ≠ bufRead s.encOut k →
    s.enc.wr.toNat ≤ k ∧ k < s.enc.outCap.toNat) ∧
  (∀ s t : State, DecOk s → runTurn .dec s = .next t → ∀ i, bufRead t.decOut i ≠ bufRead s.decOut i →
    s.dec.cnt.toNat ≤ i ∧ i < s.dec.numPixels.toNat)

/-- R72, its reads: what stands in an input buffer beyond its declared extent makes no difference to a
unit in a good state. -/
def Obligations.ReadsStayInExtent : Prop :=
  (∀ (s : State) (b : Buf 16), EncOk s →
    (∀ i, i < s.enc.numPixels.toNat → bufRead b i = bufRead s.encIn i) →
    encStep { s with encIn := b } = { encStep s with encIn := b }) ∧
  (∀ (s : State) (b : Buf 32), DecOk s →
    (∀ k, k < s.dec.inWords.toNat → bufRead b k = bufRead s.decIn k) →
    ∃ t, runTurn .dec s = .next t ∧ runTurn .dec { s with decIn := b } = .next { t with decIn := b })

/-- From R265: until the host or a reset acts on it, an idle unit changes nothing: its registers and its
output buffer stay as they are, whatever the other agents' turns. -/
def Obligations.IdleUnitIsStable : Prop :=
  ∀ (s t : State) (u : Turn), (∀ i v, u ≠ .host (.regWrite i v)) → (∀ kept, u ≠ .hardReset kept) →
    runTurn u s = .next t →
    (s.enc.status.busy = false → t.enc = s.enc ∧
      ((∀ i v, u ≠ .host (.wordWrite .encOut i v)) → t.encOut = s.encOut)) ∧
    (s.dec.status.busy = false → t.dec = s.dec ∧
      ((∀ i v, u ≠ .host (.sampleWrite .decOut i v)) → t.decOut = s.decOut))

/-- From R205, R252 and U12: an operation cut short after any steps of the units, inside a step too, by
SRST or by a hardware reset that keeps the output buffer, leaves there a prefix of what it would have
written and the rest as it was, and its unit at the reset values, the counters among them. The turn that
cuts inside a step is the model's (log entry 5), and so is that a hardware reset says which buffers it
keeps (log entry 1). -/
def Obligations.AbandonedOutputIsPrefix : Prop :=
  ∀ (s : State) (ts : List Turn) (k : Nat) (r : Turn), OnlyUnits ts →
    (s.enc.status.busy = false →
      (r = .host (.regWrite 0 2) ∨ ∃ kept, .encOut ∈ kept ∧ r = .hardReset kept) →
      ∃ t m, Reaches (ts.length + 3)
          (s.withTurns (.host (.regWrite 0 1) :: (ts ++ [.partialWrites .enc k, r]))) t ∧
        t.enc = State.reset.enc ∧ m ≤ s.enc.outCap.toNat ∧
        let ws := rvlCompress (s.encSamples s.enc.numPixels.toNat)
        m ≤ ws.length ∧ ∀ i,
          (i < m → ws[i]? = some (t.readEncOut i)) ∧ (m ≤ i → t.readEncOut i = s.readEncOut i)) ∧
    (s.dec.status.busy = false →
      (r = .host (.regWrite 8 2) ∨ ∃ kept, .decOut ∈ kept ∧ r = .hardReset kept) →
      ∃ t m, Reaches (ts.length + 3)
          (s.withTurns (.host (.regWrite 8 1) :: (ts ++ [.partialWrites .dec k, r]))) t ∧
        t.dec = State.reset.dec ∧ m ≤ s.dec.numPixels.toNat ∧
        let out := match rvlDecompress (s.decWords s.dec.inWords.toNat) s.dec.numPixels.toNat with
          | .ok out _ => out
          | .fault _ out _ => out
        m ≤ out.length ∧ ∀ i,
          (i < m → out[i]? = some (t.readDecOut i)) ∧ (m ≤ i → t.readDecOut i = s.readDecOut i))
end

