-- ==== Sys2Proof/Laws/State.lean ====
section
/-! SUPPORT. One lemma per field per update of the state records. -/

namespace Sys2Proof.Machine

/-! ### Counts (R6). `Config.countW` is reducible but opaque to `omega` as an exponent: these give the
bounds and the wrapping with the number written out. -/

theorem count_lt (c : Count) : c.toNat < 4294967296 := c.isLt

theorem count_toNat_add (a b : Count) : (a + b).toNat = (a.toNat + b.toNat) % 4294967296 :=
  BitVec.toNat_add a b

theorem count_toNat_sub (a b : Count) :
    (a - b).toNat = (4294967296 - b.toNat + a.toNat) % 4294967296 :=
  BitVec.toNat_sub a b

theorem count_toNat_ofNat (n : Nat) : (BitVec.ofNat Config.countW n).toNat = n % 4294967296 :=
  BitVec.toNat_ofNat n Config.countW

@[simp] theorem count_toNat_zero : (0 : Count).toNat = 0 := rfl

@[simp] theorem count_toNat_one : (1 : Count).toNat = 1 := rfl

/-! ### Fault entry (R226) -/

@[simp] theorem takeFault_enc_dec (s : State) (c : FaultCode) : (s.takeFault .enc c).dec = s.dec := rfl
@[simp] theorem takeFault_enc_encIn (s : State) (c : FaultCode) : (s.takeFault .enc c).encIn = s.encIn := rfl
@[simp] theorem takeFault_enc_encOut (s : State) (c : FaultCode) :
    (s.takeFault .enc c).encOut = s.encOut := rfl
@[simp] theorem takeFault_enc_decIn (s : State) (c : FaultCode) : (s.takeFault .enc c).decIn = s.decIn := rfl
@[simp] theorem takeFault_enc_decOut (s : State) (c : FaultCode) :
    (s.takeFault .enc c).decOut = s.decOut := rfl
@[simp] theorem takeFault_enc_epochs (s : State) (c : FaultCode) : (s.takeFault .enc c).epochs = s.epochs := rfl
@[simp] theorem takeFault_enc_draws (s : State) (c : FaultCode) : (s.takeFault .enc c).draws = s.draws := rfl
@[simp] theorem takeFault_enc_hostData (s : State) (c : FaultCode) :
    (s.takeFault .enc c).hostData = s.hostData := rfl
@[simp] theorem takeFault_enc_turns (s : State) (c : FaultCode) : (s.takeFault .enc c).turns = s.turns := rfl
@[simp] theorem takeFault_enc_enc_phase (s : State) (c : FaultCode) :
    (s.takeFault .enc c).enc.phase = .idle := rfl
@[simp] theorem takeFault_enc_enc_pos (s : State) (c : FaultCode) :
    (s.takeFault .enc c).enc.pos = s.enc.pos := rfl
@[simp] theorem takeFault_enc_enc_prev (s : State) (c : FaultCode) :
    (s.takeFault .enc c).enc.prev = s.enc.prev := rfl
@[simp] theorem takeFault_enc_enc_word (s : State) (c : FaultCode) :
    (s.takeFault .enc c).enc.word = s.enc.word := rfl
@[simp] theorem takeFault_enc_enc_nib (s : State) (c : FaultCode) :
    (s.takeFault .enc c).enc.nib = s.enc.nib := rfl
@[simp] theorem takeFault_enc_enc_wr (s : State) (c : FaultCode) :
    (s.takeFault .enc c).enc.wr = s.enc.wr := rfl
@[simp] theorem takeFault_enc_enc_run (s : State) (c : FaultCode) :
    (s.takeFault .enc c).enc.run = s.enc.run := rfl
@[simp] theorem takeFault_enc_enc_status (s : State) (c : FaultCode) :
    (s.takeFault .enc c).enc.status = Status.faulted c := rfl
@[simp] theorem takeFault_enc_enc_numPixels (s : State) (c : FaultCode) :
    (s.takeFault .enc c).enc.numPixels = s.enc.numPixels := rfl
@[simp] theorem takeFault_enc_enc_outCap (s : State) (c : FaultCode) :
    (s.takeFault .enc c).enc.outCap = s.enc.outCap := rfl
@[simp] theorem takeFault_dec_enc (s : State) (c : FaultCode) : (s.takeFault .dec c).enc = s.enc := rfl
@[simp] theorem takeFault_dec_encIn (s : State) (c : FaultCode) : (s.takeFault .dec c).encIn = s.encIn := rfl
@[simp] theorem takeFault_dec_encOut (s : State) (c : FaultCode) :
    (s.takeFault .dec c).encOut = s.encOut := rfl
@[simp] theorem takeFault_dec_decIn (s : State) (c : FaultCode) : (s.takeFault .dec c).decIn = s.decIn := rfl
@[simp] theorem takeFault_dec_decOut (s : State) (c : FaultCode) :
    (s.takeFault .dec c).decOut = s.decOut := rfl
@[simp] theorem takeFault_dec_epochs (s : State) (c : FaultCode) : (s.takeFault .dec c).epochs = s.epochs := rfl
@[simp] theorem takeFault_dec_draws (s : State) (c : FaultCode) : (s.takeFault .dec c).draws = s.draws := rfl
@[simp] theorem takeFault_dec_hostData (s : State) (c : FaultCode) :
    (s.takeFault .dec c).hostData = s.hostData := rfl
@[simp] theorem takeFault_dec_turns (s : State) (c : FaultCode) : (s.takeFault .dec c).turns = s.turns := rfl
@[simp] theorem takeFault_dec_dec_phase (s : State) (c : FaultCode) :
    (s.takeFault .dec c).dec.phase = .idle := rfl
@[simp] theorem takeFault_dec_dec_cnt (s : State) (c : FaultCode) :
    (s.takeFault .dec c).dec.cnt = s.dec.cnt := rfl
@[simp] theorem takeFault_dec_dec_prev (s : State) (c : FaultCode) :
    (s.takeFault .dec c).dec.prev = s.dec.prev := rfl
@[simp] theorem takeFault_dec_dec_word (s : State) (c : FaultCode) :
    (s.takeFault .dec c).dec.word = s.dec.word := rfl
@[simp] theorem takeFault_dec_dec_nib (s : State) (c : FaultCode) :
    (s.takeFault .dec c).dec.nib = s.dec.nib := rfl
@[simp] theorem takeFault_dec_dec_rd (s : State) (c : FaultCode) :
    (s.takeFault .dec c).dec.rd = s.dec.rd := rfl
@[simp] theorem takeFault_dec_dec_run (s : State) (c : FaultCode) :
    (s.takeFault .dec c).dec.run = s.dec.run := rfl
@[simp] theorem takeFault_dec_dec_acc (s : State) (c : FaultCode) :
    (s.takeFault .dec c).dec.acc = s.dec.acc := rfl
@[simp] theorem takeFault_dec_dec_ovf (s : State) (c : FaultCode) :
    (s.takeFault .dec c).dec.ovf = s.dec.ovf := rfl
@[simp] theorem takeFault_dec_dec_sh (s : State) (c : FaultCode) :
    (s.takeFault .dec c).dec.sh = s.dec.sh := rfl
@[simp] theorem takeFault_dec_dec_status (s : State) (c : FaultCode) :
    (s.takeFault .dec c).dec.status = Status.faulted c := rfl
@[simp] theorem takeFault_dec_dec_numPixels (s : State) (c : FaultCode) :
    (s.takeFault .dec c).dec.numPixels = s.dec.numPixels := rfl
@[simp] theorem takeFault_dec_dec_inWords (s : State) (c : FaultCode) :
    (s.takeFault .dec c).dec.inWords = s.dec.inWords := rfl
@[simp] theorem takeFault_dec_dec_held (s : State) (c : FaultCode) :
    (s.takeFault .dec c).dec.held = s.dec.held := rfl

/-! ### START (R203, R204) -/

@[simp] theorem enc_start_phase (e : EncUnit) : e.start.phase = .pair := rfl
@[simp] theorem enc_start_pos (e : EncUnit) : e.start.pos = 0 := rfl
@[simp] theorem enc_start_prev (e : EncUnit) : e.start.prev = 0 := rfl
@[simp] theorem enc_start_word (e : EncUnit) : e.start.word = 0 := rfl
@[simp] theorem enc_start_nib (e : EncUnit) : e.start.nib = 0 := rfl
@[simp] theorem enc_start_wr (e : EncUnit) : e.start.wr = 0 := rfl
@[simp] theorem enc_start_run (e : EncUnit) : e.start.run = 0 := rfl
@[simp] theorem enc_start_status (e : EncUnit) : e.start.status = Status.started := rfl
@[simp] theorem enc_start_numPixels (e : EncUnit) : e.start.numPixels = e.numPixels := rfl
@[simp] theorem enc_start_outCap (e : EncUnit) : e.start.outCap = e.outCap := rfl
@[simp] theorem dec_start_phase (d : DecUnit) : d.start.phase = .pair := rfl
@[simp] theorem dec_start_cnt (d : DecUnit) : d.start.cnt = 0 := rfl
@[simp] theorem dec_start_prev (d : DecUnit) : d.start.prev = 0 := rfl
@[simp] theorem dec_start_word (d : DecUnit) : d.start.word = 0 := rfl
@[simp] theorem dec_start_nib (d : DecUnit) : d.start.nib = 0 := rfl
@[simp] theorem dec_start_rd (d : DecUnit) : d.start.rd = 0 := rfl
@[simp] theorem dec_start_run (d : DecUnit) : d.start.run = 0 := rfl
@[simp] theorem dec_start_acc (d : DecUnit) : d.start.acc = d.acc := rfl
@[simp] theorem dec_start_ovf (d : DecUnit) : d.start.ovf = d.ovf := rfl
@[simp] theorem dec_start_sh (d : DecUnit) : d.start.sh = d.sh := rfl
@[simp] theorem dec_start_status (d : DecUnit) : d.start.status = Status.started := rfl
@[simp] theorem dec_start_numPixels (d : DecUnit) : d.start.numPixels = d.numPixels := rfl
@[simp] theorem dec_start_inWords (d : DecUnit) : d.start.inWords = d.inWords := rfl
@[simp] theorem dec_start_held (d : DecUnit) : d.start.held = none := rfl

/-! ### Hardware reset (R250) -/

@[simp] theorem hardReset_enc (kept : List Space) (s : State) :
    (s.hardReset kept).enc = EncUnit.reset := rfl
@[simp] theorem hardReset_dec (kept : List Space) (s : State) :
    (s.hardReset kept).dec = DecUnit.reset := rfl
@[simp] theorem hardReset_encIn (kept : List Space) (s : State) :
    (s.hardReset kept).encIn = resetBuf kept .encIn s.encIn := rfl
@[simp] theorem hardReset_encOut (kept : List Space) (s : State) :
    (s.hardReset kept).encOut = resetBuf kept .encOut s.encOut := rfl
@[simp] theorem hardReset_decIn (kept : List Space) (s : State) :
    (s.hardReset kept).decIn = resetBuf kept .decIn s.decIn := rfl
@[simp] theorem hardReset_decOut (kept : List Space) (s : State) :
    (s.hardReset kept).decOut = resetBuf kept .decOut s.decOut := rfl
@[simp] theorem hardReset_epochs_encIn (kept : List Space) (s : State) :
    (s.hardReset kept).epochs.encIn = resetEpoch kept .encIn s.epochs.encIn := rfl
@[simp] theorem hardReset_epochs_encOut (kept : List Space) (s : State) :
    (s.hardReset kept).epochs.encOut = resetEpoch kept .encOut s.epochs.encOut := rfl
@[simp] theorem hardReset_epochs_decIn (kept : List Space) (s : State) :
    (s.hardReset kept).epochs.decIn = resetEpoch kept .decIn s.epochs.decIn := rfl
@[simp] theorem hardReset_epochs_decOut (kept : List Space) (s : State) :
    (s.hardReset kept).epochs.decOut = resetEpoch kept .decOut s.epochs.decOut := rfl
@[simp] theorem hardReset_draws (kept : List Space) (s : State) :
    (s.hardReset kept).draws = s.draws := rfl
@[simp] theorem hardReset_hostData (kept : List Space) (s : State) :
    (s.hardReset kept).hostData = s.hostData := rfl
@[simp] theorem hardReset_turns (kept : List Space) (s : State) :
    (s.hardReset kept).turns = s.turns := rfl
theorem resetBuf_kept {w : Nat} {kept : List Space} {b : Space} (h : b ∈ kept) (buf : Buf w) :
    resetBuf kept b buf = buf := if_pos h

theorem resetBuf_drawn {w : Nat} {kept : List Space} {b : Space} (h : b ∉ kept) (buf : Buf w) :
    resetBuf kept b buf = [] := if_neg h

theorem resetEpoch_kept {kept : List Space} {b : Space} (h : b ∈ kept) (n : Nat) :
    resetEpoch kept b n = n := if_pos h

theorem resetEpoch_drawn {kept : List Space} {b : Space} (h : b ∉ kept) (n : Nat) :
    resetEpoch kept b n = n + 1 := if_neg h

theorem readEncIn_hardReset_kept {kept : List Space} (h : Space.encIn ∈ kept) (s : State) (i : Nat) :
    (s.hardReset kept).readEncIn i = s.readEncIn i := by
  simp [State.readEncIn, resetBuf_kept h, resetEpoch_kept h]

theorem readEncOut_hardReset_kept {kept : List Space} (h : Space.encOut ∈ kept) (s : State) (i : Nat) :
    (s.hardReset kept).readEncOut i = s.readEncOut i := by
  simp [State.readEncOut, resetBuf_kept h, resetEpoch_kept h]

theorem readDecIn_hardReset_kept {kept : List Space} (h : Space.decIn ∈ kept) (s : State) (i : Nat) :
    (s.hardReset kept).readDecIn i = s.readDecIn i := by
  simp [State.readDecIn, resetBuf_kept h, resetEpoch_kept h]

theorem readDecOut_hardReset_kept {kept : List Space} (h : Space.decOut ∈ kept) (s : State) (i : Nat) :
    (s.hardReset kept).readDecOut i = s.readDecOut i := by
  simp [State.readDecOut, resetBuf_kept h, resetEpoch_kept h]

/-! ### Status updates (R53) -/

@[simp] theorem finished_busy (st : Status) : st.finished.busy = false := rfl
@[simp] theorem finished_done (st : Status) : st.finished.done = true := rfl
@[simp] theorem finished_err (st : Status) : st.finished.err = st.err := rfl
@[simp] theorem finished_code (st : Status) : st.finished.code = st.code := rfl
@[simp] theorem faulted_busy (c : FaultCode) : (Status.faulted c).busy = false := rfl
@[simp] theorem faulted_done (c : FaultCode) : (Status.faulted c).done = true := rfl
@[simp] theorem faulted_err (c : FaultCode) : (Status.faulted c).err = true := rfl
@[simp] theorem faulted_code (c : FaultCode) : (Status.faulted c).code = faultNumber c := rfl
@[simp] theorem started_busy : Status.started.busy = true := rfl
@[simp] theorem started_done : Status.started.done = false := rfl
@[simp] theorem started_err : Status.started.err = false := rfl
@[simp] theorem started_code : Status.started.code = 0 := rfl

/-! ### DECVLE's scratch (R125) -/

@[simp] theorem clearScratch_phase (d : DecUnit) : d.clearScratch.phase = d.phase := rfl
@[simp] theorem clearScratch_cnt (d : DecUnit) : d.clearScratch.cnt = d.cnt := rfl
@[simp] theorem clearScratch_prev (d : DecUnit) : d.clearScratch.prev = d.prev := rfl
@[simp] theorem clearScratch_word (d : DecUnit) : d.clearScratch.word = d.word := rfl
@[simp] theorem clearScratch_nib (d : DecUnit) : d.clearScratch.nib = d.nib := rfl
@[simp] theorem clearScratch_rd (d : DecUnit) : d.clearScratch.rd = d.rd := rfl
@[simp] theorem clearScratch_run (d : DecUnit) : d.clearScratch.run = d.run := rfl
@[simp] theorem clearScratch_acc (d : DecUnit) : d.clearScratch.acc = 0 := rfl
@[simp] theorem clearScratch_ovf (d : DecUnit) : d.clearScratch.ovf = false := rfl
@[simp] theorem clearScratch_sh (d : DecUnit) : d.clearScratch.sh = 0 := rfl
@[simp] theorem clearScratch_status (d : DecUnit) : d.clearScratch.status = d.status := rfl
@[simp] theorem clearScratch_numPixels (d : DecUnit) : d.clearScratch.numPixels = d.numPixels := rfl
@[simp] theorem clearScratch_inWords (d : DecUnit) : d.clearScratch.inWords = d.inWords := rfl
@[simp] theorem clearScratch_held (d : DecUnit) : d.clearScratch.held = d.held := rfl
@[simp] theorem accumulate_phase (p : Payload) (d : DecUnit) : (accumulate p d).phase = d.phase := rfl
@[simp] theorem accumulate_cnt (p : Payload) (d : DecUnit) : (accumulate p d).cnt = d.cnt := rfl
@[simp] theorem accumulate_prev (p : Payload) (d : DecUnit) : (accumulate p d).prev = d.prev := rfl
@[simp] theorem accumulate_word (p : Payload) (d : DecUnit) : (accumulate p d).word = d.word := rfl
@[simp] theorem accumulate_nib (p : Payload) (d : DecUnit) : (accumulate p d).nib = d.nib := rfl
@[simp] theorem accumulate_rd (p : Payload) (d : DecUnit) : (accumulate p d).rd = d.rd := rfl
@[simp] theorem accumulate_run (p : Payload) (d : DecUnit) : (accumulate p d).run = d.run := rfl
@[simp] theorem accumulate_status (p : Payload) (d : DecUnit) : (accumulate p d).status = d.status := rfl
@[simp] theorem accumulate_numPixels (p : Payload) (d : DecUnit) :
    (accumulate p d).numPixels = d.numPixels := rfl
@[simp] theorem accumulate_inWords (p : Payload) (d : DecUnit) : (accumulate p d).inWords = d.inWords := rfl
@[simp] theorem accumulate_held (p : Payload) (d : DecUnit) : (accumulate p d).held = d.held := rfl

/-! ### The coming turns -/

@[simp] theorem withTurns_enc (s : State) (ts : List Turn) : (s.withTurns ts).enc = s.enc := rfl
@[simp] theorem withTurns_dec (s : State) (ts : List Turn) : (s.withTurns ts).dec = s.dec := rfl
@[simp] theorem withTurns_encIn (s : State) (ts : List Turn) : (s.withTurns ts).encIn = s.encIn := rfl
@[simp] theorem withTurns_encOut (s : State) (ts : List Turn) : (s.withTurns ts).encOut = s.encOut := rfl
@[simp] theorem withTurns_decIn (s : State) (ts : List Turn) : (s.withTurns ts).decIn = s.decIn := rfl
@[simp] theorem withTurns_decOut (s : State) (ts : List Turn) : (s.withTurns ts).decOut = s.decOut := rfl
@[simp] theorem withTurns_epochs (s : State) (ts : List Turn) : (s.withTurns ts).epochs = s.epochs := rfl
@[simp] theorem withTurns_draws (s : State) (ts : List Turn) : (s.withTurns ts).draws = s.draws := rfl
@[simp] theorem withTurns_hostData (s : State) (ts : List Turn) :
    (s.withTurns ts).hostData = s.hostData := rfl
@[simp] theorem withTurns_turns (s : State) (ts : List Turn) : (s.withTurns ts).turns = ts := rfl

end Sys2Proof.Machine
end

