-- ==== Sys2Proof/Laws/Buffers.lean ====
section
/-! SUPPORT. What the buffer operations do: read after write, and the form they keep. -/

namespace Sys2Proof.Machine

variable {w : Nat}

theorem bufRead_bufWrite_same (b : Buf w) (i : Nat) (v : BitVec w) :
    bufRead (bufWrite b i v) i = some v := by
  induction b with
  | nil => simp [bufWrite, bufRead]
  | cons c rest ih =>
    obtain ⟨j, u⟩ := c
    simp only [bufWrite]
    split
    · simp [bufRead]
    · split
      · simp [bufRead]
      · simp [bufRead, *]

theorem bufRead_bufWrite_ne (b : Buf w) {i k : Nat} (v : BitVec w) (h : k ≠ i) :
    bufRead (bufWrite b i v) k = bufRead b k := by
  induction b with
  | nil => simp [bufWrite, bufRead, h]
  | cons c rest ih =>
    obtain ⟨j, u⟩ := c
    simp only [bufWrite]
    split
    · simp [bufRead, h]
    · split
      · next hij => subst hij; simp [bufRead, h]
      · simp [bufRead, ih]

theorem bufRead_bufWrite (b : Buf w) (i k : Nat) (v : BitVec w) :
    bufRead (bufWrite b i v) k = if k = i then some v else bufRead b k := by
  by_cases h : k = i
  · subst h; simp [bufRead_bufWrite_same]
  · simp [h, bufRead_bufWrite_ne b v h]

/-- Every index listed after a write was listed before or is the one written. -/
theorem mem_bufWrite (b : Buf w) {i : Nat} {v : BitVec w} {c : Nat × BitVec w}
    (h : c ∈ bufWrite b i v) : c = (i, v) ∨ c ∈ b := by
  induction b with
  | nil => simpa [bufWrite] using h
  | cons d rest ih =>
    obtain ⟨j, u⟩ := d
    simp only [bufWrite] at h
    split at h
    · simpa using h
    · split at h
      · rcases List.mem_cons.1 h with h | h
        · exact .inl h
        · exact .inr (List.mem_cons_of_mem _ h)
      · rcases List.mem_cons.1 h with h | h
        · exact .inr (by simp [h])
        · rcases ih h with h | h
          · exact .inl h
          · exact .inr (List.mem_cons_of_mem _ h)

theorem bufWf_cons (c : Nat × BitVec w) (rest : Buf w) :
    bufWf (c :: rest) = true ↔ (∀ d ∈ rest, c.1 < d.1) ∧ bufWf rest = true := by
  simp [bufWf]

/-- A write keeps the form. -/
theorem bufWrite_wf (b : Buf w) (i : Nat) (v : BitVec w) (h : bufWf b = true) :
    bufWf (bufWrite b i v) = true := by
  induction b with
  | nil => simp [bufWrite, bufWf]
  | cons c rest ih =>
    obtain ⟨j, u⟩ := c
    rw [bufWf_cons] at h
    obtain ⟨hlt, hwf⟩ := h
    simp only [bufWrite]
    split
    · next hij =>
      rw [bufWf_cons]
      refine ⟨fun d hd => ?_, (bufWf_cons _ _).2 ⟨hlt, hwf⟩⟩
      rcases List.mem_cons.1 hd with rfl | hd
      · exact hij
      · exact Nat.lt_trans hij (hlt d hd)
    · split
      · next hij => subst hij; exact (bufWf_cons _ _).2 ⟨hlt, hwf⟩
      · next h1 h2 =>
        refine (bufWf_cons _ _).2 ⟨fun d hd => ?_, ih hwf⟩
        rcases mem_bufWrite rest hd with rfl | hd
        · show j < i; omega
        · exact hlt d hd

theorem bufWrite_inRange (b : Buf w) {i : Nat} (v : BitVec w) (hi : i < 2 ^ 32)
    (h : bufInRange b) : bufInRange (bufWrite b i v) := by
  intro c hc
  rcases mem_bufWrite b hc with rfl | hc
  · exact hi
  · exact h c hc

/-- An index below every listed one is not listed. -/
theorem bufRead_eq_none_of_lt (b : Buf w) {i : Nat} (h : ∀ d ∈ b, i < d.1) :
    bufRead b i = none := by
  induction b with
  | nil => rfl
  | cons c rest ih =>
    obtain ⟨j, u⟩ := c
    have hj : i < j := h (j, u) (by simp)
    simp only [bufRead]
    rw [if_neg (by omega)]
    exact ih fun d hd => h d (by simp [hd])

/-- Equal contents are equal data. -/
theorem buf_ext (a b : Buf w) (ha : bufWf a = true) (hb : bufWf b = true)
    (h : ∀ i, bufRead a i = bufRead b i) : a = b := by
  induction a generalizing b with
  | nil =>
    cases b with
    | nil => rfl
    | cons d rest => simpa [bufRead] using h d.1
  | cons c ra ih =>
    cases b with
    | nil => simpa [bufRead] using h c.1
    | cons d rb =>
      obtain ⟨i, u⟩ := c
      obtain ⟨j, v⟩ := d
      rw [bufWf_cons] at ha hb
      have hij : i = j := by
        rcases Nat.lt_trichotomy i j with hlt | heq | hgt
        · have := h i
          rw [bufRead_eq_none_of_lt ((j, v) :: rb)] at this
          · simp [bufRead] at this
          · intro d hd
            rcases List.mem_cons.1 hd with rfl | hd
            · exact hlt
            · exact Nat.lt_trans hlt (hb.1 d hd)
        · exact heq
        · have := h j
          rw [bufRead_eq_none_of_lt ((i, u) :: ra)] at this
          · simp [bufRead] at this
          · intro d hd
            rcases List.mem_cons.1 hd with rfl | hd
            · exact hgt
            · exact Nat.lt_trans hgt (ha.1 d hd)
      subst hij
      have huv : u = v := by simpa [bufRead] using h i
      subst huv
      congr 1
      refine ih rb ha.2 hb.2 fun k => ?_
      by_cases hk : k = i
      · subst hk
        rw [bufRead_eq_none_of_lt ra ha.1, bufRead_eq_none_of_lt rb hb.1]
      · simpa [bufRead, hk] using h k

/-- What a filled run reads as: the value inside, the old contents outside (R185). -/
theorem bufRead_bufFill (b : Buf w) (start : Nat) (v : BitVec w) (n i : Nat) :
    bufRead (bufFill b start v n) i =
      if start ≤ i ∧ i < start + n then some v else bufRead b i := by
  induction n with
  | zero => simp only [bufFill]; rw [if_neg (by omega)]
  | succ n ih =>
    rw [bufFill, bufRead_bufWrite, ih]
    by_cases h : i = start + n
    · rw [if_pos h, if_pos (by omega)]
    · rw [if_neg h]
      by_cases h' : start ≤ i ∧ i < start + n
      · rw [if_pos h', if_pos (by omega)]
      · rw [if_neg h', if_neg (by omega)]

theorem bufFill_wf (b : Buf w) (start : Nat) (v : BitVec w) (n : Nat) (h : bufWf b = true) :
    bufWf (bufFill b start v n) = true := by
  induction n with
  | zero => exact h
  | succ n ih => exact bufWrite_wf _ _ _ ih

theorem bufFill_inRange (b : Buf w) {start n : Nat} (v : BitVec w) (hn : start + n ≤ 2 ^ 32)
    (h : bufInRange b) : bufInRange (bufFill b start v n) := by
  induction n with
  | zero => exact h
  | succ n ih => exact bufWrite_inRange _ _ (by omega) (ih (by omega))

/-- What a copied stretch reads as: `src` where it has an element inside, `dst` elsewhere. -/
theorem bufRead_bufCopy (src dst : Buf w) (start n i : Nat) :
    bufRead (bufCopy src dst start n) i =
      if start ≤ i ∧ i < start + n then (bufRead src i).or (bufRead dst i) else bufRead dst i := by
  induction n with
  | zero => simp only [bufCopy]; rw [if_neg (by omega)]
  | succ n ih =>
    have key : i ≠ start + n →
        (if start ≤ i ∧ i < start + (n + 1) then (bufRead src i).or (bufRead dst i)
          else bufRead dst i) =
        (if start ≤ i ∧ i < start + n then (bufRead src i).or (bufRead dst i)
          else bufRead dst i) := by
      intro h
      by_cases h' : start ≤ i ∧ i < start + n
      · rw [if_pos h', if_pos (by omega)]
      · rw [if_neg h', if_neg (by omega)]
    rw [bufCopy]
    split
    · next v hv =>
      rw [bufRead_bufWrite]
      by_cases h : i = start + n
      · subst h; rw [if_pos rfl, if_pos (by omega), hv]; rfl
      · rw [if_neg h, ih, key h]
    · next hv =>
      by_cases h : i = start + n
      · subst h; rw [ih, if_neg (by omega), if_pos (by omega), hv]; rfl
      · rw [ih, key h]

theorem bufCopy_wf (src dst : Buf w) (start n : Nat) (h : bufWf dst = true) :
    bufWf (bufCopy src dst start n) = true := by
  induction n with
  | zero => exact h
  | succ n ih =>
    rw [bufCopy]
    split
    · exact bufWrite_wf _ _ _ ih
    · exact ih

theorem bufCopy_inRange (src dst : Buf w) {start n : Nat} (hn : start + n ≤ 2 ^ 32)
    (h : bufInRange dst) : bufInRange (bufCopy src dst start n) := by
  induction n with
  | zero => exact h
  | succ n ih =>
    rw [bufCopy]
    split
    · exact bufWrite_inRange _ _ (by omega) (ih (by omega))
    · exact ih (by omega)

theorem resetBuf_wf (kept : List Space) (b : Space) {buf : Buf w} (h : bufWf buf = true) :
    bufWf (resetBuf kept b buf) = true := by
  unfold resetBuf; split
  · exact h
  · rfl

theorem resetBuf_inRange (kept : List Space) (b : Space) {buf : Buf w} (h : bufInRange buf) :
    bufInRange (resetBuf kept b buf) := by
  unfold resetBuf; split
  · exact h
  · nofun

/-- Hardware reset leaves the buffers in their form. -/
theorem hardReset_buffersWf (kept : List Space) (s : State) (h : s.buffersWf = true) :
    (s.hardReset kept).buffersWf = true := by
  simp only [State.buffersWf, Bool.and_eq_true] at h
  simp [State.buffersWf, resetBuf_wf, h]

/-- The buffers of the machine after reset are in their form. -/
theorem reset_buffersWf : State.reset.buffersWf = true := rfl

end Sys2Proof.Machine
end

