-- ==== Sys2Proof/Laws/Micro.lean ====
section
/-! SUPPORT. What each shared operation of the units can do, said once. -/

namespace Sys2Proof.Machine

/-! ### The end of a step -/

@[simp] theorem andThen_ok (s : State) (f : State → Ended) : andThen (.ok s) f = f s := rfl

@[simp] theorem andThen_raised (c : FaultCode) (s : State) (f : State → Ended) :
    andThen (.raised c s) f = .raised c s := rfl

@[simp] theorem settle_ok (u : UnitId) (s : State) : settle u (.ok s) = s := rfl

@[simp] theorem settle_raised (u : UnitId) (c : FaultCode) (s : State) :
    settle u (.raised c s) = s.takeFault u c := rfl

/-- A sequence ends normally only if both parts do. -/
theorem andThen_eq_ok {m : Ended} {f : State → Ended} {t : State} (h : andThen m f = .ok t) :
    ∃ s, m = .ok s ∧ f s = .ok t := by
  cases m with
  | ok s => exact ⟨s, rfl, h⟩
  | raised c s => cases h

/-- A sequence raises what its first part raises, or what its second part does. -/
theorem andThen_eq_raised {m : Ended} {f : State → Ended} {c : FaultCode} {t : State}
    (h : andThen m f = .raised c t) :
    m = .raised c t ∨ ∃ s, m = .ok s ∧ f s = .raised c t := by
  cases m with
  | ok s => exact .inr ⟨s, rfl, h⟩
  | raised c' s => exact .inl h

/-! ### Encoder side -/

/-- Writing a word: OUT_FULL with nothing changed, or the word stored and the register emptied. -/
theorem writeWord_cases (v : Word) (e : EncUnit) (out : Buf 32) :
    (e.wr = e.outCap ∧ writeWord v e out = .full e out) ∨
    (e.wr ≠ e.outCap ∧ writeWord v e out =
      .ok { e with wr := e.wr + 1, word := 0, nib := 0 } (bufWrite out e.wr.toNat v)) := by
  by_cases h : e.wr = e.outCap
  · exact .inl ⟨h, if_pos h⟩
  · exact .inr ⟨h, if_neg h⟩

/-- PUTNIB (R120): keep the nibble, or write the word it fills, or raise OUT_FULL. -/
theorem putNib_cases (fill : NibbleFill) (nb : Nibble) (e : EncUnit) (out : Buf 32) :
    (e.nib ≠ 7 ∧ putNib fill nb e out =
      .ok { e with word := appendNibble fill e.word e.nib.toNat nb, nib := e.nib + 1 } out) ∨
    (e.nib = 7 ∧ e.wr = e.outCap ∧ putNib fill nb e out =
      .full { e with word := appendNibble fill e.word e.nib.toNat nb } out) ∨
    (e.nib = 7 ∧ e.wr ≠ e.outCap ∧ putNib fill nb e out =
      .ok { e with wr := e.wr + 1, word := 0, nib := 0 }
        (bufWrite out e.wr.toNat (appendNibble fill e.word e.nib.toNat nb))) := by
  by_cases h : e.nib = 7
  · by_cases hw : e.wr = e.outCap
    · exact .inr (.inl ⟨h, hw, by simp [putNib, writeWord, h, hw]⟩)
    · exact .inr (.inr ⟨h, hw, by simp [putNib, writeWord, h, hw]⟩)
  · exact .inl ⟨h, by simp only [putNib]; rw [if_neg h]⟩

theorem putNibs_append (fill : NibbleFill) (a b : List Nibble) (e : EncUnit) (out : Buf 32) :
    putNibs fill (a ++ b) e out =
      match putNibs fill a e out with
      | .ok e' out' => putNibs fill b e' out'
      | .full e' out' => .full e' out' := by
  induction a generalizing e out with
  | nil => rfl
  | cons nb rest ih =>
    simp only [List.cons_append, putNibs]
    cases putNib fill nb e out with
    | ok e' out' => exact ih e' out'
    | full e' out' => rfl

/-- The unit a `Put` carries. -/
def Put.unit : Put → EncUnit
  | .ok e _ => e
  | .full e _ => e

/-- PUTNIB leaves the cursor, the predictor, the run, the status and the configuration alone. -/
theorem putNib_frame (fill : NibbleFill) (nb : Nibble) (e : EncUnit) (out : Buf 32) :
    (putNib fill nb e out).unit =
      { e with word := (putNib fill nb e out).unit.word,
               nib := (putNib fill nb e out).unit.nib,
               wr := (putNib fill nb e out).unit.wr } := by
  rcases putNib_cases fill nb e out with ⟨_, h⟩ | ⟨_, _, h⟩ | ⟨_, _, h⟩ <;> rw [h] <;> rfl

theorem putNibs_frame (fill : NibbleFill) (b : List Nibble) (e : EncUnit) (out : Buf 32) :
    (putNibs fill b e out).unit =
      { e with word := (putNibs fill b e out).unit.word,
               nib := (putNibs fill b e out).unit.nib,
               wr := (putNibs fill b e out).unit.wr } := by
  induction b generalizing e out with
  | nil => rfl
  | cons nb rest ih =>
    have h1 := putNib_frame fill nb e out
    simp only [putNibs]
    cases hp : putNib fill nb e out with
    | ok e' out' =>
      rw [hp] at h1
      have h2 := ih e' out'
      simp only [Put.unit] at h1
      rw [h1] at h2 ⊢
      simpa using h2
    | full e' out' => rw [hp] at h1; exact h1

/-- Every word written by PUTNIBs lies at or above the old write index. -/
theorem putNibs_keeps_form (fill : NibbleFill) (b : List Nibble) (e : EncUnit) (out : Buf 32)
    (h : bufWf out = true) :
    match putNibs fill b e out with
    | .ok _ out' => bufWf out' = true
    | .full _ out' => bufWf out' = true := by
  induction b generalizing e out with
  | nil => exact h
  | cons nb rest ih =>
    simp only [putNibs]
    rcases putNib_cases fill nb e out with ⟨_, hp⟩ | ⟨_, _, hp⟩ | ⟨_, _, hp⟩ <;> rw [hp]
    · exact ih _ _ h
    · exact h
    · exact ih _ _ (bufWrite_wf _ _ _ h)

/-! ### Decoder side -/

/-- GETNIB (R123): EXHAUSTED, or a nibble of a freshly fetched word, or of the word at hand. -/
theorem getNib_cases (fill : NibbleFill) (mem : Nat → Word) (d : DecUnit) :
    (d.nib = 0 ∧ d.rd = d.inWords ∧ getNib fill mem d = none) ∨
    (d.nib = 0 ∧ d.rd ≠ d.inWords ∧ getNib fill mem d =
      some (shiftNibble fill { d with word := mem d.rd.toNat, rd := d.rd + 1, nib := 8 })) ∨
    (d.nib ≠ 0 ∧ getNib fill mem d = some (shiftNibble fill d)) := by
  by_cases h : d.nib = 0
  · by_cases hr : d.rd = d.inWords
    · exact .inl ⟨h, hr, by simp [getNib, h, hr]⟩
    · exact .inr (.inl ⟨h, hr, by simp [getNib, h, hr]⟩)
  · exact .inr (.inr ⟨h, by simp only [getNib]; rw [if_neg h]⟩)

theorem shiftNibble_frame (fill : NibbleFill) (d : DecUnit) :
    (shiftNibble fill d).2 =
      { d with word := (shiftNibble fill d).2.word, nib := d.nib - 1 } := by
  cases fill <;> rfl

/-- GETNIB changes the word register, its nibble count and the word index only. -/
theorem getNib_frame (fill : NibbleFill) (mem : Nat → Word) {d d' : DecUnit} {nb : Nibble}
    (h : getNib fill mem d = some (nb, d')) :
    d' = { d with word := d'.word, nib := d'.nib, rd := d'.rd } := by
  rcases getNib_cases fill mem d with ⟨_, _, hg⟩ | ⟨_, _, hg⟩ | ⟨_, hg⟩ <;> rw [hg] at h
  · cases h
  · have h' : shiftNibble fill { d with word := mem d.rd.toNat, rd := d.rd + 1, nib := 8 } =
        (nb, d') := Option.some.inj h
    have hf := shiftNibble_frame fill { d with word := mem d.rd.toNat, rd := d.rd + 1, nib := 8 }
    rw [h'] at hf
    change d' = _ at hf
    rw [hf]
  · have h' : shiftNibble fill d = (nb, d') := Option.some.inj h
    have hf := shiftNibble_frame fill d
    rw [h'] at hf
    change d' = _ at hf
    rw [hf]

/-- The words not yet fetched are none only where the word index has reached their number. -/
theorem words_left {a b : Count} (h : b ≠ a) : (a - b).toNat ≠ 0 := by
  intro hz
  have h0 : a - b = 0 := BitVec.eq_of_toNat_eq (by simpa using hz)
  exact h (sub_eq_zero.mp h0).symm

/-- GETNIB succeeds exactly while nibbles are left. -/
theorem getNib_eq_none_iff (fill : NibbleFill) (mem : Nat → Word) (d : DecUnit) :
    getNib fill mem d = none ↔ nibblesLeft d = 0 := by
  rcases getNib_cases fill mem d with ⟨h0, hr, hg⟩ | ⟨h0, hr, hg⟩ | ⟨h0, hg⟩ <;> rw [hg]
  · simp [nibblesLeft, h0, hr]
  · have := words_left hr
    exact ⟨nofun, fun h => by simp only [nibblesLeft] at h; omega⟩
  · have : d.nib.toNat ≠ 0 := fun hz => h0 (BitVec.eq_of_toNat_eq (by simpa using hz))
    simp [nibblesLeft]; omega

/-- GETNIB consumes exactly one nibble. -/
theorem getNib_nibblesLeft (fill : NibbleFill) (mem : Nat → Word) {d d' : DecUnit} {nb : Nibble}
    (h : getNib fill mem d = some (nb, d')) : nibblesLeft d' + 1 = nibblesLeft d := by
  rcases getNib_cases fill mem d with ⟨_, _, hg⟩ | ⟨h0, hr, hg⟩ | ⟨h0, hg⟩ <;> rw [hg] at h
  · cases h
  · have h' : shiftNibble fill { d with word := mem d.rd.toNat, rd := d.rd + 1, nib := 8 } =
        (nb, d') := Option.some.inj h
    have hf := shiftNibble_frame fill { d with word := mem d.rd.toNat, rd := d.rd + 1, nib := 8 }
    rw [h'] at hf
    change d' = _ at hf
    have hn7 : d'.nib = 7 := by
      have h8 : d'.nib = (8 : BitVec 4) - 1 := (congrArg DecUnit.nib hf).trans rfl
      rw [h8]; decide
    have hn : d'.nib.toNat = 7 := by rw [hn7]; rfl
    have hi : d'.inWords = d.inWords := (congrArg DecUnit.inWords hf).trans rfl
    have hr1 : d'.rd = d.rd + 1 := (congrArg DecUnit.rd hf).trans rfl
    have hd : d'.inWords - d'.rd = d.inWords - d.rd - 1 := by rw [hi, hr1, sub_add_eq_sub_sub]
    have hpos := words_left hr
    have h1 : (d.inWords - d.rd - 1).toNat = (d.inWords - d.rd).toNat - 1 := by
      simp only [bitvec_to_nat, Config.countW] at *; omega
    have h00 : d.nib.toNat = 0 := by rw [h0]; rfl
    simp only [nibblesLeft, hn, hd, h1, h00]
    omega
  · have h' : shiftNibble fill d = (nb, d') := Option.some.inj h
    have hf := shiftNibble_frame fill d
    rw [h'] at hf
    change d' = _ at hf
    have hpos : d.nib.toNat ≠ 0 := fun hz => h0 (BitVec.eq_of_toNat_eq (by simpa using hz))
    have hn' : d'.nib = d.nib - 1 := (congrArg DecUnit.nib hf).trans rfl
    have hn : d'.nib.toNat = d.nib.toNat - 1 := by rw [hn']; bv_omega
    have h1 : d'.inWords = d.inWords := (congrArg DecUnit.inWords hf).trans rfl
    have h2 : d'.rd = d.rd := (congrArg DecUnit.rd hf).trans rfl
    simp only [nibblesLeft, hn, h1, h2]
    omega

/-- GETNIB does not look at the scratch registers. -/
theorem getNib_scratch (fill : NibbleFill) (mem : Nat → Word) (d : DecUnit) (a : Word) (o : Bool)
    (k : BitVec 6) :
    getNib fill mem { d with acc := a, ovf := o, sh := k } =
      (getNib fill mem d).map fun r => (r.1, { r.2 with acc := a, ovf := o, sh := k }) := by
  cases fill <;> simp only [getNib, shiftNibble] <;> split <;> try split
  all_goals rfl

theorem nibblesAhead_scratch (fill : NibbleFill) (mem : Nat → Word) (n : Nat) (d : DecUnit)
    (a : Word) (o : Bool) (k : BitVec 6) :
    nibblesAhead fill mem n { d with acc := a, ovf := o, sh := k } = nibblesAhead fill mem n d := by
  induction n generalizing d with
  | zero => rfl
  | succ n ih =>
    simp only [nibblesAhead, getNib_scratch]
    cases getNib fill mem d with
    | none => rfl
    | some r => simp [ih]

/-- The stream ahead has exactly the nibbles that are left. -/
theorem nibblesAhead_length (fill : NibbleFill) (mem : Nat → Word) (d : DecUnit) :
    (nibblesAhead fill mem (nibblesLeft d) d).length = nibblesLeft d := by
  generalize hn : nibblesLeft d = n
  induction n generalizing d with
  | zero => rfl
  | succ n ih =>
    simp only [nibblesAhead]
    cases hg : getNib fill mem d with
    | none => rw [(getNib_eq_none_iff fill mem d).1 hg] at hn; cases hn
    | some r =>
      obtain ⟨nb, d'⟩ := r
      have := getNib_nibblesLeft fill mem hg
      simp [ih d' (by omega)]

/-- Reading a codeword succeeds where its nibbles are left, and consumes exactly those. -/
theorem takeNibbles_ok (fill : NibbleFill) (mem : Nat → Word) (cw : Codeword) (d : DecUnit)
    (h : cw.length ≤ nibblesLeft d) :
    ∃ d', takeNibbles fill mem cw d = .ok d' ∧ nibblesLeft d' + cw.length = nibblesLeft d := by
  induction cw generalizing d with
  | nil => exact ⟨d, rfl, rfl⟩
  | cons p ps ih =>
    simp only [List.length_cons] at h
    cases hg : getNib fill mem d with
    | none => rw [(getNib_eq_none_iff fill mem d).1 hg] at h; omega
    | some r =>
      obtain ⟨nb, d1⟩ := r
      have h1 := getNib_nibblesLeft fill mem hg
      have h2 : nibblesLeft (accumulate p d1) = nibblesLeft d1 := rfl
      obtain ⟨d', ht, hl⟩ := ih (accumulate p d1) (by omega)
      exact ⟨d', by simp only [takeNibbles, hg, ht], by simp only [List.length_cons]; omega⟩

/-- Reading a codeword that is cut short consumes every nibble and raises EXHAUSTED. -/
theorem takeNibbles_exhausted (fill : NibbleFill) (mem : Nat → Word) (cw : Codeword) (d : DecUnit)
    (h : nibblesLeft d < cw.length) :
    ∃ d', takeNibbles fill mem cw d = .exhausted d' ∧ nibblesLeft d' = 0 := by
  induction cw generalizing d with
  | nil => cases h
  | cons p ps ih =>
    simp only [List.length_cons] at h
    cases hg : getNib fill mem d with
    | none => exact ⟨d, by simp only [takeNibbles, hg], (getNib_eq_none_iff fill mem d).1 hg⟩
    | some r =>
      obtain ⟨nb, d1⟩ := r
      have h1 := getNib_nibblesLeft fill mem hg
      have h2 : nibblesLeft (accumulate p d1) = nibblesLeft d1 := rfl
      obtain ⟨d', ht, hl⟩ := ih (accumulate p d1) (by omega)
      exact ⟨d', by simp only [takeNibbles, hg, ht], hl⟩

/-- No nibble is left exactly when the word register is used up and every word is fetched (R222). -/
theorem nibblesLeft_eq_zero_iff (d : DecUnit) :
    nibblesLeft d = 0 ↔ d.nib = 0 ∧ d.rd = d.inWords := by
  constructor
  · intro h
    rcases getNib_cases .lowFirst (fun _ => 0) d with ⟨h0, hr, _⟩ | ⟨_, _, hg⟩ | ⟨_, hg⟩
    · exact ⟨h0, hr⟩
    · rw [(getNib_eq_none_iff .lowFirst (fun _ => 0) d).2 h] at hg; cases hg
    · rw [(getNib_eq_none_iff .lowFirst (fun _ => 0) d).2 h] at hg; cases hg
  · rintro ⟨h0, hr⟩
    simp [nibblesLeft, h0, hr]

end Sys2Proof.Machine
end

