-- ==== Sys2Proof/Laws/Ops.lean ====
section
/-! SUPPORT. What DECVLE, ENCVLE, FLUSH, the operand of a symbol and the bodies of the symbol steps can
do, said once: if one of them ends so, then its state is this. -/

namespace Sys2Proof.Machine

/-! ### DECVLE -/

/-- Reading nibbles touches the cursor and the scratch only, however it ends. -/
theorem takeNibbles_frame (fill : NibbleFill) (mem : Nat → Word) (cw : Codeword) {d d' : DecUnit}
    (h : takeNibbles fill mem cw d = .ok d' ∨ takeNibbles fill mem cw d = .exhausted d') :
    d' = { d with word := d'.word, nib := d'.nib, rd := d'.rd,
                  acc := d'.acc, ovf := d'.ovf, sh := d'.sh } := by
  induction cw generalizing d with
  | nil =>
    rcases h with h | h
    · cases h; rfl
    · cases h
  | cons p ps ih =>
    cases hg : getNib fill mem d with
    | none =>
      simp only [takeNibbles, hg] at h
      rcases h with h | h
      · cases h
      · cases h; rfl
    | some r =>
      obtain ⟨nb, d1⟩ := r
      simp only [takeNibbles, hg] at h
      have h2 := ih h
      have h1 := getNib_frame fill mem hg
      rw [h1] at h2
      exact h2.trans rfl

/-- DECVLE: the codeword's nibbles are there and consumed, or they are not and all are consumed;
nothing but the cursor and the scratch changes. -/
theorem decVle_cases (cw : Codeword) (s : State) :
    (cw.length ≤ nibblesLeft s.dec ∧ ∃ d, decVle cw s = .ok { s with dec := d } ∧
      nibblesLeft d + cw.length = nibblesLeft s.dec ∧
      d = { s.dec with word := d.word, nib := d.nib, rd := d.rd,
                       acc := d.acc, ovf := d.ovf, sh := d.sh }) ∨
    (nibblesLeft s.dec < cw.length ∧ ∃ d, decVle cw s = .raised .exhausted { s with dec := d } ∧
      d.nib = 0 ∧ d.rd = d.inWords ∧
      d = { s.dec with word := d.word, nib := d.nib, rd := d.rd,
                       acc := d.acc, ovf := d.ovf, sh := d.sh }) := by
  have hc : nibblesLeft s.dec.clearScratch = nibblesLeft s.dec := rfl
  rcases Nat.lt_or_ge (nibblesLeft s.dec) cw.length with hlt | hge
  · obtain ⟨d, ht, hl⟩ := takeNibbles_exhausted Config.nibbleFill s.readDecIn cw
      s.dec.clearScratch (by omega)
    obtain ⟨h0, hr⟩ := (nibblesLeft_eq_zero_iff d).1 hl
    have hf := takeNibbles_frame _ _ _ (.inr ht)
    exact .inr ⟨hlt, d, by simp only [decVle, ht], h0, hr, hf.trans rfl⟩
  · obtain ⟨d, ht, hl⟩ := takeNibbles_ok Config.nibbleFill s.readDecIn cw
      s.dec.clearScratch (by omega)
    have hf := takeNibbles_frame _ _ _ (.inl ht)
    exact .inl ⟨hge, d, by simp only [decVle, ht], by omega, hf.trans rfl⟩

/-- A codeword row: the codeword is held with its nibbles consumed, or EXHAUSTED is taken. -/
theorem readCodeword_cases (cw : Codeword) (s : State) :
    (∃ d, decVle cw s = .ok { s with dec := d } ∧
      readCodeword cw s = { s with dec := { d with held := some cw } }) ∨
    (∃ d, decVle cw s = .raised .exhausted { s with dec := d } ∧
      readCodeword cw s = State.takeFault { s with dec := d } .dec .exhausted) := by
  rcases decVle_cases cw s with ⟨_, d, h, _, _⟩ | ⟨_, d, h, _, _, _⟩
  · exact .inl ⟨d, h, by simp only [readCodeword, h, andThen_ok, settle_ok]⟩
  · exact .inr ⟨d, h, by simp only [readCodeword, h, andThen_raised, settle_raised]⟩

/-! ### The symbol steps -/

/-- The operand of a symbol: what a codeword turn left, or what DECVLE gives. -/
theorem symbolOperand_cases (cw : Codeword) (s : State) :
    (s.dec.held = none ∧ symbolOperand cw s = decVle cw s) ∨
    (s.dec.held ≠ none ∧ symbolOperand cw s = .ok { s with dec := { s.dec with held := none } }) := by
  unfold symbolOperand
  cases h : s.dec.held with
  | none => exact .inl ⟨rfl, rfl⟩
  | some c => exact .inr ⟨nofun, rfl⟩

/-- The ZRUN step after its DECVLE: OVERRUN with nothing changed, or the zeros written (R185). -/
theorem zRunBody_cases (s : State) :
    (overRemaining s.dec = true ∧ zRunBody s = .raised .overrun s) ∨
    (overRemaining s.dec = false ∧ zRunBody s = .ok { s with
      decOut := bufFill s.decOut s.dec.cnt.toNat 0 s.dec.acc.toNat
      dec := { s.dec with cnt := s.dec.cnt + s.dec.acc, phase := .nrun } }) := by
  unfold zRunBody
  cases overRemaining s.dec with
  | true => exact .inl ⟨rfl, rfl⟩
  | false => exact .inr ⟨rfl, rfl⟩

/-- The NRUN step after its DECVLE: OVERRUN with nothing changed, or the run loaded (R186). -/
theorem nRunBody_cases (s : State) :
    (overRemaining s.dec = true ∧ nRunBody s = .raised .overrun s) ∨
    (overRemaining s.dec = false ∧ nRunBody s = .ok { s with
      dec := { s.dec with run := s.dec.acc,
                          phase := if s.dec.acc = 0 then .pair else .delta } }) := by
  unfold nRunBody
  cases overRemaining s.dec with
  | true => exact .inl ⟨rfl, rfl⟩
  | false => exact .inr ⟨rfl, rfl⟩

/-- The DELTA step after its DECVLE: RANGE with nothing changed, or the sample written (R187). -/
theorem deltaBody_cases (s : State) :
    (reconstruct s.dec = none ∧ deltaBody s = .raised .range s) ∨
    (∃ v, reconstruct s.dec = some v ∧ deltaBody s = .ok { s with
      decOut := bufWrite s.decOut s.dec.cnt.toNat v
      dec := { s.dec with
        prev := v, cnt := s.dec.cnt + 1, run := s.dec.run - 1
        phase := if s.dec.run - 1 = 0 then .pair else .delta } }) := by
  unfold deltaBody
  cases reconstruct s.dec with
  | none => exact .inl ⟨rfl, rfl⟩
  | some v => exact .inr ⟨v, rfl, rfl⟩

/-! ### ENCVLE and FLUSH -/

/-- The machine after an encoder micro-operation: only ENC and ENC_OUT changed, in ENC only the word
register, its count and the write index. -/
theorem encVle_cases (x : Nat) (s : State) :
    ∃ e out, (encVle x s = .ok { s with enc := e, encOut := out } ∨
        encVle x s = .raised .outFull { s with enc := e, encOut := out }) ∧
      e = { s.enc with word := e.word, nib := e.nib, wr := e.wr } := by
  have hf := putNibs_frame Config.nibbleFill (vleNibbles x) s.enc s.encOut
  unfold encVle
  cases hp : putNibs Config.nibbleFill (vleNibbles x) s.enc s.encOut with
  | ok e out => rw [hp] at hf; exact ⟨e, out, .inl rfl, hf⟩
  | full e out => rw [hp] at hf; exact ⟨e, out, .inr rfl, hf⟩

/-- FLUSH: nothing to write, the partial word written, or OUT_FULL with nothing changed (R122). -/
theorem encFlush_cases (s : State) :
    (s.enc.nib = 0 ∧ encFlush s = .ok s) ∨
    (s.enc.nib ≠ 0 ∧ s.enc.wr ≠ s.enc.outCap ∧ encFlush s = .ok { s with
      enc := { s.enc with wr := s.enc.wr + 1, word := 0, nib := 0 }
      encOut := bufWrite s.encOut s.enc.wr.toNat s.enc.word }) ∨
    (s.enc.nib ≠ 0 ∧ s.enc.wr = s.enc.outCap ∧ encFlush s = .raised .outFull s) := by
  unfold encFlush flushNibs
  by_cases h : s.enc.nib = 0
  · rw [if_pos h]; exact .inl ⟨h, rfl⟩
  · rw [if_neg h]
    rcases writeWord_cases (flushWord Config.nibbleFill s.enc.word s.enc.nib.toNat) s.enc s.encOut with
      ⟨hw, he⟩ | ⟨hw, he⟩ <;> rw [he]
    · exact .inr (.inr ⟨h, hw, rfl⟩)
    · exact .inr (.inl ⟨h, hw, rfl⟩)

end Sys2Proof.Machine
end

