-- ==== Sys2Proof/Laws/Turns.lean ====
section
/-! SUPPORT. What one step can do, said once. -/

namespace Sys2Proof.Machine

/-- Every instruction answers a next state. -/
theorem exec_next (i : Instr) (s : State) : ∃ t, exec i s = .next t := by
  cases i <;> simp only [exec]
  case encStart => unfold execEncStart; split <;> exact ⟨_, rfl⟩
  case decStart => unfold execDecStart; split <;> exact ⟨_, rfl⟩
  all_goals exact ⟨_, rfl⟩

/-- Whatever was fetched for DEC, it answers a next state. -/
theorem runFetched_next (f : Fetched) (s : State) : ∃ t, runFetched f s = .next t := by
  cases f
  case instr i => exact exec_next i s
  all_goals exact ⟨_, rfl⟩

@[simp] theorem step_nil (s : State) (h : s.turns = []) : step s = .next s := by
  simp [step, h]

theorem step_cons (s : State) {t : Turn} {rest : List Turn} (h : s.turns = t :: rest) :
    step s = runTurn t { s with turns := rest } := by
  simp [step, h]

@[simp] theorem step_withTurns_cons (s : State) (t : Turn) (rest : List Turn) :
    step (s.withTurns (t :: rest)) = runTurn t (s.withTurns rest) := rfl

/-- A step that answers a next state ran the first turn, or there was none. -/
theorem step_cases {s t : State} (h : step s = .next t) :
    (s.turns = [] ∧ t = s) ∨
    (∃ u rest, s.turns = u :: rest ∧ runTurn u { s with turns := rest } = .next t) := by
  cases hs : s.turns with
  | nil => rw [step_nil s hs] at h; cases h; exact .inl ⟨rfl, rfl⟩
  | cons u rest => rw [step_cons s hs] at h; exact .inr ⟨u, rest, rfl, h⟩

/-- Only a host access to a busy unit's buffers is refused (R262). -/
theorem runTurn_refused {u : Turn} {s : State} {r : Refusal} (h : runTurn u s = .refused r) :
    (∃ b i, u = .host (.sampleRead b i)) ∨ (∃ b i v, u = .host (.sampleWrite b i v)) ∨
    (∃ b i, u = .host (.wordRead b i)) ∨ (∃ b i v, u = .host (.wordWrite b i v)) := by
  cases u with
  | enc => cases h
  | dec => obtain ⟨t, ht⟩ := runFetched_next (fetchDec s) s; rw [runTurn, ht] at h; cases h
  | decCodeword =>
    obtain ⟨t, ht⟩ := runFetched_next (fetchDecCodeword s) s; rw [runTurn, ht] at h; cases h
  | partialWrites u k => cases h
  | hardReset kept => cases h
  | host a =>
    cases a with
    | regRead i => cases h
    | regWrite i v =>
      simp only [runTurn, runHost] at h
      split at h
      · next c _ => obtain ⟨t, ht⟩ := exec_next c s; rw [ht] at h; cases h
      · cases h
    | sampleRead b i => exact .inl ⟨b, i, rfl⟩
    | sampleWrite b i v => exact .inr (.inl ⟨b, i, v, rfl⟩)
    | wordRead b i => exact .inr (.inr (.inl ⟨b, i, rfl⟩))
    | wordWrite b i v => exact .inr (.inr (.inr ⟨b, i, v, rfl⟩))

end Sys2Proof.Machine
end

