-- ==== Sys2Proof/Laws/PerInstr.lean ====
section
/-! SUPPORT. Facts about every instruction as syntax, one lemma per constructor. -/

namespace Sys2Proof.Laws

/-- The encoder writes one nibble per payload (R92). -/
theorem codewordNibbles_length (cw : Codeword) : (codewordNibbles cw).length = cw.length := by
  induction cw with
  | nil => rfl
  | cons p ps ih =>
    cases ps with
    | nil => rfl
    | cons q qs => simp only [codewordNibbles, List.length_cons] at ih ⊢; omega

/-- How many nibbles an instruction is written as: its payloads', one for padding, none for a command
(R92, R98, R107). -/
def NibbleCount.Statement (i : Instr) : Prop :=
  (encodeNibbles i).length = if i = .pad then 1 else (instrCodeword i).length

theorem NibbleCount.vle1 (a : Payload) : NibbleCount.Statement (.vle1 a) :=
  rfl

theorem NibbleCount.vle2 (a b : Payload) : NibbleCount.Statement (.vle2 a b) :=
  rfl

theorem NibbleCount.vle3 (a b c : Payload) : NibbleCount.Statement (.vle3 a b c) :=
  rfl

theorem NibbleCount.vle4 (a b c d : Payload) : NibbleCount.Statement (.vle4 a b c d) :=
  rfl

theorem NibbleCount.vle5 (a b c d e : Payload) : NibbleCount.Statement (.vle5 a b c d e) :=
  rfl

theorem NibbleCount.vle6 (a b c d e f : Payload) : NibbleCount.Statement (.vle6 a b c d e f) :=
  rfl

theorem NibbleCount.vle7 (a b c d e f g : Payload) : NibbleCount.Statement (.vle7 a b c d e f g) :=
  rfl

theorem NibbleCount.vle8 (a b c d e f g h : Payload) : NibbleCount.Statement (.vle8 a b c d e f g h) :=
  rfl

theorem NibbleCount.vle9 (a b c d e f g h i : Payload) : NibbleCount.Statement (.vle9 a b c d e f g h i) :=
  rfl

theorem NibbleCount.vle10 (a b c d e f g h i j : Payload) : NibbleCount.Statement (.vle10 a b c d e f g h i j) :=
  rfl

theorem NibbleCount.vle11 (a b c d e f g h i j k : Payload) : NibbleCount.Statement (.vle11 a b c d e f g h i j k) :=
  rfl

theorem NibbleCount.z (cw : Codeword) : NibbleCount.Statement (.z cw) :=
  codewordNibbles_length cw

theorem NibbleCount.n (cw : Codeword) : NibbleCount.Statement (.n cw) :=
  codewordNibbles_length cw

theorem NibbleCount.d (cw : Codeword) : NibbleCount.Statement (.d cw) :=
  codewordNibbles_length cw

theorem NibbleCount.pad : NibbleCount.Statement (.pad) :=
  rfl

theorem NibbleCount.encStart : NibbleCount.Statement (.encStart) :=
  rfl

theorem NibbleCount.encSrst : NibbleCount.Statement (.encSrst) :=
  rfl

theorem NibbleCount.decStart : NibbleCount.Statement (.decStart) :=
  rfl

theorem NibbleCount.decSrst : NibbleCount.Statement (.decSrst) :=
  rfl

end Sys2Proof.Laws
end

