-- ==== Sys2Proof/Tests/Slice0.lean ====
section
/-! SUPPORT. Own tests: ill-formed terms, decoding of words written out from the spec's encodings, one
step of each instruction, and for every statement with hypotheses a state that meets them. Expected
values are the spec's: the examples inside its rules and the vectors V<n> of spec/95_test_vectors.md. -/

open Sys2Proof Sys2Proof.Machine

namespace Sys2Proof.Tests

/-! ### Helpers -/

/-- The next state, if there is one. -/
def nextOf (o : Host.Outcome State Fault Refusal) : Option State :=
  match o with
  | .next t => some t
  | _ => none

/-- Elements 0, 1, … of a buffer. -/
def listed {w : Nat} (xs : List (BitVec w)) : Buf w := xs.zipIdx.map fun p => (p.2, p.1)

/-- DEC running in a phase over these input words, at their start. -/
def decAt (phase : DecPhase) (words : List Word) (n : Count) : State :=
  { State.reset with
    decIn := listed words
    dec := { DecUnit.reset with
      phase := phase, inWords := BitVec.ofNat 32 words.length, numPixels := n
      status := Status.started } }

/-- ENC running in a phase over these samples. -/
def encAt (phase : EncPhase) (xs : List Sample) (cap : Count) : State :=
  { State.reset with
    encIn := listed xs
    enc := { EncUnit.reset with
      phase := phase, numPixels := BitVec.ofNat 32 xs.length, outCap := cap
      status := Status.started } }

/-- Both units idle, configured for these samples and these words. -/
def idleWith (xs : List Sample) (cap : Count) (words : List Word) (n : Count) : State :=
  { State.reset with
    encIn := listed xs
    decIn := listed words
    enc := { EncUnit.reset with numPixels := BitVec.ofNat 32 xs.length, outCap := cap }
    dec := { DecUnit.reset with inWords := BitVec.ofNat 32 words.length, numPixels := n } }

/-- A DEC state with a predictor. -/
def withPrev (s : State) (p : Sample) : State := { s with dec := { s.dec with prev := p } }

/-- A DEC state whose codeword has been read by a codeword turn. -/
def withHeld (s : State) (cw : Codeword) (acc : Word) (ovf : Bool) : State :=
  { s with dec := { s.dec with held := some cw, acc := acc, ovf := ovf } }

/-- The value of a codeword in the scratch pair after an instruction ran on the words. -/
def scratchAfter (i : Instr) (words : List Word) : Option (Nat × Bool × Nat) :=
  (nextOf (exec i (decAt .zrun words 9))).map fun t =>
    (t.dec.acc.toNat, t.dec.ovf, 8 * t.dec.rd.toNat - t.dec.nib.toNat)

/-! ### Well-formedness (R92: at least one nibble) -/

theorem test_z_without_nibbles_ill_formed : WellFormed (.z []) = false := by decide
theorem test_n_without_nibbles_ill_formed : WellFormed (.n []) = false := by decide
theorem test_d_without_nibbles_ill_formed : WellFormed (.d []) = false := by decide
theorem test_overlong_zero_well_formed : WellFormed (.z [0, 0]) = true := by decide

/-! ### Decoding: one word per row, written out from the row's `encoding` string -/

theorem test_decode_vle1 : decodeTableWord 8 0b0101 = some (.vle1 5) := by decide
theorem test_decode_vle2 : decodeTableWord 8 0b0001_1010 = some (.vle2 2 1) := by decide
theorem test_decode_vle3 : decodeTableWord 16 0b0011_1001_1110 = some (.vle3 6 1 3) := by decide
theorem test_decode_vle4 : decodeTableWord 16 0b0011_1111_1000_1100 = some (.vle4 4 0 7 3) := by
  decide
theorem test_decode_vle5 :
    decodeTableWord 24 0b0101_1100_1011_1010_1001 = some (.vle5 1 2 3 4 5) := by decide
theorem test_decode_vle6 :
    decodeTableWord 24 0b0011_1111_1111_1111_1111_1110 = some (.vle6 6 7 7 7 7 3) := by decide
theorem test_decode_vle7 :
    decodeTableWord 32 0b0001_1110_1101_1100_1011_1010_1000 = some (.vle7 0 2 3 4 5 6 1) := by decide
theorem test_decode_vle8 :
    decodeTableWord 32 0b0001_1000_1000_1000_1000_1000_1000_1011 = some (.vle8 3 0 0 0 0 0 0 1) := by
  decide
theorem test_decode_vle9 :
    decodeTableWord 40 0b0111_1000_1000_1001_1000_1000_1000_1000_1100 =
      some (.vle9 4 0 0 0 0 1 0 0 7) := by decide
theorem test_decode_vle10 :
    decodeTableWord 40 0b0010_1000_1101_1000_1000_1000_1000_1000_1000_1111 =
      some (.vle10 7 0 0 0 0 0 0 5 0 2) := by decide
theorem test_decode_vle11 :
    decodeTableWord 48 0b0011_1111_1111_1111_1111_1111_1111_1111_1111_1111_1110 =
      some (.vle11 6 7 7 7 7 7 7 7 7 7 3) := by decide
theorem test_decode_z : decode (.symbol .z) [0x43] = .ok (.z [3]) := by decide
theorem test_decode_n : decode (.symbol .n) [0x89, 0x00] = .ok (.n [1, 0, 0]) := by decide
theorem test_decode_d : decode (.symbol .d) [0x8C, 0x3F] = .ok (.d [4, 0, 7, 3]) := by decide
theorem test_decode_pad : decode .padding [0x50] = .ok .pad := by decide
theorem test_decode_enc_start : decodeCtrl .enc 0xFFFFFFFD = .ok .encStart := by decide
theorem test_decode_enc_srst : decodeCtrl .enc 0x00000003 = .ok .encSrst := by decide
theorem test_decode_dec_start : decodeCtrl .dec 0x00000001 = .ok .decStart := by decide
theorem test_decode_dec_srst : decodeCtrl .dec 0x80000002 = .ok .decSrst := by decide
theorem test_decode_no_command : decodeCtrl .dec 0xFFFFFFFC = .error .noCommand := by decide
theorem test_decode_truncated : decode (.symbol .z) [0xFF, 0x8F] = .error .truncated := by decide

/-! ### Codeword rows: the lower ends of R93's table and vectors V16 -/

theorem test_vle1_reads : scratchAfter (.vle1 7) [0x7] = some (7, false, 1) := by decide
theorem test_vle2_reads : scratchAfter (.vle2 0 1) [0x18] = some (8, false, 2) := by decide
theorem test_vle3_reads : scratchAfter (.vle3 0 0 1) [0x188] = some (64, false, 3) := by decide
theorem test_vle4_reads : scratchAfter (.vle4 4 0 7 3) [0x3F8C] = some (1988, false, 4) := by decide
theorem test_vle5_reads : scratchAfter (.vle5 0 0 0 0 1) [0x18888] = some (4096, false, 5) := by
  decide
theorem test_vle6_reads :
    scratchAfter (.vle6 6 7 7 7 7 3) [0x3FFFFE] = some (131070, false, 6) := by decide
theorem test_vle7_reads :
    scratchAfter (.vle7 0 0 0 0 0 0 1) [0x1888888] = some (262144, false, 7) := by decide
theorem test_vle8_reads :
    scratchAfter (.vle8 0 0 0 0 0 0 0 1) [0x18888888] = some (2097152, false, 8) := by decide
theorem test_vle9_reads :
    scratchAfter (.vle9 0 0 0 0 0 0 0 0 1) [0x88888888, 0x1] = some (16777216, false, 9) := by decide
theorem test_vle10_reads :
    scratchAfter (.vle10 0 0 0 0 0 0 0 0 0 1) [0x88888888, 0x18] = some (134217728, false, 10) := by
  decide
theorem test_vle11_reads_largest :
    scratchAfter (.vle11 7 7 7 7 7 7 7 7 7 7 3) [0xFFFFFFFF, 0x3FF] =
      some (4294967295, false, 11) := by decide
/-- V16e. -/
theorem test_vle11_overflows :
    scratchAfter (.vle11 0 0 0 0 0 0 0 0 0 0 4) [0x88888888, 0x488] = some (0, true, 11) := by decide
/-- V16d: twelve nibbles, no row of the table; the codeword turn reads it all the same. -/
theorem test_long_codeword_read :
    (nextOf (step { decAt .zrun [0xFFFFFFFF, 0x7FFF] 9 with turns := [.decCodeword] })).map
      (fun t => (t.dec.acc, t.dec.ovf, t.dec.rd, t.dec.nib)) =
      some (0xFFFFFFFF, true, 2, 4) := by decide

/-! ### Symbols: the examples of R185, R186, R187 and their faults -/

theorem test_z_writes_zeros :
    (nextOf (exec (.z [3]) (decAt .zrun [0x8C021A43, 0x23F] 9))).map
      (fun t => (t.decOut, t.dec.cnt, t.dec.phase)) =
      some ([(0, 0), (1, 0), (2, 0)], 3, .nrun) := by decide
theorem test_z_overruns :
    (nextOf (exec (.z [3]) (decAt .zrun [0x8C021A43, 0x23F] 2))).map
      (fun t => (t.decOut, t.dec.cnt, t.dec.phase, statusWord t.dec.status)) =
      some ([], 0, .idle, 0x26) := by decide
theorem test_n_loads_run :
    (nextOf (exec (.n [4]) (decAt .nrun [0x4] 9))).map (fun t => (t.dec.run, t.dec.phase)) =
      some (4, .delta) := by decide
theorem test_n_of_zero_ends_pair :
    (nextOf (exec (.n [0]) (decAt .nrun [0x0] 9))).map (fun t => (t.dec.run, t.dec.phase)) =
      some (0, .pair) := by decide
theorem test_d_writes_sample :
    (nextOf (exec (.d [4, 0, 7, 3]) (withPrev (decAt .delta [0x3F8C] 9) 6))).map
      (fun t => (t.decOut, t.dec.prev, t.dec.cnt)) = some ([(0, 1000)], 1000, 1) := by decide
theorem test_d_below_zero_faults :
    (nextOf (exec (.d [5, 1]) (withPrev (decAt .delta [0x1D] 9) 6))).map
      (fun t => (t.decOut, t.dec.prev, statusWord t.dec.status)) = some ([], 6, 0x36) := by decide
theorem test_cut_codeword_exhausts :
    (nextOf (runTurn .dec (decAt .zrun [0xFFFFFFFF] 9))).map
      (fun t => (t.dec.rd, t.dec.phase, statusWord t.dec.status)) = some (1, .idle, 0x16) := by decide
theorem test_pad_has_no_effect :
    nextOf (exec .pad (idleWith [] 0 [0x7] 1)) = some (idleWith [] 0 [0x7] 1) := by decide
theorem test_pair_ends_operation :
    (nextOf (runTurn .dec (decAt .pair [] 0))).map (fun t => statusWord t.dec.status) = some 0x2 := by
  decide

/-! ### Commands and registers: the examples of R201, R203, R204, R205 -/

theorem test_enc_start :
    (nextOf (exec .encStart (idleWith [1, 2] 2 [] 0))).map
      (fun t => (statusWord t.enc.status, t.enc.phase, t.enc.numPixels)) = some (0x1, .pair, 2) := by
  decide
theorem test_enc_start_ignored_while_busy :
    nextOf (exec .encStart (encAt .zrun [1] 2)) = some (encAt .zrun [1] 2) := by decide
theorem test_enc_srst :
    (nextOf (exec .encSrst (encAt .zrun [1] 2))).map (fun t => (t.enc, t.encIn)) =
      some (EncUnit.reset, [(0, 1)]) := by decide
theorem test_dec_start :
    (nextOf (exec .decStart (idleWith [] 0 [0x10] 1))).map
      (fun t => (statusWord t.dec.status, t.dec.phase, t.dec.inWords)) = some (0x1, .pair, 1) := by
  decide
theorem test_dec_srst :
    (nextOf (exec .decSrst (decAt .delta [0x10] 4))).map
      (fun t => (t.dec, statusWord t.dec.status, t.decIn)) =
      some (DecUnit.reset, 0, [(0, 0x10)]) := by decide
theorem test_status_read :
    (nextOf (runHost (.regRead 9) (State.takeFault (decAt .nrun [] 1) .dec .exhausted))).map
      (fun t => t.hostData) = some 0x16 := by decide

/-! ### Micro-operations: V27, V27a, V27b, V28, V29 and the packing of R129 -/

theorem test_putnib_keeps_nibble :
    putNib .lowFirst 0xA { EncUnit.reset with word := 0x43, nib := 2 } [] =
      .ok { EncUnit.reset with word := 0xA43, nib := 3 } [] := by decide
theorem test_putnib_writes_word :
    putNib .lowFirst 0x8 { EncUnit.reset with word := 0x0C021A43, nib := 7, outCap := 2 } [] =
      .ok { EncUnit.reset with wr := 1, outCap := 2 } [(0, 0x8C021A43)] := by decide
theorem test_putnib_full :
    putNib .lowFirst 0xF { EncUnit.reset with word := 0x0FFFC220, nib := 7 } [] =
      .full { EncUnit.reset with word := 0xFFFFC220, nib := 7 } [] := by decide
theorem test_flush_writes_partial_word :
    flushNibs .lowFirst { EncUnit.reset with word := 0x23F, nib := 4, wr := 1, outCap := 2 } [] =
      .ok { EncUnit.reset with wr := 2, outCap := 2 } [(1, 0x23F)] := by decide
theorem test_flush_high_first_shifts_up :
    flushNibs .highFirst { EncUnit.reset with word := 0x01E1, nib := 4, outCap := 2 } [] =
      .ok { EncUnit.reset with wr := 1, outCap := 2 } [(0, 0x01E10000)] := by decide
theorem test_getnib_fetches :
    getNib .lowFirst (fun _ => 0x8C021A43) { DecUnit.reset with inWords := 2 } =
      some (0x3, { DecUnit.reset with word := 0x08C021A4, nib := 7, rd := 1, inWords := 2 }) := by
  decide
theorem test_getnib_high_first :
    (getNib .highFirst (fun _ => 0x01E10000) { DecUnit.reset with inWords := 1 }).map
      (fun r => (r.1, r.2.word)) = some (0x0, 0x1E100000) := by decide

/-! ### The functions: V30, V38, V43 and their decoding -/

theorem test_compress_scenario :
    rvlCompress [0, 0, 0, 5, 6, 6, 1000, 0, 0] = [0x8C021A43, 0x0000023F] := by decide
theorem test_compress_two_extremes : rvlCompress [1, 65535] = [0xFFFFC220, 0x00000003] := by decide
theorem test_decompress_scenario :
    rvlDecompress [0x8C021A43, 0x0000023F] 9 = .ok [0, 0, 0, 5, 6, 6, 1000, 0, 0] 2 := by decide
theorem test_enc_delta_step :
    (nextOf (runTurn .enc { encAt .delta [1000] 2 with
        enc := { (encAt .delta [1000] 2).enc with prev := 6, run := 1 } })).map
      (fun t => (t.enc.word, t.enc.nib, t.enc.pos, t.enc.prev, t.enc.phase)) =
      some (0x3F8C, 4, 1, 1000, .pair) := by decide
theorem test_table_word_runs_first :
    (nextOf (step (State.reset.withFetchWord 16 0x3F8C))).map (fun t => t.dec.acc) = some 1988 := by
  decide

/-! ### Witnesses: states and operands that meet the hypotheses of the statements, at their boundaries -/

/-- `DecodeUndoesEncode`. -/
theorem witness_well_formed : WellFormed (.z [0]) = true ∧ WellFormed .decSrst = true := by decide

/-- `CodewordNibblesOfValue`: the last nibble of a one- and of a two-nibble codeword. -/
theorem witness_last_nibble :
    0 < codewordLength 7 ∧ 1 < codewordLength 8 ∧ ¬ 2 < codewordLength 8 := by decide

/-- `CodewordLengthRanges`: both ends of a range, and a codeword with a last nibble to speak of. -/
theorem witness_length_range :
    2 ≤ 2 ∧ codewordLength 8 = 2 ∧ codewordLength 63 = 2 ∧ codewordLength 64 = 3 ∧
    2 ≤ codewordLength 8 := by decide

/-- `EncvleNibbleCount`: a codeword that fills a word to the last place, with `enc.wr` at the capacity after. -/
theorem witness_encvle_ends :
    ∃ s t : State, s.enc.wr.toNat ≤ s.enc.outCap.toNat ∧ encVle 8 s = .ok t ∧
      t.enc.wr = t.enc.outCap :=
  ⟨{ encAt .zrun [1] 1 with enc := { (encAt .zrun [1] 1).enc with nib := 6 } }, _,
    by decide, rfl, by decide⟩

/-- `DecvleInvertsEncvle`. -/
theorem witness_stream_of_value :
    (decAt .zrun [0x00003F8C] 9).stream = vleNibbles 1988 ++ [0, 0, 0, 0] := by decide

/-- `ControlWordsSelectCommands`, `ReservedRegistersReadZero`: each row of R107, with the ignored bits set. -/
theorem witness_control_words :
    (0xFFFFFFFD : Word) &&& 3 = 1 ∧ (0x00000003 : Word) &&& 2 = 2 ∧ (0xFFFFFFFC : Word) &&& 3 = 0 ∧
    (0xFFFFFFFD : Word) &&& 3 = (1 : Word) &&& 3 := by decide

/-- `StreamIsPayload`. -/
theorem witness_stream_start :
    (decAt .zrun [5] 9).dec.nib = 0 ∧ (decAt .zrun [5] 9).dec.rd = 0 := by decide

/-- `StepRunsDecodedInstruction`: a symbol at the cursor, a codeword row, a held codeword, an idle unit,
a command of each unit. -/
theorem witness_decoded :
    (decAt .nrun [0x18] 9).dec.status.busy = true ∧
    phaseRole (decAt .nrun [0x18] 9).dec.phase = some .n ∧ (decAt .nrun [0x18] 9).dec.held = none ∧
    decodeNibbles (.symbol .n) (decAt .nrun [0x18] 9).stream = .ok (.n [0, 1], [0, 0, 0, 0, 0, 0]) ∧
    decodeNibbles .codeword (decAt .nrun [0x18] 9).stream =
      .ok (.vle2 0 1, [0, 0, 0, 0, 0, 0]) ∧
    (withHeld (decAt .delta [] 9) [3] 3 false).dec.held = some [3] ∧
    State.reset.dec.status.busy = false ∧
    decode (.ctrl .enc) (wordBytes 0xFFFFFFFD) = .ok .encStart ∧
    decode (.ctrl .dec) (wordBytes 3) = .ok .decSrst := by decide

/-- `CodewordRowsReadTheirValue`: exactly eleven nibbles left, the longest row's number, across a word's end. -/
theorem witness_nibbles_left :
    nibblesLeft { (decAt .zrun [0, 0] 9).dec with nib := 3, rd := 1 } = 11 := by decide

/-- `MissingNibbleExhausts` and the symbols' EXHAUSTED: one nibble too few for a row and for a symbol,
and a stream without a final nibble. -/
theorem witness_missing_nibble :
    vleRow [1, 2] = some (.vle2 1 2) ∧
    nibblesLeft { (decAt .delta [] 9).dec with nib := 1 } < [(1 : Payload), 2].length ∧
    (decAt .delta [] 9).dec.held = none ∧
    (decAt .delta [0xFFFFFFFF] 9).dec.status.busy = true ∧
    phaseRole (decAt .delta [0xFFFFFFFF] 9).dec.phase = some .d ∧
    splitCodeword (decAt .delta [0xFFFFFFFF] 9).stream = none := by decide

/-- `ScratchPairStandsForValue`: each case of the shift count, and a DECVLE that ends normally. -/
theorem witness_decvle_ends :
    ({ DecUnit.reset with sh := 29 } : DecUnit).sh.toNat ≤ 29 ∧
    ({ DecUnit.reset with sh := 30 } : DecUnit).sh.toNat = 30 ∧
    33 ≤ ({ DecUnit.reset with sh := 33 } : DecUnit).sh.toNat ∧
    ∃ t, decVle [0, 1] (decAt .zrun [0x18] 9) = .ok t := by
  refine ⟨by decide, by decide, by decide, _, rfl⟩

/-- `ZSymbolWritesZeros`, `NSymbolLoadsRun`, the run fits: a run of 0, one that completes the output, a
held one. -/
theorem witness_run_fits :
    operandReady [0] (decAt .zrun [0] 9) ∧ operandValue [0] (decAt .zrun [0] 9) = 0 ∧
    operandReady [1, 1] (decAt .zrun [0x19] 9) ∧
    operandValue [1, 1] (decAt .zrun [0x19] 9) = remaining (decAt .zrun [0x19] 9).dec ∧
    operandReady [3] (withHeld (decAt .zrun [] 9) [3] 3 false) ∧
    operandValue [3] (withHeld (decAt .zrun [] 9) [3] 3 false) ≤
      remaining (withHeld (decAt .zrun [] 9) [3] 3 false).dec := by
  unfold operandReady; decide

/-- `ZSymbolWritesZeros`, `NSymbolLoadsRun`, OVERRUN: one more than what remains, and an overflowed pair. -/
theorem witness_run_too_long :
    operandReady [2, 1] (decAt .zrun [0x1A] 9) ∧
    remaining (decAt .zrun [0x1A] 9).dec + 1 = operandValue [2, 1] (decAt .zrun [0x1A] 9) ∧
    operandReady [0] (withHeld (decAt .zrun [] 9) [0] 0 true) ∧
    remaining (withHeld (decAt .zrun [] 9) [0] 0 true).dec <
      operandValue [0] (withHeld (decAt .zrun [] 9) [0] 0 true) := by
  unfold operandReady; decide

/-- `DSymbolWritesSample`, in range: samples 0 and 65535. -/
theorem witness_sample_in_range :
    operandReady [1] (withPrev (decAt .delta [1] 9) 1) ∧
    ((withPrev (decAt .delta [1] 9) 1).dec.prev.toNat : Int) +
      zzDec (operandValue [1] (withPrev (decAt .delta [1] 9) 1)) = 0 ∧
    operandReady [2] (withPrev (decAt .delta [2] 9) 65534) ∧
    ((withPrev (decAt .delta [2] 9) 65534).dec.prev.toNat : Int) +
      zzDec (operandValue [2] (withPrev (decAt .delta [2] 9) 65534)) = 65535 := by
  unfold operandReady; decide

/-- `DSymbolWritesSample`, RANGE: -1 and 65536. -/
theorem witness_sample_out_of_range :
    operandReady [1] (decAt .delta [1] 9) ∧
    ((decAt .delta [1] 9).dec.prev.toNat : Int) + zzDec (operandValue [1] (decAt .delta [1] 9)) = -1 ∧
    operandReady [2] (withPrev (decAt .delta [2] 9) 65535) ∧
    ((withPrev (decAt .delta [2] 9) 65535).dec.prev.toNat : Int) +
      zzDec (operandValue [2] (withPrev (decAt .delta [2] 9) 65535)) = 65536 := by
  unfold operandReady; decide

/-- `PaddingHasNoEffect`, `EncStartBegins`, `DecStartBegins`, `RegisterReadsReturn`,
`RegisterWritesStore`, `HostBufferAccess`: an idle and a busy unit of each kind. -/
theorem witness_idle_and_busy :
    State.reset.enc.status.busy = false ∧ State.reset.dec.status.busy = false ∧
    (encAt .pair [1] 1).enc.status.busy = true ∧ (decAt .pair [1] 1).dec.status.busy = true := by decide

/-- `PairStepTestsCompletion`: the last sample produced, and none of one. -/
theorem witness_pair_phase :
    (decAt .pair [] 0).dec.status.busy = true ∧ (decAt .pair [] 0).dec.phase = .pair ∧
    (decAt .pair [] 0).dec.cnt = (decAt .pair [] 0).dec.numPixels ∧
    (decAt .pair [] 1).dec.cnt ≠ (decAt .pair [] 1).dec.numPixels := by decide

/-- `OnlyHazardsRefused`: a host turn that is a hazard, and one that is not. -/
theorem witness_host_turns :
    Hazard (.wordRead .encOut 0) (encAt .zrun [1] 1) ∧ ¬ Hazard (.wordRead .encOut 0) State.reset ∧
    ({ State.reset with turns := [.host (.wordRead .encOut 0)] } : State).turns =
      .host (.wordRead .encOut 0) :: [] := by
  refine ⟨.inr (.inr (.inl ⟨0, rfl, by decide⟩)), ?_, rfl⟩
  simp [Hazard, State.reset, EncUnit.reset, Status.reset]

/-- `PutnibFillsLowestSlot`, `FlushWritesPartialWord`: seven nibbles at hand with room and without. -/
theorem witness_seven_nibbles :
    (0x0C021A43 : Word).toNat < 16 ^ (7 : BitVec 3).toNat ∧
    ({ EncUnit.reset with nib := 7, outCap := 1 } : EncUnit).wr ≠ 1 ∧
    ({ EncUnit.reset with nib := 7 } : EncUnit).wr =
      ({ EncUnit.reset with nib := 7 } : EncUnit).outCap := by decide

/-- `GetnibDeliversLowestSlot`: each of its three cases. -/
theorem witness_cursor_cases :
    DecUnit.reset.nib = 0 ∧ DecUnit.reset.rd = DecUnit.reset.inWords ∧
    (decAt .zrun [1] 1).dec.rd ≠ (decAt .zrun [1] 1).dec.inWords ∧
    ({ DecUnit.reset with nib := 8 } : DecUnit).nib ≠ 0 := by decide

/-- `UnpackingUndoesPacking`: nine nibbles, two words, capacity for no more. -/
theorem witness_packing :
    ∃ e1 o1 e2 o2, putNibs .lowFirst (List.replicate 9 5) { EncUnit.reset with outCap := 2 } [] =
        .ok e1 o1 ∧ flushNibs .lowFirst e1 o1 = .ok e2 o2 ∧
      (∀ k, k < 2 → bufRead o2 k = some (if k = 0 then 0x55555555 else 5)) :=
  ⟨_, _, _, _, rfl, rfl, by decide⟩

/-- `ZigzagAndPredictorLaws`. -/
theorem witness_magnitudes : (0 : Int) ≤ 0 ∧ (-1 : Int) < 0 ∧ (-1 : Int).natAbs < (2 : Int).natAbs := by
  decide

/-- `RunIsLongest`: a run cut by the end of the input and one cut by a sample. -/
theorem witness_runs :
    runLength (fun _ => 0) true 0 2 = 2 ∧ runLength (fun j => if j = 1 then 5 else 0) true 0 2 = 1 := by
  decide

/-- `EncPhasesFollowTable`, `EncFaultsOnlyWhenFull`: a busy unit in FLUSH with a nibble at hand and no
room. -/
theorem witness_enc_faults :
    let s : State := { encAt .flush [] 0 with enc := { (encAt .flush [] 0).enc with nib := 1 } }
    s.enc.status.busy = true ∧ s.enc.status.err = false ∧ (encStep s).enc.status.err = true := by
  decide

/-- `PairsPartitionTheInput`: a first pair without zeros and a last one without samples. -/
theorem witness_pairs : (pairsOf [7, 0])[0]? = some (0, [7]) ∧ (pairsOf [7, 0])[1]? = some (1, []) := by
  decide

/-- `AllZeroInputIsShort`, `CompressedSizeBounds`: the ends of their ranges. -/
theorem witness_lengths : 1 ≤ 1 ∧ 1 < 2 ^ 32 ∧ 4294967295 < 2 ^ 32 ∧ ([] : List Sample).length < 2 ^ 32 := by
  decide

/-- `CutStreamExhausts`. -/
theorem witness_cut : 0 < (rvlCompress [0]).length := by decide

/-- `WrongPixelCountOutcomes`: too large, on a pair boundary, and off one. -/
theorem witness_pixel_counts :
    ([1, 0, 0] : List Sample).length < 4 ∧ 1 < ([1, 0, 0] : List Sample).length ∧
    OnPairBoundary [1, 0, 0] 1 ∧ 2 < ([1, 0, 0] : List Sample).length ∧
    ¬ OnPairBoundary [1, 0, 0] 2 := by
  refine ⟨by decide, by decide, ⟨1, by decide⟩, by decide, ?_⟩
  rintro ⟨j, hj⟩
  match j with
  | 0 => revert hj; decide
  | 1 => revert hj; decide
  | k + 2 =>
    have h : (pairsOf [1, 0, 0]).take (k + 2) = pairsOf [1, 0, 0] :=
      List.take_of_length_le (by have : (pairsOf [1, 0, 0]).length = 2 := by decide
                                 omega)
    rw [h] at hj; revert hj; decide

/-- `CompressorComputesFunction`: enough ENC steps, others between them. -/
theorem witness_compress_turns :
    (idleWith [7] 1 [] 0).enc.status.busy = false ∧
    OnlyUnits (.dec :: List.replicate 6 .enc) ∧
    encStepBound (idleWith [7] 1 [] 0).enc.numPixels.toNat ≤
      (Turn.dec :: List.replicate 6 .enc).count .enc := by
  unfold OnlyUnits; decide

/-- `DecompressorComputesFunction`: enough DEC steps, codeword turns between them. -/
theorem witness_decompress_turns :
    (idleWith [] 0 [0x10] 1).dec.status.busy = false ∧
    OnlyUnits (.decCodeword :: List.replicate 18 .dec) ∧
    decStepBound (idleWith [] 0 [0x10] 1).dec.inWords.toNat ≤
      (Turn.decCodeword :: List.replicate 18 .dec).count .dec := by
  unfold OnlyUnits; decide

/-- `ChainedUnitsAreLossless`: V32. -/
theorem witness_chain :
    ∃ t : State, Reaches 7
        ((idleWith [7] 1 [] 0).withTurns (.host (.regWrite 0 1) :: List.replicate 6 .enc)) t ∧
      t.enc.status.err = false ∧ (idleWith [] 0 [0x1E10] 1).dec.inWords = t.enc.wr ∧
      (idleWith [] 0 [0x1E10] 1).dec.numPixels = (idleWith [7] 1 [] 0).enc.numPixels ∧
      decStepBound t.enc.wr.toNat ≤ (List.replicate 18 Turn.dec).count .dec ∧
      (∀ k, k < t.enc.wr.toNat → (idleWith [] 0 [0x1E10] 1).readDecIn k = t.readEncOut k) :=
  ⟨_, rfl, by decide, by decide, by decide, by decide, by decide⟩

/-- `EmptyOperationsSucceed`. -/
theorem witness_no_samples :
    (idleWith [] 0 [] 0).enc.status.busy = false ∧ (idleWith [] 0 [] 0).enc.numPixels = 0 ∧
    (idleWith [] 0 [] 0).dec.numPixels = 0 := by decide

/-- `WritesStayInExtent`, `ReadsStayInExtent`: a good ENC state that is about to write its last word. -/
theorem witness_enc_ok :
    EncOk { encAt .flush [] 1 with enc := { (encAt .flush [] 1).enc with nib := 1 } } where
  busy_iff := by decide
  status := by unfold statusOk; decide
  pos_le := by decide
  wr_le := by decide
  free_slots := by decide
  predictor := by decide
  zrun_room := by decide
  run_pos := by decide
  run_room := by decide
  run_nonzero := by intro h; cases h
  flush_end := by decide

/-- `WritesStayInExtent`, `ReadsStayInExtent`, `DecFaultsWriteNothing`: a good DEC state that is about
to write its last sample. -/
theorem witness_dec_ok :
    DecOk { decAt .delta [1] 1 with dec := { (decAt .delta [1] 1).dec with run := 1 } } where
  busy_iff := by decide
  status := by unfold statusOk; decide
  cnt_le := by decide
  rd_le := by decide
  nib_le := by decide
  fetched := by decide
  shifted_out := by decide
  zrun_room := by decide
  run_pos := by decide
  run_room := by decide
  held_phase := by decide

/-- `ReadsStayInExtent`: another buffer with the same contents inside the extents, other ones outside. -/
theorem witness_outside_differs :
    (∀ i, i < 1 → bufRead ([(0, 7), (1, 9)] : Buf 16) i = bufRead (listed [7]) i) ∧
    (∀ k, k < 1 → bufRead ([(0, 7), (5, 9)] : Buf 32) k = bufRead (listed [7]) k) := by decide

/-- `EveryStepKeepsSafe`: a good state that is not the reset state, and a step from it. -/
theorem witness_safe :
    Safe { idleWith [7] 1 [0x1E10] 1 with turns := [.host (.regWrite 0 1)] } ∧
    ∃ t, step { idleWith [7] 1 [0x1E10] 1 with turns := [.host (.regWrite 0 1)] } = .next t := by
  refine ⟨⟨⟨by decide, by unfold statusOk; decide, by decide, by decide, by decide, by decide, by decide,
    by decide, by decide, (by intro h; cases h), by decide⟩,
    ⟨by decide, by unfold statusOk; decide, by decide, by decide, by decide, by decide, by decide,
      by decide, by decide, by decide, by decide⟩,
    ⟨by decide, ?_, ?_, ?_, ?_⟩⟩, _, rfl⟩ <;> unfold bufInRange <;> decide

/-- `CodewordTurnIsRefinement`, `UnitStepsCommute`: both sides are reached. -/
theorem witness_turns_run :
    (∃ t, Reaches 2 ((decAt .nrun [4] 9).withTurns [.decCodeword, .dec]) t) ∧
    (∃ t, Reaches 2 ((decAt .nrun [4] 9).withTurns [.enc, .dec]) t) := ⟨⟨_, rfl⟩, ⟨_, rfl⟩⟩

/-- `EarlyWritesArePrefix`. -/
theorem witness_buffers_wf : (decAt .zrun [3] 9).buffersWf = true := by decide

/-- `DecFaultsWriteNothing`: a step that faults. -/
theorem witness_dec_faults :
    (decAt .zrun [3] 2).dec.status.busy = true ∧ (decAt .zrun [3] 2).dec.status.err = false ∧
    ∃ t, runTurn .dec (decAt .zrun [3] 2) = .next t ∧ t.dec.status.err = true :=
  ⟨by decide, by decide, _, rfl, by decide⟩

/-- `AbandonedOutputIsPrefix`: both units idle, no step, one or more before the cut, both resets. -/
theorem witness_abandoned :
    (idleWith [7] 1 [0x1E10] 1).enc.status.busy = false ∧
    (idleWith [7] 1 [0x1E10] 1).dec.status.busy = false ∧ OnlyUnits [] ∧
    OnlyUnits [.enc, .dec, .decCodeword] ∧
    (∃ kept, Space.encOut ∈ kept ∧ Turn.hardReset [.encOut] = .hardReset kept) ∧
    (∃ kept, Space.decOut ∈ kept ∧ Turn.hardReset [.encIn, .decOut] = .hardReset kept) := by
  refine ⟨by decide, by decide, ?_, ?_, ⟨_, ?_, rfl⟩, ⟨_, ?_, rfl⟩⟩ <;> (try unfold OnlyUnits) <;> decide

/-- A hardware reset of a DEC cut short inside its ZRUN step keeps the zeros it wrote (R252), and draws a
buffer it does not keep anew (R251). -/
theorem test_hard_reset_keeps_prefix :
    ∃ t, Reaches 2 ((decAt .zrun [3] 9).withTurns [.partialWrites .dec 2, .hardReset [.decOut]]) t ∧
      t.decOut = [(0, 0), (1, 0)] ∧ t.dec = DecUnit.reset ∧ t.decIn = [] ∧ t.epochs.decIn = 1 ∧
      t.epochs.decOut = 0 := ⟨_, rfl, by decide, rfl, rfl, rfl, rfl⟩

/-- `IdleUnitIsStable`. -/
theorem witness_other_turn :
    (∀ i v, Turn.dec ≠ .host (.regWrite i v)) ∧ (∀ kept, Turn.dec ≠ .hardReset kept) ∧
    ∃ t, runTurn .dec (decAt .nrun [4] 9) = .next t ∧
      (decAt .nrun [4] 9).enc.status.busy = false :=
  ⟨fun _ _ => nofun, fun _ => nofun, _, rfl, by decide⟩

end Sys2Proof.Tests
end

/-! ## What DEC and the host fetch, and what running it is

The decoder is read here once: a codeword in its role, a codeword row, a codeword cut short, a command.
Later proofs use these lemmas and do not unfold `fetchDec`, `fetchAt` or `exec` again. -/

namespace Sys2Proof.Machine

/-! ### Fetching -/

theorem fetchAt_of_decode {pos : Position} {s : State} {i : Instr} {left : List Nibble}
    (h : decodeNibbles pos s.stream = .ok (i, left)) : fetchAt pos s = .instr i := by
  simp only [fetchAt, h]

/-- In a role every codeword decodes, whatever its length (R94, R100). -/
theorem fetchAt_symbol_cases (r : Role) (s : State) :
    (∃ cw rest, splitCodeword s.stream = some (cw, rest) ∧
      fetchAt (.symbol r) s = .instr (symbolInstr r cw)) ∨
    (splitCodeword s.stream = none ∧ fetchAt (.symbol r) s = .cutShort) := by
  cases h : splitCodeword s.stream with
  | none => exact .inr ⟨rfl, by simp [fetchAt, decodeNibbles, h]⟩
  | some p => exact .inl ⟨p.1, p.2, rfl, by simp [fetchAt, decodeNibbles, h]⟩

/-- A codeword without its role is one of the table's rows, or longer than they are (R94, R111). -/
theorem fetchAt_codeword_cases (s : State) :
    (∃ cw rest, splitCodeword s.stream = some (cw, rest) ∧
      ((∃ i, vleRow cw = some i ∧ fetchAt .codeword s = .instr i) ∨
       (vleRow cw = none ∧ fetchAt .codeword s = .longCodeword cw))) ∨
    (splitCodeword s.stream = none ∧ fetchAt .codeword s = .cutShort) := by
  cases h : splitCodeword s.stream with
  | none => exact .inr ⟨rfl, by simp [fetchAt, decodeNibbles, h]⟩
  | some p =>
    refine .inl ⟨p.1, p.2, rfl, ?_⟩
    cases hv : vleRow p.1 with
    | none => exact .inr ⟨rfl, by simp [fetchAt, decodeNibbles, h, hv]⟩
    | some i => exact .inl ⟨i, rfl, by simp [fetchAt, decodeNibbles, h, hv]⟩

theorem fetchDec_idle {s : State} (hb : s.dec.status.busy = false) : fetchDec s = .instr .pad := by
  simp [fetchDec, hb]

theorem fetchDec_noRole {s : State} (hb : s.dec.status.busy = true)
    (hp : phaseRole s.dec.phase = none) :
    fetchDec s = if s.dec.phase = .pair then .pairTest else .nothing := by
  simp [fetchDec, hb, hp]

theorem fetchDec_held {s : State} {r : Role} {cw : Codeword} (hb : s.dec.status.busy = true)
    (hp : phaseRole s.dec.phase = some r) (hh : s.dec.held = some cw) :
    fetchDec s = .instr (symbolInstr r cw) := by
  simp [fetchDec, hb, hp, hh]

theorem fetchDec_fresh {s : State} {r : Role} (hb : s.dec.status.busy = true)
    (hp : phaseRole s.dec.phase = some r) (hh : s.dec.held = none) :
    fetchDec s = fetchAt (.symbol r) s := by
  simp [fetchDec, hb, hp, hh]

theorem fetchDecCodeword_fresh {s : State} {r : Role} (hb : s.dec.status.busy = true)
    (hp : phaseRole s.dec.phase = some r) (hh : s.dec.held = none) :
    fetchDecCodeword s = fetchAt .codeword s := by
  simp [fetchDecCodeword, hb, hp, hh]

/-- Only the PAIR step and IDLE ask for no codeword (R183). -/
theorem phaseRole_eq_none_iff (p : DecPhase) : phaseRole p = none ↔ p = .idle ∨ p = .pair := by
  cases p <;> simp [phaseRole]

/-- What a DEC turn fetches: padding, the completion test, nothing, a symbol in the role of the phase,
or, with no codeword held, a codeword cut short. -/
theorem fetchDec_cases (s : State) :
    (s.dec.status.busy = false ∧ fetchDec s = .instr .pad) ∨
    (s.dec.status.busy = true ∧ s.dec.phase = .pair ∧ fetchDec s = .pairTest) ∨
    (s.dec.status.busy = true ∧ s.dec.phase = .idle ∧ fetchDec s = .nothing) ∨
    (∃ r cw, s.dec.status.busy = true ∧ phaseRole s.dec.phase = some r ∧
      fetchDec s = .instr (symbolInstr r cw)) ∨
    (s.dec.status.busy = true ∧ s.dec.held = none ∧ splitCodeword s.stream = none ∧
      fetchDec s = .cutShort) := by
  cases hb : s.dec.status.busy with
  | false => exact .inl ⟨rfl, fetchDec_idle hb⟩
  | true =>
    cases hp : phaseRole s.dec.phase with
    | none =>
      rcases (phaseRole_eq_none_iff _).1 hp with h | h
      · exact .inr (.inr (.inl ⟨rfl, h, by simp [fetchDec_noRole hb hp, h]⟩))
      · exact .inr (.inl ⟨rfl, h, by simp [fetchDec_noRole hb hp, h]⟩)
    | some r =>
      cases hh : s.dec.held with
      | some cw => exact .inr (.inr (.inr (.inl ⟨r, cw, rfl, rfl, fetchDec_held hb hp hh⟩)))
      | none =>
        rw [fetchDec_fresh hb hp hh]
        rcases fetchAt_symbol_cases r s with ⟨cw, _, _, hf⟩ | ⟨hs, hf⟩
        · exact .inr (.inr (.inr (.inl ⟨r, cw, rfl, rfl, hf⟩)))
        · exact .inr (.inr (.inr (.inr ⟨rfl, rfl, hs, hf⟩)))

/-- What a codeword turn fetches: nothing, or, with no codeword held and one asked for, what stands at
the cursor (log entry 4). -/
theorem fetchDecCodeword_cases (s : State) :
    fetchDecCodeword s = .nothing ∨
    (s.dec.status.busy = true ∧ phaseRole s.dec.phase ≠ none ∧ s.dec.held = none ∧
      fetchDecCodeword s = fetchAt .codeword s) := by
  unfold fetchDecCodeword
  split
  · next h =>
    simp only [Bool.and_eq_true, Option.isNone_iff_eq_none, Option.isSome_iff_ne_none] at h
    obtain ⟨⟨hb, hp⟩, hh⟩ := h
    exact .inr ⟨hb, hp, hh, rfl⟩
  · exact .inl rfl

/-! ### Running what was fetched -/

/-- What a symbol step does after its operand, by role (R185 to R187). -/
def symbolBody : Role → State → Ended
  | .z => zRunBody
  | .n => nRunBody
  | .d => deltaBody

/-- A symbol step: its operand, then the body of its role, then the fault if one was raised. -/
theorem exec_symbolInstr (r : Role) (cw : Codeword) (s : State) :
    exec (symbolInstr r cw) s =
      .next (settle .dec (andThen (symbolOperand cw s) (symbolBody r))) := by
  cases r <;> rfl

/-- The rows VLE1 to VLE11 are one meaning at eleven lengths. -/
theorem exec_of_vleRow {cw : Codeword} {i : Instr} (h : vleRow cw = some i) (s : State) :
    exec i s = .next (readCodeword cw s) := by
  unfold vleRow at h
  split at h <;> cases h <;> rfl

/-- A codeword at the cursor is read whatever its length; without one the stream is used up. -/
theorem runFetched_codeword_cases (s : State) :
    (∃ cw rest, splitCodeword s.stream = some (cw, rest) ∧
      ∀ x, runFetched (fetchAt .codeword s) x = .next (readCodeword cw x)) ∨
    (splitCodeword s.stream = none ∧
      ∀ x, runFetched (fetchAt .codeword s) x = .next (runCutShort x)) := by
  rcases fetchAt_codeword_cases s with ⟨cw, rest, hs, ⟨i, hi, hf⟩ | ⟨_, hf⟩⟩ | ⟨hs, hf⟩ <;> rw [hf]
  · exact .inl ⟨cw, rest, hs, exec_of_vleRow hi⟩
  · exact .inl ⟨cw, rest, hs, fun _ => rfl⟩
  · exact .inr ⟨hs, fun _ => rfl⟩

theorem stream_length (s : State) : s.stream.length = nibblesLeft s.dec :=
  nibblesAhead_length Config.nibbleFill s.readDecIn s.dec

/-- A codeword cut short always ends in EXHAUSTED: it asks for one nibble more than there are (R222). -/
theorem runCutShort_eq (s : State) :
    ∃ d, runCutShort s = State.takeFault { s with dec := d } .dec .exhausted ∧
      d.nib = 0 ∧ d.rd = d.inWords ∧
      d = { s.dec with word := d.word, nib := d.nib, rd := d.rd,
                       acc := d.acc, ovf := d.ovf, sh := d.sh } := by
  rcases decVle_cases (s.stream.map nibblePayload ++ [0]) s with ⟨h, _⟩ | ⟨_, d, h, hd⟩
  · simp [stream_length] at h
  · exact ⟨d, by rw [runCutShort, h, settle_raised], hd⟩

/-! ### Commands -/

/-- Four bytes in the hardware's order are the word again (R66). -/
theorem bytesWord_wordByte (v : Word) :
    bytesWord (wordByte v 0) (wordByte v 1) (wordByte v 2) (wordByte v 3) = v := by
  apply BitVec.eq_of_getLsbD_eq
  intro k hk
  simp only [bytesWord, Config.byteOrder, wordByte, BitVec.getLsbD_append, BitVec.getLsbD_setWidth,
    BitVec.getLsbD_ushiftRight]
  grind

/-- The bytes of a control write decode as its value (log entry 23). -/
theorem decode_ctrl_wordBytes (u : UnitId) (v : Word) :
    decode (.ctrl u) (wordBytes v) = decodeCtrl u v := by
  conv_rhs => rw [← bytesWord_wordByte v]
  rfl

/-- Bits 31:2 of a control write are ignored (R52, R108). -/
theorem decodeCtrl_congr (u : UnitId) {v w : Word} (h : v &&& 3 = w &&& 3) :
    decodeCtrl u v = decodeCtrl u w := by
  have bit (k : Nat) (hk : (3 : Word).getLsbD k = true) : v.getLsbD k = w.getLsbD k := by
    have hbit := congrArg (fun x => BitVec.getLsbD x k) h
    simpa only [BitVec.getLsbD_and, hk, Bool.and_true] using hbit
  simp only [decodeCtrl, bit 0 rfl, bit 1 rfl]

theorem runHost_regWrite_command {i : RegNo} {v : Word} {c : Instr} (h : fetchCommand i v = some c)
    (s : State) : runHost (.regWrite i v) s = exec c s := by
  simp only [runHost, h]

theorem runHost_regWrite_noCommand {i : RegNo} {v : Word} (h : fetchCommand i v = none) (s : State) :
    runHost (.regWrite i v) s = .next (configWrite i v s) := by
  simp only [runHost, h]

theorem fetchCommand_enc (v : Word) : fetchCommand 0 v = (decodeCtrl .enc v).toOption := rfl

theorem fetchCommand_dec (v : Word) : fetchCommand 8 v = (decodeCtrl .dec v).toOption := rfl

/-! ### The statements about single turns and registers -/

/-- Settles O9: each turn runs what the fetch lemmas say it fetches. -/
theorem stepRunsDecodedInstruction : Obligations.StepRunsDecodedInstruction := by
  intro s rest i left r cw v
  refine ⟨fun hb hp hh hd => ?symbol, fun hb hp hh => ?held, fun hb hp hh hd => ?codeword,
    fun hb => ?idle, fun hd => ?enc, fun hd => ?dec⟩ <;> rw [step_withTurns_cons]
  case symbol =>
    have hf : fetchDec (s.withTurns rest) = .instr i :=
      (fetchDec_fresh (s := s.withTurns rest) hb hp hh).trans (fetchAt_of_decode hd)
    rw [runTurn, hf, runFetched]
  case held => rw [runTurn, fetchDec_held (s := s.withTurns rest) hb hp hh, runFetched]
  case codeword =>
    have hf : fetchDecCodeword (s.withTurns rest) = .instr i :=
      (fetchDecCodeword_fresh (s := s.withTurns rest) hb hp hh).trans (fetchAt_of_decode hd)
    rw [runTurn, hf, runFetched]
  case idle => rw [runTurn, fetchDec_idle (s := s.withTurns rest) hb, runFetched]
  case enc =>
    rw [decode_ctrl_wordBytes] at hd
    exact runHost_regWrite_command (by rw [fetchCommand_enc, hd]; rfl) _
  case dec =>
    rw [decode_ctrl_wordBytes] at hd
    exact runHost_regWrite_command (by rw [fetchCommand_dec, hd]; rfl) _

theorem flagBit_getLsbD (b : Bool) {j : Nat} (hj : j < 32) (k : Nat) :
    (flagBit b j).getLsbD k = if k = j then b else false := by
  simp only [flagBit, BitVec.getLsbD_shiftLeft, BitVec.getLsbD_setWidth, BitVec.getLsbD_ofBool]
  grind

/-- CODE stands in bits 7:4 (R42, R47). -/
theorem codeField_getLsbD (c : BitVec 4) (k : Nat) :
    (c.setWidth 32 <<< 4).getLsbD k = if 4 ≤ k ∧ k ≤ 7 then c.getLsbD (k - 4) else false := by
  have hhigh : 4 ≤ k - 4 → c.getLsbD (k - 4) = false := c.getLsbD_of_ge (k - 4)
  simp only [BitVec.getLsbD_shiftLeft, BitVec.getLsbD_setWidth]
  grind

/-- Settles O24: the four fields lie in bits of their own. -/
theorem statusWordBits : Obligations.StatusWordBits := by
  intro st k
  simp only [statusWord, BitVec.getLsbD_or, flagBit_getLsbD _ (show 0 < 32 by decide),
    flagBit_getLsbD _ (show 1 < 32 by decide), flagBit_getLsbD _ (show 2 < 32 by decide),
    codeField_getLsbD]
  rcases Nat.lt_or_ge k 3 with h | h
  · interval_cases k <;> simp
  · simp [show k ≠ 0 by omega, show k ≠ 1 by omega, show k ≠ 2 by omega]

/-- Settles O25. -/
theorem reservedRegistersReadZero : Obligations.ReservedRegistersReadZero := by
  intro s v w
  refine ⟨fun i hi => ?reserved, fun h i hi => ?control, fun i hi => ?status⟩
  case reserved => fin_cases hi <;> exact ⟨rfl, rfl⟩
  case control =>
    have hcommand : fetchCommand i v = fetchCommand i w := by
      simp only [fetchCommand, decodeCtrl_congr _ h]
    have hconfig : configWrite i v s = configWrite i w s := by fin_cases hi <;> rfl
    simp only [runHost, hcommand, hconfig]
  case status =>
    have hbits (st : Status) (k : Nat) (hk : k = 3 ∨ 8 ≤ k) : (statusWord st).getLsbD k = false := by
      rw [statusWordBits, if_neg (by omega), if_neg (by omega), if_neg (by omega),
        if_neg (by omega)]
    fin_cases hi
    · exact ⟨statusWord s.enc.status, rfl, hbits _⟩
    · exact ⟨statusWord s.dec.status, rfl, hbits _⟩

/-- Settles O21. -/
theorem hardwareResetClearsBothUnits : Obligations.HardwareResetClearsBothUnits := by
  refine ⟨fun s kept => ⟨s.hardReset kept, rfl, rfl, rfl, ?_⟩, fun s => ⟨rfl, rfl, rfl, rfl⟩⟩
  exact ⟨fun h => readEncIn_hardReset_kept h s, fun h => readEncOut_hardReset_kept h s,
    fun h => readDecIn_hardReset_kept h s, fun h => readDecOut_hardReset_kept h s,
    fun h => ⟨resetBuf_drawn h _, resetEpoch_drawn h _⟩,
    fun h => ⟨resetBuf_drawn h _, resetEpoch_drawn h _⟩,
    fun h => ⟨resetBuf_drawn h _, resetEpoch_drawn h _⟩,
    fun h => ⟨resetBuf_drawn h _, resetEpoch_drawn h _⟩, rfl, rfl, rfl⟩

end Sys2Proof.Machine

/-! ## A unit's step acts on that unit alone (R20)

`ActsOn` says of an operation both that it changes nothing but its unit's result and that it gives the
same result whatever the other unit holds; it is closed under `andThen` and `settle`, so each step is
put together from its parts. -/

namespace Sys2Proof.Machine

/-! ### The other unit's part of a state, and a unit's result -/

def otherUnit : UnitId → UnitId
  | .enc => .dec
  | .dec => .enc

/-- `s` with unit `u`, its registers and both its buffers, taken from `x`. -/
def State.setUnit (s : State) (u : UnitId) (x : State) : State :=
  match u with
  | .enc => { s with enc := x.enc, encIn := x.encIn, encOut := x.encOut }
  | .dec => { s with dec := x.dec, decIn := x.decIn, decOut := x.decOut }

/-- `s` with the registers and the output buffer of unit `u` taken from `x`. -/
def State.setResult (s : State) (u : UnitId) (x : State) : State :=
  match u with
  | .enc => { s with enc := x.enc, encOut := x.encOut }
  | .dec => { s with dec := x.dec, decOut := x.decOut }

theorem setUnit_self (s : State) (u : UnitId) : s.setUnit u s = s := by cases u <;> rfl

theorem setResult_setUnit_other (s x r : State) (u : UnitId) :
    (s.setUnit (otherUnit u) x).setResult u r = (s.setResult u r).setUnit (otherUnit u) x := by
  cases u <;> rfl

theorem setResult_setResult (s r r' : State) (u : UnitId) :
    (s.setResult u r).setResult u r' = s.setResult u r' := by cases u <;> rfl

theorem takeFault_setResult (s r : State) (u : UnitId) (c : FaultCode) :
    (s.setResult u r).takeFault u c = s.setResult u (r.takeFault u c) := by cases u <;> rfl

/-- From `s`, `f` ends the same way and with the same result of unit `u` whatever the other unit and
its buffers hold, and changes nothing but that result. -/
def ActsOn (u : UnitId) (f : State → Ended) (s : State) : Prop :=
  ∃ r : State,
    (∀ x, f (s.setUnit (otherUnit u) x) = .ok ((s.setUnit (otherUnit u) x).setResult u r)) ∨
    ∃ c, ∀ x, f (s.setUnit (otherUnit u) x) =
      .raised c ((s.setUnit (otherUnit u) x).setResult u r)

/-- The same of a step, which always ends in a state. -/
def StepActsOn (u : UnitId) (f : State → State) (s : State) : Prop :=
  ∃ r : State, ∀ x, f (s.setUnit (otherUnit u) x) = (s.setUnit (otherUnit u) x).setResult u r

theorem ActsOn.andThen {u : UnitId} {m f : State → Ended} {s : State} (hm : ActsOn u m s)
    (hf : ∀ r, ActsOn u f (s.setResult u r)) :
    ActsOn u (fun s => Machine.andThen (m s) f) s := by
  obtain ⟨r, hr | ⟨c, hr⟩⟩ := hm
  · obtain ⟨r', h⟩ := hf r
    simp only [← setResult_setUnit_other, setResult_setResult] at h
    exact ⟨r', by simpa only [hr, andThen_ok] using h⟩
  · exact ⟨r, .inr ⟨c, fun x => by simp only [hr, andThen_raised]⟩⟩

theorem ActsOn.settle {u : UnitId} {f : State → Ended} {s : State} (h : ActsOn u f s) :
    StepActsOn u (fun s => Machine.settle u (f s)) s := by
  obtain ⟨r, hr | ⟨c, hr⟩⟩ := h
  · exact ⟨r, fun x => by simp only [hr, settle_ok]⟩
  · exact ⟨r.takeFault u c, fun x => by simp only [hr, settle_raised, takeFault_setResult]⟩

/-- What acts on `u` alone leaves everything but `u`'s result as it was. -/
theorem StepActsOn.frame {u : UnitId} {f : State → State} {s : State} (h : StepActsOn u f s) :
    f s = s.setResult u (f s) := by
  obtain ⟨r, hr⟩ := h
  have hs := hr s
  rw [setUnit_self] at hs
  rw [hs]
  cases u <;> rfl

/-- What acts on `u` alone has the same result whatever the other unit holds. -/
theorem StepActsOn.blind {u : UnitId} {f : State → State} {s : State} (h : StepActsOn u f s)
    (x : State) : f (s.setUnit (otherUnit u) x) = (f s).setUnit (otherUnit u) x := by
  obtain ⟨r, hr⟩ := h
  have hs := hr s
  rw [setUnit_self] at hs
  rw [hr, hs, setResult_setUnit_other]

theorem actsOn_ok {u : UnitId} {g : State → State} {s : State}
    (h : ∀ x, g (s.setUnit (otherUnit u) x) = (s.setUnit (otherUnit u) x).setResult u (g s)) :
    ActsOn u (fun s => .ok (g s)) s :=
  ⟨g s, .inl fun x => congrArg Ended.ok (h x)⟩

theorem ActsOn.congr {u : UnitId} {f g : State → Ended} {s : State} (h : ActsOn u g s)
    (hfg : ∀ x, f (s.setUnit (otherUnit u) x) = g (s.setUnit (otherUnit u) x)) : ActsOn u f s := by
  unfold ActsOn
  simp only [hfg]
  exact h

/-! ### The steps of ENC by phase (R158) -/

theorem encPhaseStep_idle {s : State} (h : s.enc.phase = .idle) : encPhaseStep s = .ok s := by
  simp [encPhaseStep, h]

theorem encPhaseStep_pair {s : State} (h : s.enc.phase = .pair) : encPhaseStep s = encPair s := by
  simp [encPhaseStep, h]

theorem encPhaseStep_zrun {s : State} (h : s.enc.phase = .zrun) : encPhaseStep s = encZRun s := by
  simp [encPhaseStep, h]

theorem encPhaseStep_nrun {s : State} (h : s.enc.phase = .nrun) : encPhaseStep s = encNRun s := by
  simp [encPhaseStep, h]

theorem encPhaseStep_delta {s : State} (h : s.enc.phase = .delta) :
    encPhaseStep s = encDelta s := by
  simp [encPhaseStep, h]

theorem encPhaseStep_flush {s : State} (h : s.enc.phase = .flush) : encPhaseStep s = encEnd s := by
  simp [encPhaseStep, h]

theorem encStep_busy {s : State} (h : s.enc.status.busy = true) :
    encStep s = settle .enc (encPhaseStep s) := if_pos h

theorem encStep_notBusy {s : State} (h : s.enc.status.busy = false) : encStep s = s := by
  simp [encStep, h]

/-! ### ENC acts on ENC alone -/

/-- An encoder micro-operation whose outcome does not depend on DEC. -/
theorem actsOn_put {p : State → Put} {s : State} (h : ∀ x, p (s.setUnit .dec x) = p s) :
    ActsOn .enc (fun s => s.put (p s)) s := by
  unfold ActsOn
  simp only [otherUnit, h]
  cases p s with
  | ok e out => exact ⟨{ s with enc := e, encOut := out }, .inl fun _ => rfl⟩
  | full e out => exact ⟨{ s with enc := e, encOut := out }, .inr ⟨.outFull, fun _ => rfl⟩⟩

theorem encVle_actsOn (n : Nat) (s : State) : ActsOn .enc (encVle n) s :=
  actsOn_put (p := fun s => putNibs Config.nibbleFill (vleNibbles n) s.enc s.encOut) fun _ => rfl

theorem encFlush_actsOn (s : State) : ActsOn .enc encFlush s :=
  actsOn_put (p := fun s => flushNibs Config.nibbleFill s.enc s.encOut) fun _ => rfl

theorem encPair_actsOn (s : State) : ActsOn .enc encPair s :=
  actsOn_ok fun _ => rfl

theorem encZRun_actsOn (s : State) : ActsOn .enc encZRun s :=
  (encVle_actsOn (s.encRun true) s).andThen (f := fun s' => .ok { s' with enc := { s'.enc with
    pos := s'.enc.pos + BitVec.ofNat Config.countW (s.encRun true), phase := .nrun } })
    fun _ => actsOn_ok fun _ => rfl

theorem encNRun_actsOn (s : State) : ActsOn .enc encNRun s :=
  (encVle_actsOn (s.encRun false) s).andThen (f := fun s' => .ok { s' with enc := { s'.enc with
    run := BitVec.ofNat Config.countW (s.encRun false),
    phase := if s.encRun false = 0 then .pair else .delta } })
    fun _ => actsOn_ok fun _ => rfl

/-- ENCVLE of the next delta, with DELTA(v) setting the predictor before (R140, R162). -/
def encDeltaVle (s : State) : Ended :=
  encVle (zzEnc (sampleDelta (s.readEncIn s.enc.pos.toNat) s.enc.prev))
    { s with enc := { s.enc with prev := s.readEncIn s.enc.pos.toNat } }

theorem encDelta_eq (s : State) : encDelta s = andThen (encDeltaVle s) (fun s' =>
    .ok { s' with enc := { s'.enc with
      pos := s'.enc.pos + 1, run := s'.enc.run - 1,
      phase := if s'.enc.run - 1 = 0 then .pair else .delta } }) := rfl

theorem encDeltaVle_actsOn (s : State) : ActsOn .enc encDeltaVle s :=
  (encVle_actsOn (zzEnc (sampleDelta (s.readEncIn s.enc.pos.toNat) s.enc.prev))
    { s with enc := { s.enc with prev := s.readEncIn s.enc.pos.toNat } })

theorem encDelta_actsOn (s : State) : ActsOn .enc encDelta s :=
  ((encDeltaVle_actsOn s).andThen fun _ => actsOn_ok fun _ => rfl).congr fun _ => encDelta_eq _

theorem encEnd_actsOn (s : State) : ActsOn .enc encEnd s :=
  (encFlush_actsOn s).andThen fun _ => actsOn_ok fun _ => rfl

theorem encPhaseStep_actsOn (s : State) : ActsOn .enc encPhaseStep s := by
  cases h : s.enc.phase with
  | idle => exact (actsOn_ok (g := id) fun _ => rfl).congr fun x => encPhaseStep_idle h
  | pair => exact (encPair_actsOn s).congr fun x => encPhaseStep_pair h
  | zrun => exact (encZRun_actsOn s).congr fun x => encPhaseStep_zrun h
  | nrun => exact (encNRun_actsOn s).congr fun x => encPhaseStep_nrun h
  | delta => exact (encDelta_actsOn s).congr fun x => encPhaseStep_delta h
  | flush => exact (encEnd_actsOn s).congr fun x => encPhaseStep_flush h

theorem encStep_actsOn (s : State) : StepActsOn .enc encStep s := by
  cases h : s.enc.status.busy with
  | false => exact ⟨s, fun _ => encStep_notBusy h⟩
  | true =>
    obtain ⟨r, hr⟩ := (encPhaseStep_actsOn s).settle
    exact ⟨r, fun x => (encStep_busy (s := s.setUnit .dec x) h).trans (hr x)⟩

/-! ### DEC acts on DEC alone -/

theorem decVle_of_ok {cw : Codeword} {s : State} {d : DecUnit}
    (h : takeNibbles Config.nibbleFill s.readDecIn cw s.dec.clearScratch = .ok d) :
    decVle cw s = .ok { s with dec := d } := by
  simp only [decVle, h]

theorem decVle_of_exhausted {cw : Codeword} {s : State} {d : DecUnit}
    (h : takeNibbles Config.nibbleFill s.readDecIn cw s.dec.clearScratch = .exhausted d) :
    decVle cw s = .raised .exhausted { s with dec := d } := by
  simp only [decVle, h]

theorem symbolOperand_fresh {cw : Codeword} {s : State} (h : s.dec.held = none) :
    symbolOperand cw s = decVle cw s := by
  simp only [symbolOperand, h]

theorem symbolOperand_held {cw c : Codeword} {s : State} (h : s.dec.held = some c) :
    symbolOperand cw s = .ok { s with dec := { s.dec with held := none } } := by
  simp only [symbolOperand, h]

theorem decVle_actsOn (cw : Codeword) (s : State) : ActsOn .dec (decVle cw) s := by
  cases h : takeNibbles Config.nibbleFill s.readDecIn cw s.dec.clearScratch with
  | ok d => exact ⟨{ s with dec := d }, .inl fun x => decVle_of_ok (s := s.setUnit .enc x) h⟩
  | exhausted d =>
    exact ⟨{ s with dec := d }, .inr ⟨_, fun x => decVle_of_exhausted (s := s.setUnit .enc x) h⟩⟩

theorem symbolOperand_actsOn (cw : Codeword) (s : State) : ActsOn .dec (symbolOperand cw) s := by
  cases h : s.dec.held with
  | none => exact (decVle_actsOn cw s).congr fun x => symbolOperand_fresh (s := s.setUnit .enc x) h
  | some c =>
    exact ⟨{ s with dec := { s.dec with held := none } },
      .inl fun x => symbolOperand_held (s := s.setUnit .enc x) h⟩

theorem zRunBody_actsOn (s : State) : ActsOn .dec zRunBody s := by
  by_cases h : overRemaining s.dec = true
  · exact ⟨s, .inr ⟨.overrun, fun _ => if_pos h⟩⟩
  · exact ⟨{ s with
      decOut := bufFill s.decOut s.dec.cnt.toNat 0 s.dec.acc.toNat
      dec := { s.dec with cnt := s.dec.cnt + s.dec.acc, phase := .nrun } },
      .inl fun _ => if_neg h⟩

theorem nRunBody_actsOn (s : State) : ActsOn .dec nRunBody s := by
  by_cases h : overRemaining s.dec = true
  · exact ⟨s, .inr ⟨.overrun, fun _ => if_pos h⟩⟩
  · exact ⟨{ s with dec := { s.dec with
      run := s.dec.acc, phase := if s.dec.acc = 0 then .pair else .delta } },
      .inl fun _ => if_neg h⟩

theorem deltaBody_range {s : State} (h : reconstruct s.dec = none) :
    deltaBody s = .raised .range s := by
  simp only [deltaBody, h]

theorem deltaBody_sample {s : State} {v : Sample} (h : reconstruct s.dec = some v) :
    deltaBody s = .ok { s with
      decOut := bufWrite s.decOut s.dec.cnt.toNat v
      dec := { s.dec with
        prev := v, cnt := s.dec.cnt + 1, run := s.dec.run - 1,
        phase := if s.dec.run - 1 = 0 then .pair else .delta } } := by
  simp only [deltaBody, h]

theorem deltaBody_actsOn (s : State) : ActsOn .dec deltaBody s := by
  cases h : reconstruct s.dec with
  | none => exact ⟨s, .inr ⟨.range, fun x => deltaBody_range (s := s.setUnit .enc x) h⟩⟩
  | some v =>
    exact ⟨{ s with
      decOut := bufWrite s.decOut s.dec.cnt.toNat v
      dec := { s.dec with
        prev := v, cnt := s.dec.cnt + 1, run := s.dec.run - 1,
        phase := if s.dec.run - 1 = 0 then .pair else .delta } },
      .inl fun x => deltaBody_sample (s := s.setUnit .enc x) h⟩

theorem symbolBody_actsOn (r : Role) (s : State) : ActsOn .dec (symbolBody r) s := by
  cases r with
  | z => exact zRunBody_actsOn s
  | n => exact nRunBody_actsOn s
  | d => exact deltaBody_actsOn s

/-- A symbol step of DEC: the operand, the body of the role, the fault if one is raised. -/
def symbolStep (r : Role) (cw : Codeword) (s : State) : State :=
  settle .dec (andThen (symbolOperand cw s) (symbolBody r))

theorem symbolStep_actsOn (r : Role) (cw : Codeword) (s : State) :
    StepActsOn .dec (symbolStep r cw) s :=
  ((symbolOperand_actsOn cw s).andThen fun _ => symbolBody_actsOn r _).settle

theorem readCodeword_actsOn (cw : Codeword) (s : State) : StepActsOn .dec (readCodeword cw) s :=
  ((decVle_actsOn cw s).andThen fun _ => actsOn_ok fun _ => rfl).settle

theorem runCutShort_actsOn (s : State) : StepActsOn .dec runCutShort s :=
  (decVle_actsOn (s.stream.map nibblePayload ++ [0]) s).settle

theorem decPair_actsOn (s : State) : StepActsOn .dec decPair s := by
  by_cases h : s.dec.cnt = s.dec.numPixels
  · exact ⟨{ s with dec := { s.dec with phase := .idle, status := s.dec.status.finished } },
      fun _ => if_pos h⟩
  · exact ⟨{ s with dec := { s.dec with phase := .zrun } }, fun _ => if_neg h⟩

theorem id_actsOn (u : UnitId) (s : State) : StepActsOn u id s := ⟨s, fun _ => by cases u <;> rfl⟩

/-- Both turns of DEC act on DEC alone: what they fetch does not depend on ENC, and what is fetched for
DEC is never a command. -/
theorem decTurn_actsOn {u : Turn} (hu : u = .dec ∨ u = .decCodeword) (s : State) :
    ∃ f, StepActsOn .dec f s ∧ ∀ x, runTurn u (s.setUnit .enc x) = .next (f (s.setUnit .enc x)) := by
  rcases hu with rfl | rfl
  · have hrun (x : State) :
        runTurn .dec (s.setUnit .enc x) = runFetched (fetchDec s) (s.setUnit .enc x) := rfl
    simp only [hrun]
    rcases fetchDec_cases s with ⟨_, hf⟩ | ⟨_, _, hf⟩ | ⟨_, _, hf⟩ | ⟨r, cw, _, _, hf⟩ |
      ⟨_, _, _, hf⟩ <;> rw [hf]
    · exact ⟨id, id_actsOn .dec s, fun _ => rfl⟩
    · exact ⟨decPair, decPair_actsOn s, fun _ => rfl⟩
    · exact ⟨id, id_actsOn .dec s, fun _ => rfl⟩
    · exact ⟨symbolStep r cw, symbolStep_actsOn r cw s, fun _ => exec_symbolInstr r cw _⟩
    · exact ⟨runCutShort, runCutShort_actsOn s, fun _ => rfl⟩
  · have hrun (x : State) : runTurn .decCodeword (s.setUnit .enc x) =
        runFetched (fetchDecCodeword s) (s.setUnit .enc x) := rfl
    simp only [hrun]
    rcases fetchDecCodeword_cases s with hf | ⟨_, _, _, hf⟩ <;> rw [hf]
    · exact ⟨id, id_actsOn .dec s, fun _ => rfl⟩
    · rcases runFetched_codeword_cases s with ⟨cw, _, _, hr⟩ | ⟨_, hr⟩
      · exact ⟨readCodeword cw, readCodeword_actsOn cw s, fun _ => hr _⟩
      · exact ⟨runCutShort, runCutShort_actsOn s, fun _ => hr _⟩

/-- Settles O50: an ENC step acts on ENC alone, a DEC turn on DEC alone. -/
theorem unitsShareNothing : Obligations.UnitsShareNothing := by
  intro s e d a b c o
  refine ⟨(encStep_actsOn s).blind { s with dec := d, decIn := c, decOut := o },
    (encStep_actsOn s).frame, fun u hu => ?_⟩
  obtain ⟨f, hf, hrun⟩ := decTurn_actsOn (by simpa using hu) s
  have hself : runTurn u s = .next (f s) := hrun s
  have hother (x : State) : runTurn u (s.setUnit .enc x) = .next ((f s).setUnit .enc x) :=
    (hrun x).trans (congrArg Host.Outcome.next (hf.blind x))
  exact ⟨f s, hself, hf.frame, hother { s with enc := e, encIn := a, encOut := b }⟩

end Sys2Proof.Machine

/-! ## Every step keeps the invariants (R22, R29, R37, R38, R42, R47, R60)

`EncOk` and `DecOk` are split into the case of an idle unit, where only the status counts, and the case
of a running one (`EncRunning`, `DecRunning`); then each micro-operation and each phase is taken once. -/

namespace Sys2Proof.Machine

/-! ### Counts that do not wrap (R23, R27, R30, R34) -/

theorem count_toNat_ne_zero {a : Count} (h : a ≠ 0) : a.toNat ≠ 0 :=
  fun h0 => h (BitVec.eq_of_toNat_eq h0)

theorem count_add_toNat {a b n : Count} (h : a.toNat + n.toNat ≤ b.toNat) :
    (a + n).toNat = a.toNat + n.toNat := by
  have := count_lt b
  rw [count_toNat_add]
  omega

theorem count_add_ofNat {a b : Count} {n : Nat} (h : a.toNat + n ≤ b.toNat) :
    (a + BitVec.ofNat Config.countW n).toNat = a.toNat + n := by
  have hb := count_lt b
  rw [count_toNat_add, count_toNat_ofNat]
  omega

theorem count_pred_toNat {a : Count} (h : 0 < a.toNat) : (a - 1).toNat = a.toNat - 1 := by
  have ha := count_lt a
  rw [count_toNat_sub, count_toNat_one]
  omega

theorem count_succ_toNat {a b : Count} (hle : a.toNat ≤ b.toNat) (hne : a ≠ b) :
    (a + 1).toNat = a.toNat + 1 ∧ a.toNat + 1 ≤ b.toNat := by
  have hlt : a.toNat ≠ b.toNat := fun h => hne (BitVec.eq_of_toNat_eq h)
  have hb := count_lt b
  rw [count_toNat_add, count_toNat_one]
  omega

/-- The elements a step writes, those from its counter to where it moves it, are elements of a buffer. -/
theorem count_window (a b : Count) (k : Nat) : a.toNat + min k (b.toNat - a.toNat) ≤ 2 ^ 32 := by
  have := count_lt a
  have := count_lt b
  omega

/-! ### Buffers in their form -/

/-- A buffer in its form, with indices in range: what `BuffersOk` says of each of the four. -/
def bufOk {w : Nat} (b : Buf w) : Prop := bufWf b = true ∧ bufInRange b

theorem buffersOk_iff (s : State) :
    BuffersOk s ↔ bufOk s.encIn ∧ bufOk s.encOut ∧ bufOk s.decIn ∧ bufOk s.decOut := by
  constructor
  · rintro ⟨hwf, h1, h2, h3, h4⟩
    simp only [State.buffersWf, Bool.and_eq_true] at hwf
    obtain ⟨⟨⟨w1, w2⟩, w3⟩, w4⟩ := hwf
    exact ⟨⟨w1, h1⟩, ⟨w2, h2⟩, ⟨w3, h3⟩, ⟨w4, h4⟩⟩
  · rintro ⟨⟨w1, h1⟩, ⟨w2, h2⟩, ⟨w3, h3⟩, ⟨w4, h4⟩⟩
    exact ⟨by simp [State.buffersWf, w1, w2, w3, w4], h1, h2, h3, h4⟩

section
variable {w : Nat} {b : Buf w}

theorem bufOk.write (h : bufOk b) (i : Count) (v : BitVec w) : bufOk (bufWrite b i.toNat v) :=
  ⟨bufWrite_wf _ _ _ h.1, bufWrite_inRange _ _ i.isLt h.2⟩

theorem bufOk.fill (h : bufOk b) {start n : Nat} (hn : start + n ≤ 2 ^ 32) (v : BitVec w) :
    bufOk (bufFill b start v n) :=
  ⟨bufFill_wf _ _ _ _ h.1, bufFill_inRange _ _ hn h.2⟩

theorem bufOk.copy (h : bufOk b) (src : Buf w) {start n : Nat} (hn : start + n ≤ 2 ^ 32) :
    bufOk (bufCopy src b start n) :=
  ⟨bufCopy_wf _ _ _ _ h.1, bufCopy_inRange _ _ hn h.2⟩

theorem bufOk.reset (h : bufOk b) (kept : List Space) (sp : Space) : bufOk (resetBuf kept sp b) :=
  ⟨resetBuf_wf _ _ h.1, resetBuf_inRange _ _ h.2⟩

theorem bufOk_nil : bufOk ([] : Buf w) := ⟨rfl, nofun⟩

end

/-! ### Status registers -/

/-- A busy unit's status is the one START set: no step of an operation changes it before its end. -/
theorem statusOk.eq_started {codes : List (BitVec 4)} {st : Status} (h : statusOk codes st)
    (hb : st.busy = true) : st = Status.started := by
  obtain ⟨hbd, herr, hcode, _⟩ := h
  obtain ⟨busy, done, err, code⟩ := st
  obtain rfl : busy = true := hb
  obtain rfl : done = false := by simpa using hbd
  obtain rfl : err = false := by simpa using herr
  obtain rfl : code = 0 := hcode rfl
  rfl

theorem statusOk_started {codes : List (BitVec 4)} (h : 0 ∈ codes) :
    statusOk codes Status.started := ⟨by simp, by simp, by simp, h⟩

theorem statusOk_finished {codes : List (BitVec 4)} (h : 0 ∈ codes) :
    statusOk codes Status.started.finished := ⟨by simp, by simp, by simp, h⟩

theorem statusOk_reset {codes : List (BitVec 4)} (h : 0 ∈ codes) :
    statusOk codes Status.reset := ⟨nofun, nofun, fun _ => rfl, h⟩

theorem faultNumber_ne_zero (c : FaultCode) : faultNumber c ≠ 0 := by cases c <;> decide

theorem statusOk_faulted {codes : List (BitVec 4)} {c : FaultCode} (h : faultNumber c ∈ codes) :
    statusOk codes (Status.faulted c) :=
  ⟨by simp, fun _ => ⟨rfl, faultNumber_ne_zero c⟩, by simp, h⟩

/-! ### ENC: idle or running -/

theorem EncOk.congr {s t : State} (h : EncOk s) (he : t.enc = s.enc)
    (hm : t.readEncIn = s.readEncIn) : EncOk t := by
  obtain ⟨h1, h2, h3, h4, h5, h6, h7, h8, h9, h10, h11⟩ := h
  constructor <;> simpa only [he, hm, State.encSamples]

/-- The registers PUTNIB works on are in range, the free nibble slots 0 (R37 items 1, 2). -/
def PackerOk (e : EncUnit) : Prop :=
  e.wr.toNat ≤ e.outCap.toNat ∧ e.word.toNat < 16 ^ e.nib.toNat

/-- What `EncOk` says of each phase of a running ENC; `mem` reads ENC_IN. -/
def EncPhaseOk (mem : Nat → Sample) (e : EncUnit) : EncPhase → Prop
  | .idle => False
  | .pair => True
  | .zrun => e.pos.toNat < e.numPixels.toNat
  | .nrun => True
  | .delta => 0 < e.run.toNat ∧ e.pos.toNat + e.run.toNat ≤ e.numPixels.toNat ∧
      ∀ j, j < e.run.toNat → mem (e.pos.toNat + j) ≠ 0
  | .flush => e.pos = e.numPixels

/-- `EncOk` of a running ENC, of its registers and what it reads alone. -/
structure EncRunning (mem : Nat → Sample) (e : EncUnit) : Prop where
  status : e.status = Status.started
  pos_le : e.pos.toNat ≤ e.numPixels.toNat
  packer : PackerOk e
  predictor : e.prev = lastNonZero ((List.range e.pos.toNat).map mem)
  phase : EncPhaseOk mem e e.phase

theorem EncRunning.encOk {s : State} (h : EncRunning s.readEncIn s.enc) : EncOk s := by
  obtain ⟨hst, hpos, ⟨hwr, hfree⟩, hpred, hph⟩ := h
  have hbusy : s.enc.status.busy = true := by rw [hst]; rfl
  constructor
  case busy_iff => exact ⟨fun _ hi => by rw [hi] at hph; exact hph, fun _ => hbusy⟩
  case status => rw [hst]; exact statusOk_started (by simp)
  case pos_le => exact fun _ => hpos
  case wr_le => exact fun _ => hwr
  case free_slots => exact fun _ => hfree
  case predictor => exact fun _ => hpred
  case zrun_room => intro h; rw [h] at hph; exact hph
  case run_pos => intro h; rw [h] at hph; exact hph.1
  case run_room => intro h; rw [h] at hph; exact hph.2.1
  case run_nonzero => intro h; rw [h] at hph; exact hph.2.2
  case flush_end => intro h; rw [h] at hph; exact hph

theorem EncOk.running {s : State} (h : EncOk s) (hb : s.enc.status.busy = true) :
    EncRunning s.readEncIn s.enc := by
  refine ⟨h.status.eq_started hb, h.pos_le hb, ⟨h.wr_le hb, h.free_slots hb⟩, h.predictor hb, ?_⟩
  cases hp : s.enc.phase with
  | idle => exact h.busy_iff.1 hb hp
  | pair => trivial
  | zrun => exact h.zrun_room hp
  | nrun => trivial
  | delta => exact ⟨h.run_pos hp, h.run_room hp, h.run_nonzero hp⟩
  | flush => exact h.flush_end hp

/-- An idle ENC needs only a legal status. -/
theorem encOk_of_idle {s : State} (hp : s.enc.phase = .idle) (hb : s.enc.status.busy = false)
    (hst : statusOk [0, 4] s.enc.status) : EncOk s := by
  constructor
  case status => exact hst
  all_goals simp [hp, hb]

theorem EncOk.phase_idle {s : State} (h : EncOk s) (hb : s.enc.status.busy = false) :
    s.enc.phase = .idle := by
  by_contra hp
  simp [h.busy_iff.2 hp] at hb

/-! ### DEC: idle or running -/

theorem DecOk.congr {s t : State} (h : DecOk s) (hd : t.dec = s.dec) : DecOk t := by
  obtain ⟨h1, h2, h3, h4, h5, h6, h7, h8, h9, h10, h11⟩ := h
  constructor <;> simpa only [hd]

/-- The registers GETNIB works on are in range, the consumed nibble slots shifted out (R38 items 1, 2). -/
def CursorOk (d : DecUnit) : Prop :=
  d.rd.toNat ≤ d.inWords.toNat ∧ d.nib.toNat ≤ 8 ∧ (0 < d.nib.toNat → 0 < d.rd.toNat) ∧
    d.word.toNat < 16 ^ d.nib.toNat

/-- What `DecOk` says of each phase of a running DEC. -/
def DecPhaseOk (d : DecUnit) : DecPhase → Prop
  | .idle => False
  | .pair => d.held = none
  | .zrun => d.cnt.toNat < d.numPixels.toNat
  | .nrun => True
  | .delta => 0 < d.run.toNat ∧ d.cnt.toNat + d.run.toNat ≤ d.numPixels.toNat

/-- `DecOk` of a running DEC, of its registers alone. -/
structure DecRunning (d : DecUnit) : Prop where
  status : d.status = Status.started
  cnt_le : d.cnt.toNat ≤ d.numPixels.toNat
  cursor : CursorOk d
  phase : DecPhaseOk d d.phase

theorem DecRunning.decOk {s : State} (h : DecRunning s.dec) : DecOk s := by
  obtain ⟨hst, hcnt, ⟨hrd, hnib, hfetched, hout⟩, hph⟩ := h
  have hbusy : s.dec.status.busy = true := by rw [hst]; rfl
  constructor
  case busy_iff => exact ⟨fun _ hi => by rw [hi] at hph; exact hph, fun _ => hbusy⟩
  case status => rw [hst]; exact statusOk_started (by simp)
  case cnt_le => exact fun _ => hcnt
  case rd_le => exact fun _ => hrd
  case nib_le => exact fun _ => hnib
  case fetched => exact fun _ => hfetched
  case shifted_out => exact fun _ => hout
  case zrun_room => intro h; rw [h] at hph; exact hph
  case run_pos => intro h; rw [h] at hph; exact hph.1
  case run_room => intro h; rw [h] at hph; exact hph.2
  case held_phase =>
    intro hh hr
    rcases (phaseRole_eq_none_iff _).1 hr with h | h <;> rw [h] at hph
    · exact hph
    · exact hh hph

theorem DecOk.held_none {s : State} (h : DecOk s) (hr : phaseRole s.dec.phase = none) :
    s.dec.held = none := by
  by_contra hh
  exact h.held_phase hh hr

theorem DecOk.running {s : State} (h : DecOk s) (hb : s.dec.status.busy = true) :
    DecRunning s.dec := by
  refine ⟨h.status.eq_started hb, h.cnt_le hb,
    ⟨h.rd_le hb, h.nib_le hb, h.fetched hb, h.shifted_out hb⟩, ?_⟩
  cases hp : s.dec.phase with
  | idle => exact h.busy_iff.1 hb hp
  | pair => exact h.held_none (by rw [hp]; rfl)
  | zrun => exact h.zrun_room hp
  | nrun => trivial
  | delta => exact ⟨h.run_pos hp, h.run_room hp⟩

/-- An idle DEC needs only a legal status, and no codeword held. -/
theorem decOk_of_idle {s : State} (hp : s.dec.phase = .idle) (hb : s.dec.status.busy = false)
    (hst : statusOk [0, 1, 2, 3] s.dec.status) (hh : s.dec.held = none) : DecOk s := by
  constructor
  case status => exact hst
  all_goals simp [hp, hb, hh]

theorem DecOk.phase_idle {s : State} (h : DecOk s) (hb : s.dec.status.busy = false) :
    s.dec.phase = .idle := by
  by_contra hp
  simp [h.busy_iff.2 hp] at hb

theorem DecOk.held_none_of_notBusy {s : State} (h : DecOk s) (hb : s.dec.status.busy = false) :
    s.dec.held = none := h.held_none (by rw [h.phase_idle hb]; rfl)

/-! ### A good state's parts -/

theorem Safe.of_parts {s : State} (he : EncOk s) (hd : DecOk s) (h1 : bufOk s.encIn)
    (h2 : bufOk s.encOut) (h3 : bufOk s.decIn) (h4 : bufOk s.decOut) : Safe s :=
  ⟨he, hd, (buffersOk_iff s).2 ⟨h1, h2, h3, h4⟩⟩

theorem encOk_reset {s : State} (h : s.enc = EncUnit.reset) : EncOk s :=
  encOk_of_idle (by rw [h]; rfl) (by rw [h]; rfl) (by rw [h]; exact statusOk_reset (by simp))

theorem decOk_reset {s : State} (h : s.dec = DecUnit.reset) : DecOk s :=
  decOk_of_idle (by rw [h]; rfl) (by rw [h]; rfl) (by rw [h]; exact statusOk_reset (by simp))
    (by rw [h]; rfl)

/-- Settles O49: both units idle with a clear status, the buffers empty. -/
theorem resetIsSafe : Obligations.ResetIsSafe :=
  .of_parts (encOk_reset rfl) (decOk_reset rfl) bufOk_nil bufOk_nil bufOk_nil bufOk_nil

end Sys2Proof.Machine

namespace Sys2Proof.Machine

/-! ### ENC's micro-operations keep its registers in range -/

/-- A nibble put into the free slot above `n` nibbles. -/
theorem appendNibble_lt {v : Word} {n : Nat} (nb : Nibble) (hv : v.toNat < 16 ^ n) :
    (appendNibble .lowFirst v n nb).toNat < 16 ^ (n + 1) := by
  have hpow (m : Nat) : 16 ^ m = 2 ^ (4 * m) := by rw [pow_mul]; rfl
  rw [hpow] at hv ⊢
  have hnb : nb.toNat * 2 ^ (4 * n) < 2 ^ (4 * (n + 1)) := by
    have := Nat.mul_lt_mul_of_pos_right nb.isLt (Nat.two_pow_pos (4 * n))
    rwa [← pow_add, Nat.add_comm] at this
  have hshift : (nb.setWidth 32 <<< (4 * n)).toNat ≤ nb.toNat * 2 ^ (4 * n) := by
    rw [BitVec.toNat_shiftLeft, Nat.shiftLeft_eq, BitVec.toNat_setWidth]
    exact (Nat.mod_le _ _).trans (Nat.mul_le_mul_right _ (Nat.mod_le _ _))
  simp only [appendNibble, BitVec.toNat_or]
  exact Nat.or_lt_two_pow (hv.trans (Nat.pow_lt_pow_right (by decide) (by omega)))
    (hshift.trans_lt hnb)

/-- A PUTNIB or FLUSH that leaves the registers and ENC_OUT as they should be. -/
def Put.Good : Put → Prop
  | .ok e out => PackerOk e ∧ bufOk out
  | .full _ out => bufOk out

theorem writeWord_good (v : Word) {e : EncUnit} {out : Buf 32} (hwr : e.wr.toNat ≤ e.outCap.toNat)
    (hout : bufOk out) : (writeWord v e out).Good := by
  rcases writeWord_cases v e out with ⟨_, h⟩ | ⟨hne, h⟩ <;> rw [h]
  · exact hout
  · obtain ⟨hsucc, hle⟩ := count_succ_toNat hwr hne
    exact ⟨⟨hsucc.trans_le hle, Nat.one_pos⟩, hout.write _ _⟩

theorem putNib_good (nb : Nibble) {e : EncUnit} {out : Buf 32} (he : PackerOk e)
    (hout : bufOk out) : (putNib .lowFirst nb e out).Good := by
  obtain ⟨hwr, hfree⟩ := he
  unfold putNib
  split
  · exact writeWord_good _ hwr hout
  · next h7 =>
    have hlt : e.nib.toNat < 7 := by bv_omega
    have hsucc : (e.nib + 1).toNat = e.nib.toNat + 1 := by bv_omega
    refine ⟨⟨hwr, ?_⟩, hout⟩
    simpa only [hsucc] using appendNibble_lt nb hfree

theorem putNibs_good (b : List Nibble) {e : EncUnit} {out : Buf 32} (he : PackerOk e)
    (hout : bufOk out) : (putNibs .lowFirst b e out).Good := by
  induction b generalizing e out with
  | nil => exact ⟨he, hout⟩
  | cons nb rest ih =>
    have h := putNib_good nb he hout
    simp only [putNibs]
    cases hp : putNib .lowFirst nb e out with
    | ok e' out' => rw [hp] at h; exact ih h.1 h.2
    | full e' out' => rw [hp] at h; exact h

/-! ### ENC's steps keep its invariant -/

/-- `e` with the registers PUTNIB changes taken from `p`. -/
def EncUnit.withPacker (e p : EncUnit) : EncUnit :=
  { e with word := p.word, nib := p.nib, wr := p.wr }

/-- An ENC step that keeps the invariant: a good state, or OUT_FULL with ENC_OUT in its form. -/
def Ended.EncGood : Ended → Prop
  | .ok t => EncOk t ∧ bufOk t.encOut
  | .raised c t => c = .outFull ∧ bufOk t.encOut

theorem Ended.EncGood.settle {m : Ended} (h : m.EncGood) :
    EncOk (Machine.settle .enc m) ∧ bufOk (Machine.settle .enc m).encOut := by
  cases m with
  | ok t => exact h
  | raised c t =>
    obtain ⟨rfl, hout⟩ := h
    exact ⟨encOk_of_idle rfl rfl (statusOk_faulted (by decide)), hout⟩

/-- ENCVLE, then `f`: only the packing registers and ENC_OUT differ when `f` starts. -/
theorem encVle_andThen_good {n : Nat} {s : State} {f : State → Ended} (he : PackerOk s.enc)
    (hout : bufOk s.encOut)
    (hf : ∀ p out, PackerOk (s.enc.withPacker p) → bufOk out →
      (f { s with enc := s.enc.withPacker p, encOut := out }).EncGood) :
    (andThen (encVle n s) f).EncGood := by
  have hgood := putNibs_good (vleNibbles n) he hout
  have hframe := putNibs_frame .lowFirst (vleNibbles n) s.enc s.encOut
  have heq : encVle n s = s.put (putNibs .lowFirst (vleNibbles n) s.enc s.encOut) := rfl
  rw [heq]
  cases hp : putNibs .lowFirst (vleNibbles n) s.enc s.encOut with
  | ok e out =>
    rw [hp] at hgood hframe
    have he' : e = s.enc.withPacker e := hframe
    have h := hf e out (he' ▸ hgood.1) hgood.2
    rw [← he'] at h
    exact h
  | full e out => rw [hp] at hgood; exact ⟨rfl, hgood⟩

theorem runLength_le (mem : Nat → Sample) (zero : Bool) (pos n : Nat) :
    runLength mem zero pos n ≤ n := by
  induction n generalizing pos with
  | zero => exact Nat.le_refl 0
  | succ n ih =>
    rw [runLength]
    split
    · exact Nat.succ_le_succ (ih (pos + 1))
    · exact Nat.zero_le _

/-- Every sample of a measured run is of its kind. -/
theorem runLength_mem (mem : Nat → Sample) (zero : Bool) (pos n : Nat) {j : Nat}
    (hj : j < runLength mem zero pos n) : decide (mem (pos + j) = 0) = zero := by
  induction n generalizing pos j with
  | zero => exact absurd hj (Nat.not_lt_zero j)
  | succ n ih =>
    rw [runLength] at hj
    split at hj
    · next h0 =>
      cases j with
      | zero => exact h0
      | succ j =>
        have := ih (pos + 1) (Nat.lt_of_succ_lt_succ hj)
        rwa [Nat.add_assoc, Nat.add_comm 1 j] at this
    · exact absurd hj (Nat.not_lt_zero j)

theorem encRun_le (s : State) (zero : Bool) :
    s.encRun zero ≤ s.enc.numPixels.toNat - s.enc.pos.toNat := runLength_le ..

theorem readEncIn_of_lt_encRun_true {s : State} {j : Nat} (hj : j < s.encRun true) :
    s.readEncIn (s.enc.pos.toNat + j) = 0 :=
  of_decide_eq_true (runLength_mem _ _ _ _ hj)

theorem readEncIn_of_lt_encRun_false {s : State} {j : Nat} (hj : j < s.encRun false) :
    s.readEncIn (s.enc.pos.toNat + j) ≠ 0 :=
  of_decide_eq_false (runLength_mem _ _ _ _ hj)

theorem lastNonZero_concat (x : List Sample) (v : Sample) :
    lastNonZero (x ++ [v]) = if v = 0 then lastNonZero x else v := by
  by_cases hv : v = 0
  · subst hv; simp [lastNonZero]
  · have hlast : [v].filter (fun v => decide (v ≠ 0)) = [v] :=
      List.filter_cons_of_pos (decide_eq_true hv)
    rw [if_neg hv, lastNonZero, List.filter_append, hlast, List.getLastD_concat]

/-- The predictor after one more sample (R37 item 5). -/
theorem lastNonZero_range_succ (mem : Nat → Sample) (n : Nat) :
    lastNonZero ((List.range (n + 1)).map mem) =
      if mem n = 0 then lastNonZero ((List.range n).map mem) else mem n := by
  rw [List.range_succ, List.map_append, List.map_singleton, lastNonZero_concat]

/-- Zeros consumed leave the predictor alone (R37 item 5). -/
theorem lastNonZero_range_zeros {mem : Nat → Sample} {n z : Nat}
    (h : ∀ j, j < z → mem (n + j) = 0) :
    lastNonZero ((List.range (n + z)).map mem) = lastNonZero ((List.range n).map mem) := by
  induction z with
  | zero => rfl
  | succ z ih =>
    rw [← Nat.add_assoc, lastNonZero_range_succ, if_pos (h z (Nat.lt_succ_self z))]
    exact ih fun j hj => h j (Nat.lt_succ_of_lt hj)

theorem encPair_good {s : State} (h : EncRunning s.readEncIn s.enc) (hout : bufOk s.encOut) :
    (encPair s).EncGood := by
  refine ⟨EncRunning.encOk ⟨h.status, h.pos_le, h.packer,
    h.predictor, ?_⟩, hout⟩
  show EncPhaseOk s.readEncIn _ (if s.enc.pos = s.enc.numPixels then .flush else .zrun)
  split
  · next heq => exact heq
  · next hne => exact (count_succ_toNat h.pos_le hne).2

theorem encZRun_good {s : State} (h : EncRunning s.readEncIn s.enc) (hout : bufOk s.encOut) :
    (encZRun s).EncGood := by
  refine encVle_andThen_good h.packer hout fun p out hpk hout' => ⟨EncRunning.encOk ?_, hout'⟩
  have hle : s.enc.pos.toNat + s.encRun true ≤ s.enc.numPixels.toNat := by
    have := encRun_le s true
    have := h.pos_le
    omega
  have hpos := count_add_ofNat hle
  refine ⟨h.status, hpos.trans_le hle, hpk, ?_, trivial⟩
  show s.enc.prev = lastNonZero ((List.range
    (s.enc.pos + BitVec.ofNat Config.countW (s.encRun true)).toNat).map s.readEncIn)
  rw [hpos, lastNonZero_range_zeros fun _ => readEncIn_of_lt_encRun_true]
  exact h.predictor

theorem encNRun_good {s : State} (h : EncRunning s.readEncIn s.enc) (hout : bufOk s.encOut) :
    (encNRun s).EncGood := by
  refine encVle_andThen_good h.packer hout fun p out hpk hout' =>
    ⟨EncRunning.encOk ⟨h.status, h.pos_le, hpk, h.predictor, ?_⟩, hout'⟩
  show EncPhaseOk s.readEncIn { s.enc.withPacker p with
    run := BitVec.ofNat Config.countW (s.encRun false) } (if s.encRun false = 0 then .pair else .delta)
  have hle := encRun_le s false
  have hpos := h.pos_le
  have hrun : (BitVec.ofNat Config.countW (s.encRun false)).toNat = s.encRun false := by
    have := count_lt s.enc.numPixels
    rw [count_toNat_ofNat]
    omega
  split
  · trivial
  · next hne =>
    simp only [EncPhaseOk, EncUnit.withPacker, hrun]
    exact ⟨by omega, by omega, fun j => readEncIn_of_lt_encRun_false⟩

theorem encDelta_good {s : State} (h : EncRunning s.readEncIn s.enc) (hp : s.enc.phase = .delta)
    (hout : bufOk s.encOut) : (encDelta s).EncGood := by
  have hph := h.phase
  rw [hp] at hph
  obtain ⟨hrun, hroom, hnz⟩ := hph
  have hpos : (s.enc.pos + 1).toNat = s.enc.pos.toNat + 1 :=
    count_add_ofNat (n := 1) (b := s.enc.numPixels) (by omega)
  have hpred := count_pred_toNat hrun
  refine encVle_andThen_good (s := { s with enc := { s.enc with
    prev := s.readEncIn s.enc.pos.toNat } }) h.packer hout
    fun p out hpk hout' => ⟨EncRunning.encOk ?_, hout'⟩
  show EncRunning s.readEncIn { s.enc.withPacker p with
    prev := s.readEncIn s.enc.pos.toNat, pos := s.enc.pos + 1, run := s.enc.run - 1,
    phase := if s.enc.run - 1 = 0 then .pair else .delta }
  refine ⟨h.status, ?_, hpk, ?_, ?_⟩
  · exact hpos.trans_le (show s.enc.pos.toNat + 1 ≤ s.enc.numPixels.toNat by omega)
  · simp only [hpos, lastNonZero_range_succ]
    exact (if_neg (hnz 0 hrun)).symm
  · dsimp only
    split
    · trivial
    · next hne =>
      have hne' : (s.enc.run - 1).toNat ≠ 0 := count_toNat_ne_zero hne
      simp only [EncPhaseOk, EncUnit.withPacker, hpos, hpred]
      refine ⟨by omega, by omega, fun j hj => ?_⟩
      rw [Nat.add_assoc]
      exact hnz _ (by omega)

theorem encEnd_good {s : State} (h : EncRunning s.readEncIn s.enc) (hout : bufOk s.encOut) :
    (encEnd s).EncGood := by
  have hst : statusOk [0, 4] s.enc.status.finished := by
    rw [h.status]; exact statusOk_finished (by simp)
  unfold encEnd
  rcases encFlush_cases s with ⟨_, hf⟩ | ⟨_, _, hf⟩ | ⟨_, _, hf⟩ <;> rw [hf]
  · exact ⟨encOk_of_idle rfl rfl hst, hout⟩
  · exact ⟨encOk_of_idle rfl rfl hst, hout.write _ _⟩
  · exact ⟨rfl, hout⟩

theorem encPhaseStep_good {s : State} (h : EncRunning s.readEncIn s.enc) (hout : bufOk s.encOut) :
    (encPhaseStep s).EncGood := by
  cases hp : s.enc.phase with
  | idle => have hph := h.phase; rw [hp] at hph; exact hph.elim
  | pair => rw [encPhaseStep_pair hp]; exact encPair_good h hout
  | zrun => rw [encPhaseStep_zrun hp]; exact encZRun_good h hout
  | nrun => rw [encPhaseStep_nrun hp]; exact encNRun_good h hout
  | delta => rw [encPhaseStep_delta hp]; exact encDelta_good h hp hout
  | flush => rw [encPhaseStep_flush hp]; exact encEnd_good h hout

/-- An ENC step keeps ENC's invariant and the form of ENC_OUT. -/
theorem encStep_keeps {s : State} (h : EncOk s) (hout : bufOk s.encOut) :
    EncOk (encStep s) ∧ bufOk (encStep s).encOut := by
  cases hb : s.enc.status.busy with
  | false => rw [encStep_notBusy hb]; exact ⟨h, hout⟩
  | true => rw [encStep_busy hb]; exact (encPhaseStep_good (h.running hb) hout).settle

end Sys2Proof.Machine

namespace Sys2Proof.Machine

/-! ### DEC's micro-operations keep its registers in range -/

/-- `d` with the cursor and the scratch, which DECVLE changes, taken from `c`. -/
def DecUnit.withCursor (d c : DecUnit) : DecUnit :=
  { d with word := c.word, nib := c.nib, rd := c.rd, acc := c.acc, ovf := c.ovf, sh := c.sh }

/-- Delivering a nibble shifts one slot out and counts it. -/
theorem shiftNibble_cursorOk {d d' : DecUnit} {nb : Nibble} (h : shiftNibble .lowFirst d = (nb, d'))
    (hrd : d.rd.toNat ≤ d.inWords.toNat) (h8 : d.nib.toNat ≤ 8) (h0 : d.nib ≠ 0)
    (hfetched : 0 < d.rd.toNat) (hout : d.word.toNat < 16 ^ d.nib.toNat) : CursorOk d' := by
  obtain rfl : { d with word := d.word >>> 4, nib := d.nib - 1 } = d' := congrArg Prod.snd h
  have hnib : (d.nib - 1).toNat + 1 = d.nib.toNat := by bv_omega
  refine ⟨hrd, ?_, fun _ => hfetched, ?_⟩
  · show (d.nib - 1).toNat ≤ 8
    omega
  · show (d.word >>> 4).toNat < 16 ^ (d.nib - 1).toNat
    rw [BitVec.toNat_ushiftRight, Nat.shiftRight_eq_div_pow]
    rw [← hnib, pow_succ] at hout
    exact Nat.div_lt_of_lt_mul (by omega)

theorem getNib_cursorOk {mem : Nat → Word} {d d' : DecUnit} {nb : Nibble}
    (hg : getNib .lowFirst mem d = some (nb, d')) (h : CursorOk d) : CursorOk d' := by
  obtain ⟨hrd, h8, hfetched, hout⟩ := h
  rcases getNib_cases .lowFirst mem d with ⟨_, _, hn⟩ | ⟨_, hr, hn⟩ | ⟨h0, hn⟩ <;> rw [hn] at hg
  · cases hg
  · obtain ⟨hsucc, hle⟩ := count_succ_toNat hrd hr
    refine shiftNibble_cursorOk (Option.some.inj hg) (hsucc.trans_le hle) (Nat.le_refl 8) (by simp) ?_ ?_
    · exact (Nat.succ_pos _).trans_eq hsucc.symm
    · exact (mem d.rd.toNat).isLt
  · have hpos : 0 < d.nib.toNat := by bv_omega
    exact shiftNibble_cursorOk (Option.some.inj hg) hrd h8 h0 (hfetched hpos) hout

theorem takeNibbles_cursorOk {mem : Nat → Word} {cw : Codeword} {d d' : DecUnit}
    (ht : takeNibbles .lowFirst mem cw d = .ok d') (h : CursorOk d) : CursorOk d' := by
  induction cw generalizing d with
  | nil => cases ht; exact h
  | cons p ps ih =>
    simp only [takeNibbles] at ht
    cases hg : getNib .lowFirst mem d with
    | none => rw [hg] at ht; cases ht
    | some r =>
      rw [hg] at ht
      have hr : CursorOk r.2 := getNib_cursorOk hg h
      exact ih ht hr

/-- DECVLE on a cursor in range: the cursor stays in range, or EXHAUSTED. -/
theorem decVle_cursor_cases (cw : Codeword) {s : State} (h : CursorOk s.dec) :
    (∃ c, decVle cw s = .ok { s with dec := s.dec.withCursor c } ∧ CursorOk (s.dec.withCursor c)) ∨
    ∃ c, decVle cw s = .raised .exhausted { s with dec := s.dec.withCursor c } := by
  cases ht : takeNibbles Config.nibbleFill s.readDecIn cw s.dec.clearScratch with
  | ok d =>
    have hd : d = s.dec.withCursor d := (takeNibbles_frame _ _ _ (.inl ht)).trans rfl
    have hc : CursorOk d := takeNibbles_cursorOk ht h
    exact .inl ⟨d, hd ▸ decVle_of_ok ht, hd ▸ hc⟩
  | exhausted d =>
    have hd : d = s.dec.withCursor d := (takeNibbles_frame _ _ _ (.inr ht)).trans rfl
    exact .inr ⟨d, hd ▸ decVle_of_exhausted ht⟩

/-! ### DEC's steps keep its invariant -/

/-- A DEC step that keeps the invariant: a good state, or a fault of DEC with no codeword held and
DEC_OUT in its form. -/
def Ended.DecGood : Ended → Prop
  | .ok t => DecOk t ∧ bufOk t.decOut
  | .raised c t => c ≠ .outFull ∧ t.dec.held = none ∧ bufOk t.decOut

theorem Ended.DecGood.settle {m : Ended} (h : m.DecGood) :
    DecOk (Machine.settle .dec m) ∧ bufOk (Machine.settle .dec m).decOut := by
  cases m with
  | ok t => exact h
  | raised c t =>
    obtain ⟨hc, hh, hout⟩ := h
    have hcode : faultNumber c ∈ ([0, 1, 2, 3] : List (BitVec 4)) := by
      cases c with
      | outFull => exact absurd rfl hc
      | exhausted => decide
      | overrun => decide
      | range => decide
    exact ⟨decOk_of_idle rfl rfl (statusOk_faulted hcode) hh, hout⟩

/-- DEC's registers once the operand of a symbol is there: nothing held, the rest as before. -/
theorem DecRunning.operandRead {d c : DecUnit} (h : DecRunning d)
    (hc : CursorOk (d.withCursor c)) : DecRunning { d.withCursor c with held := none } := by
  refine ⟨h.status, h.cnt_le, hc, ?_⟩
  have hph := h.phase
  show DecPhaseOk _ d.phase
  cases hp : d.phase <;> rw [hp] at hph
  case pair => rfl
  all_goals exact hph

theorem symbolOperand_andThen_good {cw : Codeword} {s : State} {f : State → Ended}
    (h : CursorOk s.dec) (hout : bufOk s.decOut)
    (hf : ∀ c, CursorOk (s.dec.withCursor c) →
      (f { s with dec := { s.dec.withCursor c with held := none } }).DecGood) :
    (andThen (symbolOperand cw s) f).DecGood := by
  cases hh : s.dec.held with
  | some c => rw [symbolOperand_held hh]; exact hf s.dec h
  | none =>
    rw [symbolOperand_fresh hh]
    rcases decVle_cursor_cases cw h with ⟨c, hv, hc⟩ | ⟨c, hv⟩ <;> rw [hv]
    · have hheld : s.dec.withCursor c = { s.dec.withCursor c with held := none } := by
        rw [← hh]; rfl
      have := hf c hc
      rwa [← hheld] at this
    · exact ⟨nofun, hh, hout⟩

/-- Where OVERRUN is not raised, the operand fits in what remains (R223). -/
theorem acc_le_of_not_overRemaining {d : DecUnit} (h : overRemaining d = false) :
    d.acc.toNat ≤ d.numPixels.toNat - d.cnt.toNat := by
  obtain ⟨_, hfit⟩ := Bool.or_eq_false_iff.1 h
  exact Nat.le_of_not_lt (of_decide_eq_false hfit)

theorem zRunBody_good {s : State} (h : DecRunning s.dec) (hh : s.dec.held = none)
    (hout : bufOk s.decOut) : (zRunBody s).DecGood := by
  rcases zRunBody_cases s with ⟨_, hb⟩ | ⟨hover, hb⟩ <;> rw [hb]
  · exact ⟨nofun, hh, hout⟩
  · have hfit := acc_le_of_not_overRemaining hover
    have hcnt := h.cnt_le
    have hle : s.dec.cnt.toNat + s.dec.acc.toNat ≤ s.dec.numPixels.toNat := by omega
    refine ⟨DecRunning.decOk ⟨h.status, (count_add_toNat hle).trans_le hle,
      h.cursor, trivial⟩,
      hout.fill (hle.trans s.dec.numPixels.isLt.le) 0⟩

theorem nRunBody_good {s : State} (h : DecRunning s.dec) (hh : s.dec.held = none)
    (hout : bufOk s.decOut) : (nRunBody s).DecGood := by
  rcases nRunBody_cases s with ⟨_, hb⟩ | ⟨hover, hb⟩ <;> rw [hb]
  · exact ⟨nofun, hh, hout⟩
  · refine ⟨DecRunning.decOk ⟨h.status, h.cnt_le,
      h.cursor, ?_⟩, hout⟩
    show DecPhaseOk { s.dec with run := s.dec.acc } (if s.dec.acc = 0 then .pair else .delta)
    have hfit := acc_le_of_not_overRemaining hover
    have hcnt := h.cnt_le
    split
    · exact hh
    · next hne =>
      have hne' : s.dec.acc.toNat ≠ 0 := count_toNat_ne_zero hne
      simp only [DecPhaseOk]
      exact ⟨by omega, by omega⟩

theorem deltaBody_good {s : State} (h : DecRunning s.dec) (hp : s.dec.phase = .delta)
    (hh : s.dec.held = none) (hout : bufOk s.decOut) : (deltaBody s).DecGood := by
  have hph := h.phase
  rw [hp] at hph
  obtain ⟨hrun, hroom⟩ := hph
  rcases deltaBody_cases s with ⟨_, hb⟩ | ⟨v, _, hb⟩ <;> rw [hb]
  · exact ⟨nofun, hh, hout⟩
  · have hcnt : (s.dec.cnt + 1).toNat = s.dec.cnt.toNat + 1 :=
      count_add_ofNat (n := 1) (b := s.dec.numPixels) (by omega)
    have hpred := count_pred_toNat hrun
    refine ⟨DecRunning.decOk ⟨h.status,
      hcnt.trans_le (show s.dec.cnt.toNat + 1 ≤ s.dec.numPixels.toNat by omega),
      h.cursor, ?_⟩,
      hout.write _ _⟩
    show DecPhaseOk { s.dec with prev := v, cnt := s.dec.cnt + 1, run := s.dec.run - 1 }
      (if s.dec.run - 1 = 0 then .pair else .delta)
    split
    · exact hh
    · next hne =>
      have hne' : (s.dec.run - 1).toNat ≠ 0 := count_toNat_ne_zero hne
      simp only [DecPhaseOk, hcnt, hpred]
      exact ⟨by omega, by omega⟩

theorem phase_of_role_d {p : DecPhase} (h : phaseRole p = some .d) : p = .delta := by
  cases p <;> simp [phaseRole] at h ⊢

theorem symbolBody_good {r : Role} {s : State} (h : DecRunning s.dec)
    (hr : phaseRole s.dec.phase = some r) (hh : s.dec.held = none) (hout : bufOk s.decOut) :
    (symbolBody r s).DecGood := by
  cases r with
  | z => exact zRunBody_good h hh hout
  | n => exact nRunBody_good h hh hout
  | d => exact deltaBody_good h (phase_of_role_d hr) hh hout

theorem symbolStep_keeps {r : Role} (cw : Codeword) {s : State} (h : DecRunning s.dec)
    (hr : phaseRole s.dec.phase = some r) (hout : bufOk s.decOut) :
    DecOk (symbolStep r cw s) ∧ bufOk (symbolStep r cw s).decOut :=
  Ended.DecGood.settle <| symbolOperand_andThen_good h.cursor hout fun _ hc =>
    symbolBody_good (h.operandRead hc) hr rfl hout

theorem runCutShort_keeps {s : State} (hh : s.dec.held = none) (hout : bufOk s.decOut) :
    DecOk (runCutShort s) ∧ bufOk (runCutShort s).decOut := by
  obtain ⟨d, hrun, _, _, hd⟩ := runCutShort_eq s
  have hheld : d.held = none := by rw [hd]; exact hh
  rw [hrun]
  exact ⟨decOk_of_idle rfl rfl (statusOk_faulted (by decide)) hheld, hout⟩

theorem readCodeword_keeps (cw : Codeword) {s : State} (h : DecRunning s.dec)
    (hr : phaseRole s.dec.phase ≠ none) (hh : s.dec.held = none) (hout : bufOk s.decOut) :
    DecOk (readCodeword cw s) ∧ bufOk (readCodeword cw s).decOut := by
  refine Ended.DecGood.settle ?_
  rcases decVle_cursor_cases cw h.cursor with ⟨c, hv, hc⟩ | ⟨c, hv⟩ <;> rw [hv]
  · refine ⟨DecRunning.decOk ⟨h.status, h.cnt_le,
      hc, ?_⟩, hout⟩
    have hph := h.phase
    show DecPhaseOk _ s.dec.phase
    cases hp : s.dec.phase <;> rw [hp] at hph hr
    case pair => exact absurd rfl hr
    all_goals exact hph
  · exact ⟨nofun, hh, hout⟩

theorem decPair_keeps {s : State} (h : DecRunning s.dec) (hp : s.dec.phase = .pair)
    (hout : bufOk s.decOut) : DecOk (decPair s) ∧ bufOk (decPair s).decOut := by
  have hh := h.phase
  rw [hp] at hh
  unfold decPair
  split
  · have hst : statusOk [0, 1, 2, 3] s.dec.status.finished := by
      rw [h.status]; exact statusOk_finished (by simp)
    exact ⟨decOk_of_idle rfl rfl hst hh, hout⟩
  · next hne =>
    exact ⟨DecRunning.decOk ⟨h.status, h.cnt_le,
      h.cursor,
      (count_succ_toNat h.cnt_le hne).2⟩, hout⟩

/-- A phase step of DEC keeps DEC's invariant and the form of DEC_OUT. -/
theorem runTurn_dec_keeps {s t : State} (h : DecOk s) (hout : bufOk s.decOut)
    (ht : runTurn .dec s = .next t) : DecOk t ∧ bufOk t.decOut := by
  rw [runTurn] at ht
  rcases fetchDec_cases s with ⟨_, hf⟩ | ⟨hb, hp, hf⟩ | ⟨_, _, hf⟩ | ⟨r, cw, hb, hr, hf⟩ |
    ⟨_, hh, _, hf⟩ <;> rw [hf, runFetched] at ht
  · cases ht; exact ⟨h, hout⟩
  · cases ht; exact decPair_keeps (h.running hb) hp hout
  · cases ht; exact ⟨h, hout⟩
  · rw [exec_symbolInstr] at ht; cases ht; exact symbolStep_keeps cw (h.running hb) hr hout
  · cases ht; exact runCutShort_keeps hh hout

/-- A codeword turn keeps DEC's invariant and the form of DEC_OUT. -/
theorem runTurn_decCodeword_keeps {s t : State} (h : DecOk s) (hout : bufOk s.decOut)
    (ht : runTurn .decCodeword s = .next t) : DecOk t ∧ bufOk t.decOut := by
  rw [runTurn] at ht
  rcases fetchDecCodeword_cases s with hf | ⟨hb, hr, hh, hf⟩ <;> rw [hf] at ht
  · cases ht; exact ⟨h, hout⟩
  · rcases runFetched_codeword_cases s with ⟨cw, _, _, hrun⟩ | ⟨_, hrun⟩ <;> rw [hrun] at ht <;>
      cases ht
    · exact readCodeword_keeps cw (h.running hb) hr hh hout
    · exact runCutShort_keeps hh hout

end Sys2Proof.Machine

namespace Sys2Proof.Machine

/-! ### Every turn keeps a good state -/

/-- A state with the same units, buffers and epochs is as good. -/
theorem Safe.congr {s t : State} (h : Safe s) (he : t.enc = s.enc) (hd : t.dec = s.dec)
    (h1 : t.encIn = s.encIn) (h2 : t.encOut = s.encOut) (h3 : t.decIn = s.decIn)
    (h4 : t.decOut = s.decOut) (hep : t.epochs = s.epochs) : Safe t := by
  have hmem : t.readEncIn = s.readEncIn := by unfold State.readEncIn; rw [h1, hep]
  obtain ⟨b1, b2, b3, b4⟩ := (buffersOk_iff s).1 h.buffers
  exact .of_parts (h.enc.congr he hmem) (h.dec.congr hd) (h1 ▸ b1) (h2 ▸ b2) (h3 ▸ b3) (h4 ▸ b4)

theorem Safe.hostData {s : State} (h : Safe s) (v : Word) (n : Nat) :
    Safe { s with hostData := v, draws := n } := h.congr rfl rfl rfl rfl rfl rfl rfl

/-- A new ENC that is good leaves the state good. -/
theorem Safe.withEnc {s : State} (h : Safe s) {e : EncUnit} (he : EncOk { s with enc := e }) :
    Safe { s with enc := e } := by
  obtain ⟨b1, b2, b3, b4⟩ := (buffersOk_iff s).1 h.buffers
  exact .of_parts he (h.dec.congr rfl) b1 b2 b3 b4

theorem Safe.withDec {s : State} (h : Safe s) {d : DecUnit} (hd : DecOk { s with dec := d }) :
    Safe { s with dec := d } := by
  obtain ⟨b1, b2, b3, b4⟩ := (buffersOk_iff s).1 h.buffers
  exact .of_parts (h.enc.congr rfl rfl) hd b1 b2 b3 b4

/-! ### The units' turns -/

theorem Safe.encStep {s : State} (h : Safe s) : Safe (Machine.encStep s) := by
  obtain ⟨b1, b2, b3, b4⟩ := (buffersOk_iff s).1 h.buffers
  obtain ⟨he, hout⟩ := encStep_keeps h.enc b2
  have hframe : Machine.encStep s = { s with
    enc := (Machine.encStep s).enc, encOut := (Machine.encStep s).encOut } := (encStep_actsOn s).frame
  generalize Machine.encStep s = t at he hout hframe
  rw [hframe] at he ⊢
  exact .of_parts he (h.dec.congr rfl) b1 hout b3 b4

theorem Safe.decTurn {s t : State} {u : Turn} (hu : u = .dec ∨ u = .decCodeword) (h : Safe s)
    (ht : runTurn u s = .next t) : Safe t := by
  obtain ⟨b1, b2, b3, b4⟩ := (buffersOk_iff s).1 h.buffers
  have hkeeps : DecOk t ∧ bufOk t.decOut := by
    rcases hu with rfl | rfl
    · exact runTurn_dec_keeps h.dec b4 ht
    · exact runTurn_decCodeword_keeps h.dec b4 ht
  obtain ⟨f, hf, hrun⟩ := decTurn_actsOn hu s
  have hft : f s = t := Host.Outcome.next.inj ((hrun s).symm.trans ht)
  have hframe : t = { s with dec := t.dec, decOut := t.decOut } := by
    rw [← hft]; exact hf.frame
  obtain ⟨hd, hout⟩ := hkeeps
  rw [hframe] at hd ⊢
  exact .of_parts (h.enc.congr rfl rfl) hd b1 b2 b3 hout

theorem Safe.partialWrites {s : State} (u : UnitId) (k : Nat) (h : Safe s) :
    Safe (Machine.partialWrites u k s) := by
  obtain ⟨b1, b2, b3, b4⟩ := (buffersOk_iff s).1 h.buffers
  cases u with
  | enc =>
    exact .of_parts (h.enc.congr rfl rfl) (h.dec.congr rfl) b1
      (b2.copy _ (count_window _ _ _)) b3 b4
  | dec =>
    obtain ⟨t, ht⟩ := runFetched_next (fetchDec s) s
    simp only [Machine.partialWrites, ht]
    exact .of_parts (h.enc.congr rfl rfl) (h.dec.congr rfl) b1 b2 b3
      (b4.copy _ (count_window _ _ _))

theorem Safe.hardReset {s : State} (kept : List Space) (h : Safe s) : Safe (s.hardReset kept) := by
  obtain ⟨b1, b2, b3, b4⟩ := (buffersOk_iff s).1 h.buffers
  exact .of_parts (encOk_reset rfl) (decOk_reset rfl) (b1.reset _ _) (b2.reset _ _) (b3.reset _ _)
    (b4.reset _ _)

/-! ### The host's turns -/

theorem encStart_running (mem : Nat → Sample) (e : EncUnit) : EncRunning mem e.start :=
  ⟨rfl, Nat.zero_le _, ⟨Nat.zero_le _, Nat.one_pos⟩, rfl, trivial⟩

theorem decStart_running (d : DecUnit) : DecRunning d.start :=
  ⟨rfl, Nat.zero_le _, ⟨Nat.zero_le _, Nat.zero_le _, fun h => absurd h (lt_irrefl 0), Nat.one_pos⟩, rfl⟩

/-- A control write's command is one of its unit's two (R107). -/
theorem decodeCtrl_cases {u : UnitId} {v : Word} {c : Instr} (h : decodeCtrl u v = .ok c) :
    c = .encStart ∨ c = .encSrst ∨ c = .decStart ∨ c = .decSrst := by
  unfold decodeCtrl at h
  split at h
  · cases u <;> cases h <;> simp
  · split at h
    · cases u <;> cases h <;> simp
    · cases h

theorem fetchCommand_cases {i : RegNo} {v : Word} {c : Instr} (h : fetchCommand i v = some c) :
    c = .encStart ∨ c = .encSrst ∨ c = .decStart ∨ c = .decSrst := by
  have toOption {u : UnitId} (hc : (decodeCtrl u v).toOption = some c) :
      decodeCtrl u v = .ok c := by
    cases hd : decodeCtrl u v with
    | ok c' => rw [hd] at hc; cases hc; rfl
    | error e => rw [hd] at hc; cases hc
  unfold fetchCommand at h
  split at h
  · exact decodeCtrl_cases (toOption h)
  · split at h
    · exact decodeCtrl_cases (toOption h)
    · cases h

theorem Safe.command {s t : State} {i : RegNo} {v : Word} {c : Instr} (h : Safe s)
    (hc : fetchCommand i v = some c) (ht : exec c s = .next t) : Safe t := by
  rcases fetchCommand_cases hc with rfl | rfl | rfl | rfl
  · change execEncStart s = .next t at ht
    unfold execEncStart at ht
    split at ht <;> cases ht
    · exact h
    · exact h.withEnc (encStart_running _ _).encOk
  · cases ht; exact h.withEnc (encOk_reset rfl)
  · change execDecStart s = .next t at ht
    unfold execDecStart at ht
    split at ht <;> cases ht
    · exact h
    · exact h.withDec (decStart_running _).decOk
  · cases ht; exact h.withDec (decOk_reset rfl)

theorem Safe.regRead {s : State} (i : RegNo) (h : Safe s) : Safe (Machine.regRead i s) := by
  have hcounter (b : Bool) (v : Count) : Safe (readCounter i b v s) := by
    unfold readCounter
    split
    · exact h.hostData _ _
    · exact h.hostData _ _
  unfold Machine.regRead
  split
  case h_4 => exact hcounter _ _
  case h_8 => exact hcounter _ _
  case h_9 => exact hcounter _ _
  all_goals exact h.hostData _ _

/-- A write to ENC's configuration: ignored while ENC is busy, harmless while it is not (R202). -/
theorem Safe.encConfig {s : State} (h : Safe s) {e : EncUnit} (hp : e.phase = s.enc.phase)
    (hst : e.status = s.enc.status) :
    Safe (if s.enc.status.busy then s else { s with enc := e }) := by
  split
  · exact h
  · next hb =>
    rw [Bool.not_eq_true] at hb
    exact h.withEnc (encOk_of_idle (hp.trans (h.enc.phase_idle hb)) (hst ▸ hb)
      (hst ▸ h.enc.status))

/-- A write to DEC's configuration, likewise. -/
theorem Safe.decConfig {s : State} (h : Safe s) {d : DecUnit} (hp : d.phase = s.dec.phase)
    (hst : d.status = s.dec.status) (hh : d.held = s.dec.held) :
    Safe (if s.dec.status.busy then s else { s with dec := d }) := by
  split
  · exact h
  · next hb =>
    rw [Bool.not_eq_true] at hb
    exact h.withDec (decOk_of_idle (hp.trans (h.dec.phase_idle hb)) (hst ▸ hb)
      (hst ▸ h.dec.status) (hh.trans (h.dec.held_none_of_notBusy hb)))

theorem Safe.configWrite {s : State} (i : RegNo) (v : Word) (h : Safe s) :
    Safe (Machine.configWrite i v s) := by
  unfold Machine.configWrite
  split
  · exact h.encConfig rfl rfl
  · exact h.encConfig rfl rfl
  · exact h.decConfig rfl rfl rfl
  · exact h.decConfig rfl rfl rfl
  · exact h

theorem Safe.host {s t : State} {a : HostAction} (h : Safe s) (ht : runHost a s = .next t) :
    Safe t := by
  obtain ⟨b1, b2, b3, b4⟩ := (buffersOk_iff s).1 h.buffers
  cases a with
  | regRead i => cases ht; exact h.regRead i
  | regWrite i v =>
    cases hc : fetchCommand i v with
    | some c => rw [runHost_regWrite_command hc] at ht; exact h.command hc ht
    | none => rw [runHost_regWrite_noCommand hc] at ht; cases ht; exact h.configWrite i v
  | sampleRead b i =>
    cases b with
    | encIn => cases ht; exact h.hostData _ _
    | decOut =>
      simp only [runHost, sampleRead] at ht
      split at ht <;> cases ht
      exact h.hostData _ _
  | wordRead b i =>
    cases b with
    | decIn => cases ht; exact h.hostData _ _
    | encOut =>
      simp only [runHost, wordRead] at ht
      split at ht <;> cases ht
      exact h.hostData _ _
  | sampleWrite b i v =>
    cases b with
    | encIn =>
      simp only [runHost, sampleWrite] at ht
      split at ht <;> cases ht
      next hb =>
        rw [Bool.not_eq_true] at hb
        exact .of_parts (encOk_of_idle (h.enc.phase_idle hb) hb h.enc.status) (h.dec.congr rfl)
          (b1.write i v) b2 b3 b4
    | decOut =>
      simp only [runHost, sampleWrite] at ht
      split at ht <;> cases ht
      exact .of_parts (h.enc.congr rfl rfl) (h.dec.congr rfl) b1 b2 b3 (b4.write i v)
  | wordWrite b i v =>
    cases b with
    | decIn =>
      simp only [runHost, wordWrite] at ht
      split at ht <;> cases ht
      exact .of_parts (h.enc.congr rfl rfl) (h.dec.congr rfl) b1 b2 (b3.write i v) b4
    | encOut =>
      simp only [runHost, wordWrite] at ht
      split at ht <;> cases ht
      exact .of_parts (h.enc.congr rfl rfl) (h.dec.congr rfl) b1 (b2.write i v) b3 b4

/-! ### The step -/

theorem Safe.turn {s t : State} {u : Turn} (h : Safe s) (ht : runTurn u s = .next t) : Safe t := by
  cases u with
  | enc => cases ht; exact h.encStep
  | dec => exact h.decTurn (.inl rfl) ht
  | decCodeword => exact h.decTurn (.inr rfl) ht
  | partialWrites u k => cases ht; exact h.partialWrites u k
  | host a => exact h.host ht
  | hardReset kept => cases ht; exact h.hardReset kept

/-- Settles O48: each agent's turn keeps a good state, and taking the turn off the list is no part of it. -/
theorem everyStepKeepsSafe : Obligations.EveryStepKeepsSafe := by
  intro s t h ht
  rcases step_cases ht with ⟨_, rfl⟩ | ⟨u, rest, _, hrun⟩
  · exact h
  · exact (h.congr (t := { s with turns := rest }) rfl rfl rfl rfl rfl rfl rfl).turn hrun

end Sys2Proof.Machine

/-! ## The byte view and the nibble stream of a word sequence (R66, R67, R95)

A payload is a concatenation of chunks of one size, four bytes or eight nibbles to a word, two nibbles to
a byte; where a position lies in it is said once, for every chunk size. -/

namespace Sys2Proof.Machine

/-! ### Chunks of one size -/

/-- Position `i` of a concatenation of chunks of `n` lies in chunk `i / n`, at `i % n`. -/
theorem getElem?_flatMap_chunks {α β : Type} {f : α → List β} {g : α → Nat → β} {n : Nat}
    (hn : 0 < n) (hlen : ∀ a, (f a).length = n)
    (hget : ∀ a {j}, j < n → (f a)[j]? = some (g a j)) (l : List α) (i : Nat) :
    (l.flatMap f)[i]? = l[i / n]?.map fun a => g a (i % n) := by
  induction l generalizing i with
  | nil => rfl
  | cons a l ih =>
    rw [List.flatMap_cons, List.getElem?_append, hlen]
    split
    · next h => simp [hget a h, Nat.div_eq_of_lt h, Nat.mod_eq_of_lt h]
    · next h =>
      have hle : n ≤ i := Nat.le_of_not_lt h
      rw [ih, Nat.div_eq_sub_div hn hle, List.getElem?_cons_succ, Nat.mod_eq_sub_mod hle]

theorem wordBytes_length (v : Word) : (wordBytes v).length = 4 := rfl

theorem byteNibbles_length (b : Byte) : (byteNibbles b).length = 2 := rfl

/-! ### Bytes and nibbles by position -/

theorem wordByte_eq_ofNat (v : Word) (j : Nat) :
    wordByte v j = BitVec.ofNat 8 (v.toNat / 2 ^ (8 * j)) := by
  apply BitVec.eq_of_toNat_eq
  simp [wordByte, Nat.shiftRight_eq_div_pow]

theorem wordBytes_getElem? (v : Word) {j : Nat} (hj : j < 4) :
    (wordBytes v)[j]? = some (BitVec.ofNat 8 (v.toNat / 2 ^ (8 * j))) := by
  rw [← wordByte_eq_ofNat]
  interval_cases j <;> rfl

theorem byteNibbles_getElem? (b : Byte) {j : Nat} (hj : j < 2) :
    (byteNibbles b)[j]? = some (BitVec.ofNat 4 (b.toNat / 2 ^ (4 * j))) := by
  interval_cases j
  · exact congrArg some (BitVec.eq_of_toNat_eq (by simp))
  · exact congrArg some (BitVec.eq_of_toNat_eq (by simp [Nat.shiftRight_eq_div_pow]))

theorem payloadBytes_getElem? (ws : List Word) (b : Nat) :
    (payloadBytes ws)[b]? =
      ws[b / 4]?.map (fun v => BitVec.ofNat 8 (v.toNat / 2 ^ (8 * (b % 4)))) :=
  getElem?_flatMap_chunks (by decide) wordBytes_length wordBytes_getElem? ws b

theorem bytesNibbles_getElem? (bs : List Byte) (t : Nat) :
    (bytesNibbles bs)[t]? =
      bs[t / 2]?.map (fun b => BitVec.ofNat 4 (b.toNat / 2 ^ (4 * (t % 2)))) :=
  getElem?_flatMap_chunks (by decide) byteNibbles_length byteNibbles_getElem? bs t

/-! ### Words as nibbles and as bytes -/

/-- Slots `2j` and `2j + 1` of a word are the two nibbles of its byte `j` (R67, R95). -/
theorem byteNibbles_wordByte (v : Word) (j : Nat) :
    byteNibbles (wordByte v j) = [wordSlot v (2 * j), wordSlot v (2 * j + 1)] := by
  have hlow : (wordByte v j).setWidth 4 = wordSlot v (2 * j) := by
    ext k hk
    simp only [wordByte, wordSlot, BitVec.getElem_setWidth, BitVec.getLsbD_setWidth,
      BitVec.getLsbD_ushiftRight]
    grind
  have hhigh : (wordByte v j >>> 4).setWidth 4 = wordSlot v (2 * j + 1) := by
    ext k hk
    simp only [wordByte, wordSlot, BitVec.getElem_setWidth, BitVec.getLsbD_setWidth,
      BitVec.getLsbD_ushiftRight]
    grind
  rw [byteNibbles, hlow, hhigh]

theorem wordNibbles_eq_bytesNibbles (v : Word) :
    wordNibbles .lowFirst v = bytesNibbles (wordBytes v) := by
  simp only [wordBytes, Config.byteOrder, bytesNibbles, List.flatMap_cons, List.flatMap_nil,
    byteNibbles_wordByte]
  rfl

/-- The stream of a word sequence is the nibbles of its payload bytes (R67, R95). -/
theorem wordsNibbles_eq_bytesNibbles (ws : List Word) :
    wordsNibbles ws = bytesNibbles (payloadBytes ws) := by
  rw [bytesNibbles, payloadBytes, List.flatMap_assoc]
  exact List.flatMap_congr fun v _ => wordNibbles_eq_bytesNibbles v

theorem wordNibbles_eq_map (v : Word) :
    wordNibbles .lowFirst v = (List.range 8).map (wordSlot v) := rfl

theorem wordsNibbles_cons (v : Word) (ws : List Word) :
    wordsNibbles (v :: ws) = wordNibbles .lowFirst v ++ wordsNibbles ws := rfl

theorem wordSlot_zero (v : Word) : wordSlot v 0 = v.setWidth 4 := by
  rw [wordSlot, Nat.mul_zero, BitVec.ushiftRight_zero]

theorem wordSlot_succ (v : Word) (j : Nat) : wordSlot v (j + 1) = wordSlot (v >>> 4) j := by
  rw [wordSlot, wordSlot, Nat.mul_succ, Nat.add_comm, BitVec.shiftRight_add]

/-! ### GETNIB over whole words (R123) -/

/-- Where the word register is used up, GETNIB fetches the next word and delivers from it. -/
theorem getNib_fetch (fill : NibbleFill) (mem : Nat → Word) {d : DecUnit} (h0 : d.nib = 0)
    (hr : d.rd ≠ d.inWords) :
    getNib fill mem d =
      getNib fill mem { d with word := mem d.rd.toNat, rd := d.rd + 1, nib := 8 } := by
  simp [getNib, h0, hr]

/-- The nibbles of the word register come first, slot 0 of what is left of it first. -/
theorem nibblesAhead_word (mem : Nat → Word) (j n : Nat) {d : DecUnit} (hj : d.nib.toNat = j) :
    nibblesAhead .lowFirst mem (j + n) d =
      (List.range j).map (wordSlot d.word) ++
        nibblesAhead .lowFirst mem n { d with word := d.word >>> (4 * j), nib := 0 } := by
  induction j generalizing d with
  | zero =>
    have hnib : d.nib = 0 := BitVec.eq_of_toNat_eq hj
    simp [← hnib]
  | succ j ih =>
    have h0 : d.nib ≠ 0 := by bv_omega
    have hg : getNib .lowFirst mem d =
        some (d.word.setWidth 4, { d with word := d.word >>> 4, nib := d.nib - 1 }) := if_neg h0
    have hpred : (d.nib - 1).toNat = j := by bv_omega
    rw [Nat.add_right_comm, nibblesAhead, hg]
    dsimp only
    rw [ih (d := { d with word := d.word >>> 4, nib := d.nib - 1 }) hpred, List.range_succ_eq_map,
      List.map_cons, List.map_map, wordSlot_zero, List.cons_append, Nat.mul_succ, Nat.add_comm (4 * j),
      BitVec.shiftRight_add]
    simp only [Function.comp_def, Nat.succ_eq_add_one, wordSlot_succ]

/-- At a word boundary the stream is the nibbles of the words not yet fetched. -/
theorem nibblesAhead_words (mem : Nat → Word) (m : Nat) {d : DecUnit} (h0 : d.nib = 0)
    (hm : d.rd.toNat + m = d.inWords.toNat) :
    nibblesAhead .lowFirst mem (8 * m) d =
      wordsNibbles ((List.range m).map fun j => mem (d.rd.toNat + j)) := by
  induction m generalizing d with
  | zero => rfl
  | succ m ih =>
    have hr : d.rd ≠ d.inWords := by rintro h; rw [h] at hm; omega
    have hrd : (d.rd + 1).toNat = d.rd.toNat + 1 := (count_succ_toNat (by omega) hr).1
    have hfetch : nibblesAhead .lowFirst mem (8 * (m + 1)) d = nibblesAhead .lowFirst mem (8 + 8 * m)
        { d with word := mem d.rd.toNat, rd := d.rd + 1, nib := 8 } := by
      rw [Nat.mul_succ, Nat.add_comm, Nat.add_right_comm 7 1, nibblesAhead, getNib_fetch _ _ h0 hr]
      rfl
    have hrest : d.rd.toNat + 1 + m = d.inWords.toNat := by omega
    have htail : ((List.range m).map fun j => mem ((d.rd + 1).toNat + j)) =
        (List.range m).map ((fun j => mem (d.rd.toNat + j)) ∘ Nat.succ) :=
      List.map_congr_left fun j _ => congrArg mem (by omega)
    rw [hfetch, nibblesAhead_word mem 8 (8 * m) rfl, ih rfl (hrd ▸ hrest), ← wordNibbles_eq_map,
      List.range_succ_eq_map (n := m), List.map_cons, List.map_map, wordsNibbles_cons, Nat.add_zero]
    exact congrArg (fun ws => wordNibbles .lowFirst (mem d.rd.toNat) ++ wordsNibbles ws) htail

/-- DEC's stream before it has consumed anything is the nibbles of its input words. -/
theorem stream_at_start {s : State} (h0 : s.dec.nib = 0) (hr : s.dec.rd = 0) :
    s.stream = wordsNibbles (s.decWords s.dec.inWords.toNat) := by
  have hleft : nibblesLeft s.dec = 8 * s.dec.inWords.toNat := by simp [nibblesLeft, h0, hr]
  rw [State.stream, hleft, Config.nibbleFill,
    nibblesAhead_words s.readDecIn s.dec.inWords.toNat h0 (by simp [hr])]
  simp [hr, State.decWords]

/-! ### The statements about words written out and about the payload -/

/-- Settles O7: each word is decoded by evaluation. -/
theorem specWordsDecode : Obligations.SpecWordsDecode :=
  ⟨rfl, rfl, rfl, rfl, rfl, rfl, rfl⟩

/-- Settles O8: the payload by position, and the stream of a DEC that has consumed nothing. -/
theorem streamIsPayload : Obligations.StreamIsPayload := by
  refine ⟨payloadBytes_getElem?, fun ws t => ?_, fun s h0 hr => ⟨?_, stream_at_start h0 hr⟩⟩
  · rw [wordsNibbles_eq_bytesNibbles, bytesNibbles_getElem?]
  · rw [stream_at_start h0 hr, wordsNibbles_eq_bytesNibbles]

end Sys2Proof.Machine

/-! ## Two runs of a unit that reads the same (R72, R75)

A unit's step depends on its own registers and output buffer and on what it reads of its input buffer
and on nothing else: from two states alike in these it ends the same way and leaves the same result. The
order of the two units' steps, and what lies outside an input buffer's extent, then make no
difference. -/

namespace Sys2Proof.Machine

/-! ### A unit's result carried over to another state -/

/-- `m` with unit `u`'s result carried over to `t`. -/
def Ended.onto (u : UnitId) (t : State) : Ended → Ended
  | .ok r => .ok (t.setResult u r)
  | .raised c r => .raised c (t.setResult u r)

theorem andThen_onto {u : UnitId} {t : State} {m : Ended} {f : State → Ended}
    (hf : ∀ r, f (t.setResult u r) = (f r).onto u t) :
    andThen (m.onto u t) f = (andThen m f).onto u t := by
  cases m with
  | ok r => exact hf r
  | raised c r => rfl

theorem settle_onto (u : UnitId) (t : State) (m : Ended) :
    settle u (m.onto u t) = t.setResult u (settle u m) := by
  cases m with
  | ok r => rfl
  | raised c r => exact takeFault_setResult t r u c

/-- ENC's result takes the place of whatever ENC the state had. -/
theorem onto_withEnc (t : State) (e : EncUnit) (m : Ended) :
    m.onto .enc { t with enc := e } = m.onto .enc t := by cases m <;> rfl

theorem put_onto (s t : State) (p : Put) : t.put p = (s.put p).onto .enc t := by cases p <;> rfl

/-! ### ENC -/

/-- ENC's next step sees no difference between `s` and `t`. -/
structure EncAlike (s t : State) : Prop where
  enc : t.enc = s.enc
  encOut : t.encOut = s.encOut
  encRun : ∀ zero, t.encRun zero = s.encRun zero
  next : s.enc.phase = .delta → t.readEncIn s.enc.pos.toNat = s.readEncIn s.enc.pos.toNat

/-- States that hold the same ENC and read the same elements of ENC_IN are alike for it. -/
theorem EncAlike.of_readEncIn {s t : State} (he : t.enc = s.enc) (ho : t.encOut = s.encOut)
    (hr : t.readEncIn = s.readEncIn) : EncAlike s t :=
  ⟨he, ho, fun _ => by simp only [State.encRun, he, hr], fun _ => by rw [hr]⟩

theorem encVle_onto {s t : State} (n : Nat) (he : t.enc = s.enc) (ho : t.encOut = s.encOut) :
    encVle n t = (encVle n s).onto .enc t := by
  rw [encVle, he, ho]
  exact put_onto s t _

theorem encFlush_onto {s t : State} (he : t.enc = s.enc) (ho : t.encOut = s.encOut) :
    encFlush t = (encFlush s).onto .enc t := by
  rw [encFlush, he, ho]
  exact put_onto s t _

section
variable {s t : State}

theorem encPair_onto (h : EncAlike s t) : encPair t = (encPair s).onto .enc t := by
  simp only [encPair, h.enc, Ended.onto, State.setResult, ← h.encOut]

theorem encZRun_onto (h : EncAlike s t) : encZRun t = (encZRun s).onto .enc t := by
  rw [encZRun, h.encRun, encVle_onto _ h.enc h.encOut]
  exact andThen_onto fun _ => rfl

theorem encNRun_onto (h : EncAlike s t) : encNRun t = (encNRun s).onto .enc t := by
  rw [encNRun, h.encRun, encVle_onto _ h.enc h.encOut]
  exact andThen_onto fun _ => rfl

theorem encDeltaVle_onto (h : EncAlike s t) (hp : s.enc.phase = .delta) :
    encDeltaVle t = (encDeltaVle s).onto .enc t := by
  have hvle (n : Nat) (e : EncUnit) :
      encVle n { t with enc := e } = (encVle n { s with enc := e }).onto .enc t :=
    (encVle_onto (s := { s with enc := e }) (t := { t with enc := e }) n rfl h.encOut).trans
      (onto_withEnc t e _)
  rw [encDeltaVle, h.enc, h.next hp, hvle]
  rfl

theorem encDelta_onto (h : EncAlike s t) (hp : s.enc.phase = .delta) :
    encDelta t = (encDelta s).onto .enc t := by
  rw [encDelta_eq, encDeltaVle_onto h hp]
  exact andThen_onto fun _ => rfl

theorem encEnd_onto (h : EncAlike s t) : encEnd t = (encEnd s).onto .enc t := by
  rw [encEnd, encFlush_onto h.enc h.encOut]
  exact andThen_onto fun _ => rfl

theorem encPhaseStep_onto (h : EncAlike s t) :
    encPhaseStep t = (encPhaseStep s).onto .enc t := by
  have ht {p : EncPhase} (hp : s.enc.phase = p) : t.enc.phase = p := by rw [h.enc, hp]
  cases hp : s.enc.phase with
  | idle =>
    rw [encPhaseStep_idle hp, encPhaseStep_idle (ht hp)]
    simp only [Ended.onto, State.setResult, ← h.enc, ← h.encOut]
  | pair => rw [encPhaseStep_pair hp, encPhaseStep_pair (ht hp), encPair_onto h]
  | zrun => rw [encPhaseStep_zrun hp, encPhaseStep_zrun (ht hp), encZRun_onto h]
  | nrun => rw [encPhaseStep_nrun hp, encPhaseStep_nrun (ht hp), encNRun_onto h]
  | delta => rw [encPhaseStep_delta hp, encPhaseStep_delta (ht hp), encDelta_onto h hp]
  | flush => rw [encPhaseStep_flush hp, encPhaseStep_flush (ht hp), encEnd_onto h]

/-- From states alike for ENC its step leaves the same result. -/
theorem encStep_alike (h : EncAlike s t) : encStep t = t.setResult .enc (encStep s) := by
  cases hb : s.enc.status.busy with
  | false =>
    rw [encStep_notBusy hb, encStep_notBusy (by rw [h.enc, hb])]
    simp only [State.setResult, ← h.enc, ← h.encOut]
  | true =>
    rw [encStep_busy hb, encStep_busy (by rw [h.enc, hb]), encPhaseStep_onto h, settle_onto]

end

/-! ### DEC -/

/-- DEC's next step sees no difference between `s` and `t`. -/
structure DecAlike (s t : State) : Prop where
  dec : t.dec = s.dec
  decOut : t.decOut = s.decOut
  stream : t.stream = s.stream
  takes : ∀ cw, takeNibbles Config.nibbleFill t.readDecIn cw s.dec.clearScratch =
    takeNibbles Config.nibbleFill s.readDecIn cw s.dec.clearScratch

/-- States that hold the same DEC and read the same elements of DEC_IN are alike for it. -/
theorem DecAlike.of_readDecIn {s t : State} (hd : t.dec = s.dec) (ho : t.decOut = s.decOut)
    (hr : t.readDecIn = s.readDecIn) : DecAlike s t :=
  ⟨hd, ho, by simp only [State.stream, hd, hr], fun _ => by rw [hr]⟩

section
variable {s t : State}

theorem DecAlike.setResult_self (h : DecAlike s t) : t.setResult .dec s = t := by
  simp only [State.setResult, ← h.dec, ← h.decOut]

theorem decVle_onto (h : DecAlike s t) (cw : Codeword) :
    decVle cw t = (decVle cw s).onto .dec t := by
  rw [decVle, decVle, h.dec, h.takes]
  cases takeNibbles Config.nibbleFill s.readDecIn cw s.dec.clearScratch <;>
    simp only [Ended.onto, State.setResult, ← h.decOut]

theorem symbolOperand_onto (h : DecAlike s t) (cw : Codeword) :
    symbolOperand cw t = (symbolOperand cw s).onto .dec t := by
  cases hh : s.dec.held with
  | none => rw [symbolOperand_fresh hh, symbolOperand_fresh (by rw [h.dec, hh]), decVle_onto h]
  | some c =>
    rw [symbolOperand_held hh, symbolOperand_held (c := c) (by rw [h.dec, hh])]
    simp only [Ended.onto, State.setResult, h.dec, ← h.decOut]

/-- The body of a symbol step works on DEC's registers and output buffer alone. -/
theorem symbolBody_onto (r : Role) (s t : State) :
    symbolBody r (t.setResult .dec s) = (symbolBody r s).onto .dec t := by
  cases r with
  | z =>
    simp only [symbolBody, zRunBody]
    rw [apply_ite (Ended.onto .dec t)]
    rfl
  | n =>
    simp only [symbolBody, nRunBody]
    rw [apply_ite (Ended.onto .dec t)]
    rfl
  | d =>
    show deltaBody (t.setResult .dec s) = (deltaBody s).onto .dec t
    cases h : reconstruct s.dec with
    | none => rw [deltaBody_range h, deltaBody_range (s := t.setResult .dec s) h]; rfl
    | some v => rw [deltaBody_sample h, deltaBody_sample (s := t.setResult .dec s) h]; rfl

theorem symbolStep_alike (h : DecAlike s t) (r : Role) (cw : Codeword) :
    symbolStep r cw t = t.setResult .dec (symbolStep r cw s) := by
  rw [symbolStep, symbolOperand_onto h, andThen_onto fun _ => symbolBody_onto r _ _, settle_onto]
  rfl

theorem readCodeword_alike (h : DecAlike s t) (cw : Codeword) :
    readCodeword cw t = t.setResult .dec (readCodeword cw s) := by
  rw [readCodeword, decVle_onto h, andThen_onto fun _ => rfl, settle_onto]
  rfl

theorem runCutShort_alike (h : DecAlike s t) :
    runCutShort t = t.setResult .dec (runCutShort s) := by
  rw [runCutShort, h.stream, decVle_onto h, settle_onto]
  rfl

theorem decPair_alike (h : DecAlike s t) : decPair t = t.setResult .dec (decPair s) := by
  unfold decPair
  rw [h.dec]
  split <;> simp only [State.setResult, ← h.decOut]

theorem fetchDec_alike (h : DecAlike s t) : fetchDec t = fetchDec s := by
  simp only [fetchDec, fetchAt, h.dec, h.stream]

theorem fetchDecCodeword_alike (h : DecAlike s t) : fetchDecCodeword t = fetchDecCodeword s := by
  simp only [fetchDecCodeword, fetchAt, h.dec, h.stream]

end

/-- From states alike for DEC both its turns leave the same result. -/
theorem decTurn_alike {u : Turn} (hu : u = .dec ∨ u = .decCodeword) (s : State) :
    ∃ r, ∀ t, DecAlike s t → runTurn u t = .next (t.setResult .dec r) := by
  rcases hu with rfl | rfl
  · suffices h : ∃ r, ∀ t, DecAlike s t → runFetched (fetchDec s) t = .next (t.setResult .dec r) from
      h.imp fun r hr t ht => by rw [runTurn, fetchDec_alike ht, hr t ht]
    rcases fetchDec_cases s with ⟨_, hf⟩ | ⟨_, _, hf⟩ | ⟨_, _, hf⟩ | ⟨r, cw, _, _, hf⟩ |
      ⟨_, _, _, hf⟩ <;> rw [hf]
    · exact ⟨s, fun t h => congrArg Host.Outcome.next h.setResult_self.symm⟩
    · exact ⟨decPair s, fun t h => congrArg Host.Outcome.next (decPair_alike h)⟩
    · exact ⟨s, fun t h => congrArg Host.Outcome.next h.setResult_self.symm⟩
    · exact ⟨symbolStep r cw s, fun t h =>
        (exec_symbolInstr r cw t).trans (congrArg Host.Outcome.next (symbolStep_alike h r cw))⟩
    · exact ⟨runCutShort s, fun t h => congrArg Host.Outcome.next (runCutShort_alike h)⟩
  · suffices h : ∃ r, ∀ t, DecAlike s t →
        runFetched (fetchDecCodeword s) t = .next (t.setResult .dec r) from
      h.imp fun r hr t ht => by rw [runTurn, fetchDecCodeword_alike ht, hr t ht]
    rcases fetchDecCodeword_cases s with hf | ⟨_, _, _, hf⟩ <;> rw [hf]
    · exact ⟨s, fun t h => congrArg Host.Outcome.next h.setResult_self.symm⟩
    · rcases runFetched_codeword_cases s with ⟨cw, _, _, hr⟩ | ⟨_, hr⟩
      · exact ⟨readCodeword cw s, fun t h => by rw [hr, readCodeword_alike h]⟩
      · exact ⟨runCutShort s, fun t h => by rw [hr, runCutShort_alike h]⟩

/-! ### The order of the two units' steps (R75) -/

/-- Two turns that both answer a next state reach what the second answers. -/
theorem reaches_two_iff {s x y : State} {u v : Turn}
    (hu : runTurn u (s.withTurns [v]) = .next (x.withTurns [v]))
    (hv : runTurn v (x.withTurns []) = .next y) (t : State) :
    Reaches 2 (s.withTurns [u, v]) t ↔ y = t := by
  have hrun : Host.Core.run Sys2Proof.core 2 (s.withTurns [u, v]) = .next y := by
    have h1 : Sys2Proof.core.step (s.withTurns [u, v]) = .next (x.withTurns [v]) := hu
    have h2 : Sys2Proof.core.step (x.withTurns [v]) = .next y := hv
    simp only [Host.Core.run, h1, h2]
  rw [Reaches, hrun]
  exact ⟨Host.Outcome.next.inj, congrArg Host.Outcome.next⟩

/-- An ENC step and a DEC turn, in either order, give the one state that has both results. -/
theorem encStep_decTurn_commute {u : Turn} (hu : u = .dec ∨ u = .decCodeword) (s t : State) :
    Reaches 2 (s.withTurns [.enc, u]) t ↔ Reaches 2 (s.withTurns [u, .enc]) t := by
  obtain ⟨d, hd⟩ := decTurn_alike hu s
  have henc {x : State} (h : EncAlike s x) :
      runTurn .enc x = .next (x.setResult .enc (encStep s)) :=
    congrArg Host.Outcome.next (encStep_alike h)
  rw [reaches_two_iff (x := s.setResult .enc (encStep s)) (henc (.of_readEncIn rfl rfl rfl))
      (hd _ (.of_readDecIn rfl rfl rfl)),
    reaches_two_iff (x := s.setResult .dec d) (hd _ (.of_readDecIn rfl rfl rfl))
      (henc (.of_readEncIn rfl rfl rfl))]
  rfl

/-- Settles O51: the two results land in fields of their own. -/
theorem unitStepsCommute : Obligations.UnitStepsCommute := fun s t =>
  ⟨encStep_decTurn_commute (.inl rfl) s t, encStep_decTurn_commute (.inr rfl) s t⟩

/-! ### What lies outside an input buffer's extent (R72) -/

theorem runLength_congr {mem mem' : Nat → Sample} (zero : Bool) {pos n : Nat}
    (h : ∀ j, j < n → mem' (pos + j) = mem (pos + j)) :
    runLength mem' zero pos n = runLength mem zero pos n := by
  induction n generalizing pos with
  | zero => rfl
  | succ n ih =>
    have h0 : mem' pos = mem pos := h 0 (Nat.succ_pos n)
    have hrest : runLength mem' zero (pos + 1) n = runLength mem zero (pos + 1) n :=
      ih fun j hj => by
        rw [Nat.add_assoc, Nat.add_comm 1]
        exact h (j + 1) (Nat.succ_lt_succ hj)
    rw [runLength, runLength, h0, hrest]

/-- A good ENC reads ENC_IN below ENC_NUM_PIXELS only (R61). -/
theorem encAlike_of_extent {s : State} {b : Buf 16} (hok : EncOk s)
    (h : ∀ i, i < s.enc.numPixels.toNat → bufRead b i = bufRead s.encIn i) :
    EncAlike s { s with encIn := b } := by
  have hread {i : Nat} (hi : i < s.enc.numPixels.toNat) :
      State.readEncIn { s with encIn := b } i = s.readEncIn i := by
    rw [State.readEncIn, State.readEncIn, h i hi]
  refine ⟨rfl, rfl, fun zero => ?run, fun hp => ?next⟩
  case run =>
    refine runLength_congr zero fun j (hj : j < s.enc.numPixels.toNat - s.enc.pos.toNat) => ?_
    exact hread (i := s.enc.pos.toNat + j) (by omega)
  case next =>
    have := hok.run_pos hp
    have := hok.run_room hp
    exact hread (by omega)

section
variable {mem mem' : Nat → Word} {d : DecUnit}

/-- A cursor in range fetches below DEC_IN_WORDS only (R63). -/
theorem getNib_congr (hok : CursorOk d) (h : ∀ k, k < d.inWords.toNat → mem' k = mem k) :
    getNib .lowFirst mem' d = getNib .lowFirst mem d := by
  obtain ⟨hrd, _, _, _⟩ := hok
  by_cases hr : d.rd = d.inWords
  · simp only [getNib, hr, if_true]
  · simp only [getNib, h _ (count_succ_toNat hrd hr).2]

/-- After a nibble the cursor is still in range, and the extent the same. -/
theorem getNib_inWords {d' : DecUnit} {nb : Nibble} (hg : getNib .lowFirst mem d = some (nb, d')) :
    d'.inWords = d.inWords := by
  rw [getNib_frame _ _ hg]

theorem takeNibbles_congr (cw : Codeword) (hok : CursorOk d)
    (h : ∀ k, k < d.inWords.toNat → mem' k = mem k) :
    takeNibbles .lowFirst mem' cw d = takeNibbles .lowFirst mem cw d := by
  induction cw generalizing d with
  | nil => rfl
  | cons p ps ih =>
    simp only [takeNibbles, getNib_congr hok h]
    cases hg : getNib .lowFirst mem d with
    | none => rfl
    | some r =>
      have hr : CursorOk r.2 := getNib_cursorOk hg hok
      exact ih (d := accumulate p r.2) hr (by rwa [accumulate_inWords, getNib_inWords hg])

theorem nibblesAhead_congr (n : Nat) (hok : CursorOk d)
    (h : ∀ k, k < d.inWords.toNat → mem' k = mem k) :
    nibblesAhead .lowFirst mem' n d = nibblesAhead .lowFirst mem n d := by
  induction n generalizing d with
  | zero => rfl
  | succ n ih =>
    simp only [nibblesAhead, getNib_congr hok h]
    cases hg : getNib .lowFirst mem d with
    | none => rfl
    | some r =>
      have hr : CursorOk r.2 := getNib_cursorOk hg hok
      exact congrArg (r.1 :: ·) (ih hr (by rwa [getNib_inWords hg]))

end

/-- A DEC with its cursor in range reads DEC_IN below DEC_IN_WORDS only (R63). -/
theorem decAlike_of_extent {s : State} {b : Buf 32} (hok : CursorOk s.dec)
    (h : ∀ k, k < s.dec.inWords.toNat → bufRead b k = bufRead s.decIn k) :
    DecAlike s { s with decIn := b } := by
  have hread (k : Nat) (hk : k < s.dec.inWords.toNat) :
      State.readDecIn { s with decIn := b } k = s.readDecIn k := by
    rw [State.readDecIn, State.readDecIn, h k hk]
  exact ⟨rfl, rfl, nibblesAhead_congr _ hok hread, fun cw => takeNibbles_congr cw hok hread⟩

theorem runTurn_dec_notBusy {s : State} (hb : s.dec.status.busy = false) :
    runTurn .dec s = .next s := by
  rw [runTurn, fetchDec_idle hb]
  rfl

/-- Settles O56: the replaced buffer is alike for its unit. -/
theorem readsStayInExtent : Obligations.ReadsStayInExtent := by
  refine ⟨fun s b hok h => ?enc, fun s b hok h => ?dec⟩
  case enc =>
    have hself : encStep s = s.setResult .enc (encStep s) := (encStep_actsOn s).frame
    rw [encStep_alike (encAlike_of_extent hok h), hself]
    rfl
  case dec =>
    cases hb : s.dec.status.busy with
    | false => exact ⟨s, runTurn_dec_notBusy hb, runTurn_dec_notBusy hb⟩
    | true =>
      obtain ⟨r, hr⟩ := decTurn_alike (.inl rfl) s
      exact ⟨s.setResult .dec r, hr s (.of_readDecIn rfl rfl rfl),
        hr _ (decAlike_of_extent (hok.running hb).cursor h)⟩

end Sys2Proof.Machine

/-! ## Writes within an output buffer's extent (R62, R64, R72)

`SameOutside` bounds where two contents of a buffer may differ; each operation that writes is taken once,
and a step changes its output buffer by those operations alone. -/

namespace Sys2Proof.Machine

/-! ### Contents that differ within bounds only -/

/-- From `a` to `b` only elements from `lo` to below `hi` may have changed. -/
def SameOutside {w : Nat} (lo hi : Nat) (a b : Buf w) : Prop :=
  ∀ k, bufRead b k ≠ bufRead a k → lo ≤ k ∧ k < hi

section
variable {w lo mid hi : Nat} {a b c : Buf w}

theorem SameOutside.refl : SameOutside lo hi a a :=
  fun _ h => absurd rfl h

theorem SameOutside.trans (hle : lo ≤ mid) (hab : SameOutside lo hi a b)
    (hbc : SameOutside mid hi b c) : SameOutside lo hi a c := by
  intro k hk
  by_cases hb : bufRead b k = bufRead a k
  · obtain ⟨hlo, hhi⟩ := hbc k (hb ▸ hk)
    exact ⟨hle.trans hlo, hhi⟩
  · exact hab k hb

theorem sameOutside_bufWrite {i : Nat} (hlo : lo ≤ i) (hhi : i < hi) (v : BitVec w) :
    SameOutside lo hi a (bufWrite a i v) := by
  intro k hk
  rw [bufRead_bufWrite] at hk
  split at hk
  · next heq => exact heq ▸ ⟨hlo, hhi⟩
  · exact absurd rfl hk

theorem sameOutside_bufFill {n : Nat} (hhi : lo + n ≤ hi) (v : BitVec w) :
    SameOutside lo hi a (bufFill a lo v n) := by
  intro k hk
  rw [bufRead_bufFill] at hk
  split at hk
  · next hin => exact ⟨hin.1, by omega⟩
  · exact absurd rfl hk

end

/-! ### ENC writes at its write index -/

/-- The output buffer a `Put` carries. -/
def Put.out : Put → Buf 32
  | .ok _ out => out
  | .full _ out => out

/-- A PUTNIB or FLUSH from `e` and `out` that writes between its write index and its capacity, and
leaves the index between them. -/
structure Put.InExtent (e : EncUnit) (out : Buf 32) (p : Put) : Prop where
  wr_ge : e.wr.toNat ≤ p.unit.wr.toNat
  wr_le : p.unit.wr.toNat ≤ p.unit.outCap.toNat
  outCap : p.unit.outCap = e.outCap
  same : SameOutside e.wr.toNat e.outCap.toNat out p.out

section
variable {e : EncUnit} {out : Buf 32}

theorem writeWord_inExtent (v : Word) (hwr : e.wr.toNat ≤ e.outCap.toNat) :
    (writeWord v e out).InExtent e out := by
  rcases writeWord_cases v e out with ⟨_, h⟩ | ⟨hne, h⟩ <;> rw [h]
  · exact ⟨Nat.le_refl _, hwr, rfl, .refl⟩
  · obtain ⟨hsucc, hlt⟩ := count_succ_toNat hwr hne
    exact ⟨(Nat.le_succ _).trans_eq hsucc.symm, hsucc.trans_le hlt, rfl,
      sameOutside_bufWrite (Nat.le_refl _) hlt v⟩

theorem putNib_inExtent (fill : NibbleFill) (nb : Nibble) (hwr : e.wr.toNat ≤ e.outCap.toNat) :
    (putNib fill nb e out).InExtent e out := by
  unfold putNib
  split
  · obtain ⟨hge, hle, hcap, hsame⟩ := writeWord_inExtent (out := out)
      (e := { e with word := appendNibble fill e.word e.nib.toNat nb }) (appendNibble fill _ _ nb) hwr
    exact ⟨hge, hle, hcap, hsame⟩
  · exact ⟨Nat.le_refl _, hwr, rfl, .refl⟩

theorem putNibs_inExtent (fill : NibbleFill) (b : List Nibble) (hwr : e.wr.toNat ≤ e.outCap.toNat) :
    (putNibs fill b e out).InExtent e out := by
  induction b generalizing e out with
  | nil => exact ⟨Nat.le_refl _, hwr, rfl, .refl⟩
  | cons nb rest ih =>
    have h := putNib_inExtent (out := out) fill nb hwr
    simp only [putNibs]
    cases hp : putNib fill nb e out with
    | full e' out' => rw [hp] at h; exact h
    | ok e' out' =>
      rw [hp] at h
      obtain ⟨hge, hle, hcap, hsame⟩ := h
      obtain ⟨hge', hle', hcap', hsame'⟩ := ih (e := e') (out := out') hle
      simp only [Put.unit, Put.out] at hge hcap hsame
      rw [hcap] at hcap' hsame'
      exact ⟨hge.trans hge', hle', hcap', hsame.trans hge hsame'⟩

theorem flushNibs_inExtent (fill : NibbleFill) (hwr : e.wr.toNat ≤ e.outCap.toNat) :
    (flushNibs fill e out).InExtent e out := by
  unfold flushNibs
  split
  · exact ⟨Nat.le_refl _, hwr, rfl, .refl⟩
  · exact writeWord_inExtent _ hwr

end

/-- The state a step or micro-operation ends in, before a fault is taken. -/
def Ended.state : Ended → State
  | .ok s => s
  | .raised _ s => s

theorem settle_encOut (u : UnitId) (m : Ended) : (settle u m).encOut = m.state.encOut := by
  cases m <;> cases u <;> rfl

theorem settle_decOut (u : UnitId) (m : Ended) : (settle u m).decOut = m.state.decOut := by
  cases m <;> cases u <;> rfl

theorem andThen_encOut {m : Ended} {f : State → Ended} (hf : ∀ s, (f s).state.encOut = s.encOut) :
    (andThen m f).state.encOut = m.state.encOut := by
  cases m with
  | ok s => exact hf s
  | raised c s => rfl

theorem put_encOut (s : State) (p : Put) : (s.put p).state.encOut = p.out := by cases p <;> rfl

/-- ENC's step changes ENC_OUT by its PUTNIBs or its FLUSH alone. -/
theorem encPhaseStep_inExtent {s : State} (hwr : s.enc.wr.toNat ≤ s.enc.outCap.toNat) :
    SameOutside s.enc.wr.toNat s.enc.outCap.toNat s.encOut (encPhaseStep s).state.encOut := by
  have hvle (n : Nat) :
      SameOutside s.enc.wr.toNat s.enc.outCap.toNat s.encOut (encVle n s).state.encOut := by
    rw [encVle, put_encOut]
    exact (putNibs_inExtent _ _ hwr).same
  cases hp : s.enc.phase with
  | idle => rw [encPhaseStep_idle hp]; exact .refl
  | pair => rw [encPhaseStep_pair hp]; exact .refl
  | zrun =>
    rw [encPhaseStep_zrun hp, encZRun, andThen_encOut fun _ => rfl]
    exact hvle _
  | nrun =>
    rw [encPhaseStep_nrun hp, encNRun, andThen_encOut fun _ => rfl]
    exact hvle _
  | delta =>
    rw [encPhaseStep_delta hp, encDelta_eq, andThen_encOut fun _ => rfl, encDeltaVle, encVle,
      put_encOut]
    exact (putNibs_inExtent (e := { s.enc with prev := s.readEncIn s.enc.pos.toNat }) _ _ hwr).same
  | flush =>
    rw [encPhaseStep_flush hp, encEnd, andThen_encOut fun _ => rfl, encFlush, put_encOut]
    exact (flushNibs_inExtent _ hwr).same

/-! ### DEC writes at its sample count -/

/-- The operand of a symbol step: read with the cursor still in range, or EXHAUSTED; DEC_OUT and the
registers the body works with are as they were. -/
theorem symbolOperand_cursor_cases (cw : Codeword) {s : State} (h : CursorOk s.dec) :
    (∃ c, symbolOperand cw s = .ok { s with dec := { s.dec.withCursor c with held := none } } ∧
      CursorOk (s.dec.withCursor c)) ∨
    ∃ c, symbolOperand cw s = .raised .exhausted { s with dec := s.dec.withCursor c } := by
  cases hh : s.dec.held with
  | some c => exact .inl ⟨s.dec, symbolOperand_held hh, h⟩
  | none =>
    rw [symbolOperand_fresh hh, ← hh]
    exact decVle_cursor_cases cw h

/-- The body of a symbol step in a running DEC writes from `dec.cnt` on, below DEC_NUM_PIXELS. -/
theorem symbolBody_inExtent {r : Role} {s : State} (h : DecRunning s.dec)
    (hr : phaseRole s.dec.phase = some r) :
    SameOutside s.dec.cnt.toNat s.dec.numPixels.toNat s.decOut (symbolBody r s).state.decOut := by
  cases r with
  | z =>
    rcases zRunBody_cases s with ⟨_, hb⟩ | ⟨hover, hb⟩ <;> rw [symbolBody, hb]
    · exact .refl
    · have hfit := acc_le_of_not_overRemaining hover
      have hcnt := h.cnt_le
      exact sameOutside_bufFill (by omega) 0
  | n => rcases nRunBody_cases s with ⟨_, hb⟩ | ⟨_, hb⟩ <;> rw [symbolBody, hb] <;> exact .refl
  | d =>
    rcases deltaBody_cases s with ⟨_, hb⟩ | ⟨v, _, hb⟩ <;> rw [symbolBody, hb]
    · exact .refl
    · have hph := h.phase
      rw [phase_of_role_d hr] at hph
      obtain ⟨hrun, hroom⟩ := hph
      exact sameOutside_bufWrite (Nat.le_refl _) (by omega) v

theorem symbolStep_inExtent {r : Role} (cw : Codeword) {s : State} (h : DecRunning s.dec)
    (hr : phaseRole s.dec.phase = some r) :
    SameOutside s.dec.cnt.toNat s.dec.numPixels.toNat s.decOut (symbolStep r cw s).decOut := by
  rw [symbolStep, settle_decOut]
  rcases symbolOperand_cursor_cases cw h.cursor with ⟨c, ho, hc⟩ | ⟨c, ho⟩ <;> rw [ho]
  · exact symbolBody_inExtent (h.operandRead hc) hr
  · exact .refl

theorem decPair_decOut (s : State) : (decPair s).decOut = s.decOut := by
  unfold decPair
  split <;> rfl

theorem runCutShort_decOut (s : State) : (runCutShort s).decOut = s.decOut := by
  obtain ⟨d, hrun, _⟩ := runCutShort_eq s
  rw [hrun, takeFault_dec_decOut]

/-- An ENC step writes from `enc.wr` on, below ENC_OUT_CAP (R62). -/
theorem encStep_inExtent {s : State} (hok : EncOk s) :
    SameOutside s.enc.wr.toNat s.enc.outCap.toNat s.encOut (encStep s).encOut := by
  cases hb : s.enc.status.busy with
  | false => rw [encStep_notBusy hb]; exact .refl
  | true => rw [encStep_busy hb, settle_encOut]; exact encPhaseStep_inExtent (hok.wr_le hb)

/-- A DEC step writes from `dec.cnt` on, below DEC_NUM_PIXELS (R64). -/
theorem runTurn_dec_inExtent {s t : State} (hok : DecOk s) (ht : runTurn .dec s = .next t) :
    SameOutside s.dec.cnt.toNat s.dec.numPixels.toNat s.decOut t.decOut := by
  rw [runTurn] at ht
  rcases fetchDec_cases s with ⟨_, hf⟩ | ⟨_, _, hf⟩ | ⟨_, _, hf⟩ | ⟨r, cw, hb, hr, hf⟩ |
    ⟨_, _, _, hf⟩ <;> rw [hf, runFetched] at ht
  · cases ht; exact .refl
  · cases ht; rw [decPair_decOut]; exact .refl
  · cases ht; exact .refl
  · rw [exec_symbolInstr] at ht; cases ht; exact symbolStep_inExtent cw (hok.running hb) hr
  · cases ht; rw [runCutShort_decOut]; exact .refl

/-- Settles O55: PUTNIB and FLUSH write at `enc.wr` below the capacity, a symbol step from `dec.cnt` on
what still fits. -/
theorem writesStayInExtent : Obligations.WritesStayInExtent :=
  ⟨fun _ hok => encStep_inExtent hok, fun _ _ hok ht => runTurn_dec_inExtent hok ht⟩

end Sys2Proof.Machine

/-! ## The codeword of a value (R92, R93)

`codewordLength` is read through one equivalence, `codewordLength_le_iff`, and `codewordOf` through its two
equations without fuel; the rest follows by induction on the value. -/

namespace Sys2Proof.Machine

/-! ### Its length -/

/-- The bit length is the least exponent whose power of 2 is above the value (R7). -/
theorem bitlen_le_iff (x k : Nat) : bitlen x ≤ k ↔ x < 2 ^ k := by
  rcases eq_or_ne x 0 with rfl | hx
  · simp [bitlen]
  · rw [bitlen, if_neg hx, Nat.succ_le_iff, Nat.log2_lt hx]

theorem bitlen_bounds {x : Nat} (hx : 1 ≤ x) : 2 ^ (bitlen x - 1) ≤ x ∧ x < 2 ^ bitlen x := by
  have hupper : x < 2 ^ bitlen x := (bitlen_le_iff x _).1 le_rfl
  have hpos : bitlen x ≠ 0 := by
    intro h
    rw [h] at hupper
    omega
  refine ⟨?_, hupper⟩
  rw [← not_lt, ← bitlen_le_iff]
  omega

theorem codewordLength_of_pos {x : Nat} (hx : 1 ≤ x) : codewordLength x = (bitlen x + 2) / 3 :=
  if_neg (by omega)

/-- `k` nibbles hold the values below `8^k` (R93). -/
theorem codewordLength_le_iff (x : Nat) {k : Nat} (hk : 1 ≤ k) :
    codewordLength x ≤ k ↔ x < 8 ^ k := by
  rcases Nat.eq_zero_or_pos x with rfl | hx
  · simpa [codewordLength] using hk
  · have hpow : 8 ^ k = 2 ^ (3 * k) := (pow_mul 2 3 k).symm
    rw [codewordLength_of_pos hx, hpow, ← bitlen_le_iff]
    omega

theorem codewordLength_pos (x : Nat) : 1 ≤ codewordLength x := by
  rcases Nat.eq_zero_or_pos x with rfl | hx
  · exact le_rfl
  · have hbits : ¬ bitlen x ≤ 0 := by rw [bitlen_le_iff]; omega
    rw [codewordLength_of_pos hx]
    omega

theorem codewordLength_of_lt {x : Nat} (h : x < 8) : codewordLength x = 1 :=
  le_antisymm ((codewordLength_le_iff x le_rfl).2 h) (codewordLength_pos x)

theorem two_le_codewordLength {x : Nat} (h : 8 ≤ x) : 2 ≤ codewordLength x :=
  not_le.1 fun h1 => absurd ((codewordLength_le_iff x le_rfl).1 h1) (not_lt.2 h)

/-- One base-8 digit less, one nibble less. -/
theorem codewordLength_of_ge {x : Nat} (h : 8 ≤ x) :
    codewordLength x = codewordLength (x / 8) + 1 := by
  have hstep {k : Nat} (hk : 1 ≤ k) : codewordLength x ≤ k + 1 ↔ codewordLength (x / 8) ≤ k := by
    rw [codewordLength_le_iff x (by omega), codewordLength_le_iff (x / 8) hk,
      Nat.div_lt_iff_lt_mul (by decide), pow_succ]
  have h2 := two_le_codewordLength h
  have hle := (hstep (codewordLength_pos (x / 8))).2 le_rfl
  have hge := (hstep (k := codewordLength x - 1) (by omega)).1 (by omega)
  omega

theorem codewordLength_eq_iff (x : Nat) {k : Nat} (hk : 2 ≤ k) :
    codewordLength x = k ↔ 8 ^ (k - 1) ≤ x ∧ x < 8 ^ k := by
  rw [← not_lt, ← codewordLength_le_iff x (k := k - 1) (by omega),
    ← codewordLength_le_iff x (k := k) (by omega)]
  omega

/-! ### Its payloads -/

/-- Fuel beyond the value makes no difference. -/
theorem codewordOfFuel_congr {f g x : Nat} (hf : x ≤ f) (hg : x ≤ g) :
    codewordOfFuel f x = codewordOfFuel g x := by
  induction f generalizing g x with
  | zero =>
    obtain rfl : x = 0 := Nat.le_zero.1 hf
    cases g <;> rfl
  | succ f ih =>
    cases g with
    | zero =>
      obtain rfl : x = 0 := Nat.le_zero.1 hg
      rfl
    | succ g => rw [codewordOfFuel, codewordOfFuel, ih (g := g) (x := x / 8) (by omega) (by omega)]

theorem codewordOf_of_lt {x : Nat} (h : x < 8) : codewordOf x = [BitVec.ofNat 3 x] := by
  cases x with
  | zero => rfl
  | succ y => exact if_pos (Nat.div_eq_of_lt h)

theorem codewordOf_of_ge {x : Nat} (h : 8 ≤ x) :
    codewordOf x = BitVec.ofNat 3 x :: codewordOf (x / 8) := by
  cases x with
  | zero => omega
  | succ y =>
    rw [codewordOf, codewordOfFuel, if_neg (by omega),
      codewordOfFuel_congr (x := (y + 1) / 8) (g := (y + 1) / 8) (by omega) le_rfl, codewordOf]

theorem codewordOf_length (x : Nat) : (codewordOf x).length = codewordLength x := by
  induction x using Nat.strong_induction_on with
  | h x ih =>
    rcases Nat.lt_or_ge x 8 with h | h
    · rw [codewordOf_of_lt h, codewordLength_of_lt h, List.length_singleton]
    · rw [codewordOf_of_ge h, codewordLength_of_ge h, List.length_cons, ih (x / 8) (by omega)]

/-- Payload `i` is the base-8 digit `i` of the value (R92). -/
theorem codewordOf_getElem? {x i : Nat} (hi : i < codewordLength x) :
    (codewordOf x)[i]? = some (BitVec.ofNat 3 (x / 8 ^ i)) := by
  induction i generalizing x with
  | zero =>
    rcases Nat.lt_or_ge x 8 with h | h
    · simp [codewordOf_of_lt h]
    · simp [codewordOf_of_ge h]
  | succ i ih =>
    have h : 8 ≤ x := by
      by_contra hlt
      rw [codewordLength_of_lt (by omega)] at hi
      omega
    rw [codewordLength_of_ge h] at hi
    rw [codewordOf_of_ge h, List.getElem?_cons_succ, ih (by omega), Nat.div_div_eq_div_mul,
      pow_succ']

/-! ### Its nibbles -/

/-- Every nibble of a codeword but the last has its continuation bit set (R92). -/
theorem codewordNibbles_getElem? (cw : Codeword) (i : Nat) :
    (codewordNibbles cw)[i]? = cw[i]?.map (mkNibble (decide (i + 1 < cw.length))) := by
  induction cw generalizing i with
  | nil => rfl
  | cons p ps ih =>
    cases ps with
    | nil => cases i <;> rfl
    | cons q qs =>
      cases i with
      | zero => simp [codewordNibbles]
      | succ i => rw [codewordNibbles, List.getElem?_cons_succ, ih]; simp

/-- A nibble as a number: the payload, and 8 for the continuation bit (R91). -/
theorem mkNibble_eq_ofNat :
    ∀ (c : Bool) (p : Payload), mkNibble c p = BitVec.ofNat 4 (p.toNat ||| if c then 8 else 0) := by
  decide

theorem vleNibbles_length (x : Nat) : (vleNibbles x).length = codewordLength x :=
  (Laws.codewordNibbles_length _).trans (codewordOf_length x)

theorem vleNibbles_getElem? {x i : Nat} (hi : i < codewordLength x) :
    (vleNibbles x)[i]? =
      some (mkNibble (decide (i + 1 < codewordLength x)) (BitVec.ofNat 3 (x / 8 ^ i))) := by
  rw [vleNibbles, codewordNibbles_getElem?, codewordOf_length, codewordOf_getElem? hi, Option.map_some]

/-- A codeword the encoder writes has no digit 0 at its end, unless that is its only one (R93). -/
theorem codewordOf_last_ne_zero {x : Nat} (h : 2 ≤ codewordLength x) :
    ∃ p, (codewordOf x).getLast? = some p ∧ p ≠ 0 := by
  obtain ⟨hlow, hhigh⟩ := (codewordLength_eq_iff x h).1 rfl
  generalize hk : codewordLength x = k at *
  have hpos : 0 < 8 ^ (k - 1) := by positivity
  have hdigit : x / 8 ^ (k - 1) < 8 := by
    rw [Nat.div_lt_iff_lt_mul hpos, ← pow_succ', Nat.sub_add_cancel (by omega)]
    exact hhigh
  have hne : 0 < x / 8 ^ (k - 1) := Nat.div_pos hlow hpos
  refine ⟨BitVec.ofNat 3 (x / 8 ^ (k - 1)), ?_, ?_⟩
  · rw [List.getLast?_eq_getElem?, codewordOf_length, hk, codewordOf_getElem? (by omega)]
  · bv_omega

/-! ### The statements about codewords -/

/-- Settles O2: nibble `i` holds digit `i`, which is bits `3i+2..3i`. -/
theorem codewordNibblesOfValue : Obligations.CodewordNibblesOfValue := by
  intro x i
  refine ⟨vleNibbles_length x, fun hi => ?_⟩
  have hdigit : x >>> (3 * i) = x / 8 ^ i := by
    rw [Nat.shiftRight_eq_div_pow, pow_mul]
    rfl
  have hlow : x / 8 ^ i &&& 7 = x / 8 ^ i % 8 := Nat.and_two_pow_sub_one_eq_mod _ 3
  rw [vleNibbles_getElem? hi, mkNibble_eq_ofNat, BitVec.toNat_ofNat, hdigit, hlow]
  simp only [decide_eq_true_eq]

/-- Settles O3: the ranges are `codewordLength_le_iff` at `k` and `k - 1`. -/
theorem codewordLengthRanges : Obligations.CodewordLengthRanges := by
  intro x
  exact ⟨fun h => codewordLength_of_lt (by omega), fun hx => ⟨codewordLength_of_pos hx, bitlen_bounds hx⟩,
    codewordLength_of_lt, fun k hk => codewordLength_eq_iff x hk, codewordOf_last_ne_zero⟩

end Sys2Proof.Machine

/-! ## Decode undoes encode (R66, R67, R90 to R107)

An instruction's position says which of the four forms it is written in: a codeword row, a symbol,
padding or a command. In the stream a codeword ends at its own last nibble, whatever follows it. -/

namespace Sys2Proof.Machine

/-! ### Codewords at the front of a nibble sequence -/

theorem nibbleCont_mkNibble : ∀ (c : Bool) (p : Payload), nibbleCont (mkNibble c p) = c := by decide

theorem nibblePayload_mkNibble : ∀ (c : Bool) (p : Payload), nibblePayload (mkNibble c p) = p := by
  decide

/-- A codeword's nibbles are read as that codeword, and nothing after them is (R94, R106). -/
theorem splitCodeword_codewordNibbles {cw : Codeword} (h : cw ≠ []) (rest : List Nibble) :
    splitCodeword (codewordNibbles cw ++ rest) = some (cw, rest) := by
  induction cw with
  | nil => exact absurd rfl h
  | cons p ps ih =>
    cases ps with
    | nil => simp [codewordNibbles, splitCodeword, nibbleCont_mkNibble, nibblePayload_mkNibble]
    | cons q qs =>
      simp [codewordNibbles, splitCodeword, nibbleCont_mkNibble, nibblePayload_mkNibble,
        ih (List.cons_ne_nil q qs)]

theorem decodeNibbles_codeword {cw : Codeword} {i : Instr} (h : vleRow cw = some i)
    (rest : List Nibble) : decodeNibbles .codeword (codewordNibbles cw ++ rest) = .ok (i, rest) := by
  have hne : cw ≠ [] := by rintro rfl; cases h
  simp only [decodeNibbles, splitCodeword_codewordNibbles hne, h]

theorem decodeNibbles_symbol {cw : Codeword} (h : cw ≠ []) (r : Role) (rest : List Nibble) :
    decodeNibbles (.symbol r) (codewordNibbles cw ++ rest) = .ok (symbolInstr r cw, rest) := by
  simp only [decodeNibbles, splitCodeword_codewordNibbles h]

/-! ### Nibbles in bytes -/

/-- The earlier nibble of a byte stands in bits 3:0 (R67). -/
theorem byteNibbles_append (a b : Nibble) : byteNibbles (b ++ a) = [a, b] := by
  have hbit (k : Nat) :
      (b ++ a : Byte).getLsbD k = if k < 4 then a.getLsbD k else b.getLsbD (k - 4) :=
    BitVec.getLsbD_append
  have hlow : (b ++ a).setWidth 4 = a := by
    ext k hk
    simp [hbit, hk]
  have hhigh : ((b ++ a) >>> 4).setWidth 4 = b := by
    ext k hk
    simp [hbit, hk]
  rw [byteNibbles, hlow, hhigh]

/-- Nibbles come back from their bytes, a 0 after them where their number is odd (R67). -/
theorem bytesNibbles_nibblesBytes (qs : List Nibble) :
    ∃ pad, bytesNibbles (nibblesBytes qs) = qs ++ pad := by
  induction qs using nibblesBytes.induct with
  | case1 => exact ⟨[], rfl⟩
  | case2 a => exact ⟨[0], by simp [nibblesBytes, bytesNibbles, byteNibbles_append]⟩
  | case3 a b rest ih =>
    obtain ⟨pad, hpad⟩ := ih
    refine ⟨pad, ?_⟩
    rw [bytesNibbles] at hpad
    simp [nibblesBytes, bytesNibbles, byteNibbles_append, hpad]

/-- Off the control registers, what the nibbles decode to whatever follows them is what their bytes
decode to. -/
theorem decode_nibblesBytes {pos : Position} {qs : List Nibble} {i : Instr}
    (hpos : ∀ u, pos ≠ .ctrl u)
    (h : ∀ rest, ∃ left, decodeNibbles pos (qs ++ rest) = .ok (i, left)) :
    decode pos (nibblesBytes qs) = .ok i := by
  obtain ⟨pad, hpad⟩ := bytesNibbles_nibblesBytes qs
  obtain ⟨left, hleft⟩ := h pad
  have hdecode : decode pos (nibblesBytes qs) =
      (decodeNibbles pos (bytesNibbles (nibblesBytes qs))).map Prod.fst := by
    cases pos with
    | ctrl u => exact absurd rfl (hpos u)
    | _ => rfl
  rw [hdecode, hpad, hleft]
  rfl

/-! ### The form of an instruction by its position -/

theorem vleRow_of_position {i : Instr} (h : instrPosition i = .codeword) :
    vleRow (instrCodeword i) = some i := by
  cases i <;> cases h <;> rfl

theorem eq_symbolInstr_of_position {i : Instr} {r : Role} (h : instrPosition i = .symbol r) :
    i = symbolInstr r (instrCodeword i) := by
  cases i <;> cases h <;> rfl

theorem eq_pad_of_position {i : Instr} (h : instrPosition i = .padding) : i = .pad := by
  cases i <;> cases h
  rfl

theorem encode_of_codeword {i : Instr} (h : instrPosition i = .codeword) :
    encode i = nibblesBytes (codewordNibbles (instrCodeword i)) := by
  cases i <;> cases h <;> rfl

theorem encode_symbolInstr (r : Role) (cw : Codeword) :
    encode (symbolInstr r cw) = nibblesBytes (codewordNibbles cw) := by
  cases r <;> rfl

/-- A well-formed symbol has a nibble (R92). -/
theorem ne_nil_of_wellFormed {r : Role} {cw : Codeword} (h : WellFormed (symbolInstr r cw) = true) :
    cw ≠ [] := by
  rintro rfl
  cases r <;> cases h

/-- A command's word selects that command (R107). -/
theorem command_of_position {i : Instr} {u : UnitId} (h : instrPosition i = .ctrl u) :
    ∃ v, encode i = wordBytes v ∧ decodeCtrl u v = .ok i := by
  cases i <;> cases h <;> exact ⟨_, rfl, rfl⟩

/-- Settles O1: by position, the form the instruction is written in is the one that is read there. -/
theorem decodeUndoesEncode : Obligations.DecodeUndoesEncode := by
  intro i hwf
  cases hpos : instrPosition i with
  | codeword =>
    rw [encode_of_codeword hpos]
    exact decode_nibblesBytes nofun fun rest =>
      ⟨rest, decodeNibbles_codeword (vleRow_of_position hpos) rest⟩
  | symbol r =>
    rw [eq_symbolInstr_of_position hpos] at hwf ⊢
    rw [encode_symbolInstr]
    exact decode_nibblesBytes nofun fun rest =>
      ⟨rest, decodeNibbles_symbol (ne_nil_of_wellFormed hwf) r rest⟩
  | padding =>
    rw [eq_pad_of_position hpos]
    rfl
  | ctrl u =>
    obtain ⟨v, hencode, hdecode⟩ := command_of_position hpos
    rw [hencode, decode_ctrl_wordBytes, hdecode]

/-! ### Control writes (R107) -/

/-- Bit 1 alone selects SRST (R107). -/
theorem decodeCtrl_srst (u : UnitId) {v : Word} (h : v &&& 2 = 2) :
    decodeCtrl u v = decodeCtrl u 2 := by
  have hbit : v.getLsbD 1 = true := by simpa using congrArg (fun x => BitVec.getLsbD x 1) h
  exact if_pos hbit

/-- Settles O6: a control write does what the write of its two low bits alone does. -/
theorem controlWordsSelectCommands : Obligations.ControlWordsSelectCommands := by
  intro v w s
  have hsame (x : Word) (h : v &&& 3 = x &&& 3) :
      runHost (.regWrite 0 v) s = runHost (.regWrite 0 x) s ∧
        runHost (.regWrite 8 v) s = runHost (.regWrite 8 x) s := by
    obtain ⟨_, hctrl, _⟩ := reservedRegistersReadZero s v x
    exact ⟨hctrl h 0 (by simp), hctrl h 8 (by simp)⟩
  refine ⟨fun h => hsame 1 h, fun h => ⟨?_, ?_⟩, fun h => hsame 0 h, fun h => hsame w h⟩
  · exact runHost_regWrite_command (by rw [fetchCommand_enc, decodeCtrl_srst .enc h]; rfl) s
  · exact runHost_regWrite_command (by rw [fetchCommand_dec, decodeCtrl_srst .dec h]; rfl) s

end Sys2Proof.Machine

/-! ## DECVLE reads the value of its codeword (R94, R123 to R125)

`ScratchHolds` is the loop's invariant: the value read so far, in the pair of `dec.acc` and `dec.ovf`. The
pair drops only what a nibble adds beyond 32 bits. -/

namespace Sys2Proof.Machine

/-! ### The scratch registers -/

/-- The scratch after `n` nibbles of value `v`: the shift count at `3n` up to its limit, the value's low
32 bits, and whether it has more (R125). -/
structure ScratchHolds (n v : Nat) (d : DecUnit) : Prop where
  lt : v < 8 ^ n
  sh : d.sh.toNat = min (3 * n) 33
  acc : d.acc.toNat = v % 2 ^ 32
  ovf : d.ovf = true ↔ 2 ^ 32 ≤ v

theorem clearScratch_holds (d : DecUnit) : ScratchHolds 0 0 d.clearScratch where
  lt := by decide
  sh := rfl
  acc := rfl
  ovf := by simp

theorem accumulate_sh (p : Payload) (d : DecUnit) :
    (accumulate p d).sh.toNat = min (d.sh.toNat + 3) 33 := by
  show (BitVec.ofNat 6 (min (d.sh.toNat + 3) 33)).toNat = _
  rw [BitVec.toNat_ofNat]
  omega

theorem accumulate_acc_low {d : DecUnit} (p : Payload) (h : d.sh.toNat ≤ 29) :
    (accumulate p d).acc = d.acc ||| (p.setWidth 32 <<< d.sh.toNat) := if_pos h

theorem accumulate_ovf_low {d : DecUnit} (p : Payload) (h : d.sh.toNat ≤ 29) :
    (accumulate p d).ovf = d.ovf :=
  (if_neg (by omega)).trans (if_neg (by omega))

theorem accumulate_acc_top {d : DecUnit} (p : Payload) (h : d.sh.toNat = 30) :
    (accumulate p d).acc = d.acc ||| ((p &&& 3).setWidth 32 <<< 30) :=
  (if_neg (by omega)).trans (if_pos h)

theorem accumulate_ovf_top {d : DecUnit} (p : Payload) (h : d.sh.toNat = 30) :
    (accumulate p d).ovf = (d.ovf || p.getLsbD 2) := if_pos h

theorem accumulate_acc_beyond {d : DecUnit} (p : Payload) (h : 33 ≤ d.sh.toNat) :
    (accumulate p d).acc = d.acc :=
  (if_neg (by omega)).trans (if_neg (by omega))

theorem accumulate_ovf_beyond {d : DecUnit} (p : Payload) (h : 33 ≤ d.sh.toNat) :
    (accumulate p d).ovf = (d.ovf || decide (p ≠ 0)) :=
  (if_neg (by omega)).trans (if_pos h)

/-- Above a number of `k` bits, OR is addition. -/
theorem toNat_or_shiftLeft (a b : Word) {k : Nat} (ha : a.toNat < 2 ^ k)
    (hb : b.toNat * 2 ^ k < 2 ^ 32) : (a ||| b <<< k).toNat = a.toNat + 2 ^ k * b.toNat := by
  rw [BitVec.toNat_or, BitVec.toNat_shiftLeft, Nat.shiftLeft_eq, Nat.mod_eq_of_lt hb, Nat.lor_comm,
    Nat.mul_comm, ← Nat.two_pow_add_eq_or_of_lt ha, Nat.add_comm]

theorem payload_low_bits : ∀ p : Payload, (p &&& 3).toNat = p.toNat % 4 := by decide

theorem payload_top_bit : ∀ p : Payload, p.getLsbD 2 = true ↔ 4 ≤ p.toNat := by decide

/-- The first ten payloads lie in the low 32 bits whole (R125). -/
theorem accumulate_pair_low {n v : Nat} {d : DecUnit} (h : ScratchHolds n v d) (p : Payload)
    (hn : n < 10) :
    (accumulate p d).acc.toNat = (v + 8 ^ n * p.toNat) % 2 ^ 32 ∧
      ((accumulate p d).ovf = true ↔ 2 ^ 32 ≤ v + 8 ^ n * p.toNat) := by
  obtain ⟨hlt, hsh, hacc, hovf⟩ := h
  have hshift : d.sh.toNat = 3 * n := by omega
  have hp : 8 ^ n * p.toNat ≤ 8 ^ n * 7 := Nat.mul_le_mul_left _ (Nat.le_of_lt_succ p.isLt)
  have hn9 : 8 ^ n ≤ 8 ^ 9 := Nat.pow_le_pow_right (by decide) (by omega)
  have hpow : 2 ^ (3 * n) = 8 ^ n := pow_mul 2 3 n
  have hpay : (p.setWidth 32).toNat = p.toNat := BitVec.toNat_setWidth_of_le (by decide)
  constructor
  · rw [accumulate_acc_low p (by omega), hshift, toNat_or_shiftLeft, hacc, hpay, hpow]
    · omega
    · rw [hacc, hpow]; omega
    · rw [hpay, hpow, Nat.mul_comm]; omega
  · rw [accumulate_ovf_low p (by omega), hovf]
    omega

/-- The eleventh payload has two bits in the pair's low word and one beyond it (R125). -/
theorem accumulate_pair_top {v : Nat} {d : DecUnit} (h : ScratchHolds 10 v d) (p : Payload) :
    (accumulate p d).acc.toNat = (v + 8 ^ 10 * p.toNat) % 2 ^ 32 ∧
      ((accumulate p d).ovf = true ↔ 2 ^ 32 ≤ v + 8 ^ 10 * p.toNat) := by
  obtain ⟨hlt, hsh, hacc, hovf⟩ := h
  have hpay : ((p &&& 3).setWidth 32).toNat = p.toNat % 4 :=
    (BitVec.toNat_setWidth_of_le (by decide)).trans (payload_low_bits p)
  constructor
  · rw [accumulate_acc_top p hsh, toNat_or_shiftLeft, hacc, hpay]
    · omega
    · rw [hacc]; omega
    · rw [hpay]; omega
  · rw [accumulate_ovf_top p hsh, Bool.or_eq_true, hovf, payload_top_bit]
    omega

/-- From the twelfth on a payload is beyond the low 32 bits: it matters only whether it is 0 (R125). -/
theorem accumulate_pair_beyond {n v : Nat} {d : DecUnit} (h : ScratchHolds n v d) (p : Payload)
    (hn : 10 < n) :
    (accumulate p d).acc.toNat = (v + 8 ^ n * p.toNat) % 2 ^ 32 ∧
      ((accumulate p d).ovf = true ↔ 2 ^ 32 ≤ v + 8 ^ n * p.toNat) := by
  obtain ⟨hlt, hsh, hacc, hovf⟩ := h
  have hshift : 33 ≤ d.sh.toNat := by omega
  obtain ⟨c, hc⟩ : 8 ^ 11 ∣ 8 ^ n := Nat.pow_dvd_pow 8 hn
  have hhigh : 8 ^ n * p.toNat = 2 ^ 32 * (2 * c * p.toNat) := by rw [hc]; ring
  constructor
  · rw [accumulate_acc_beyond p hshift, hacc, hhigh, Nat.add_mul_mod_self_left]
  · rw [accumulate_ovf_beyond p hshift, Bool.or_eq_true, hovf, decide_eq_true_eq]
    rcases Nat.eq_zero_or_pos p.toNat with hz | hpos
    · have hp : p = 0 := BitVec.eq_of_toNat_eq hz
      simp [hp]
    · have hp : p ≠ 0 := by
        rintro rfl
        exact absurd hpos (by decide)
      have hbig : 8 ^ 11 ≤ 8 ^ n := Nat.pow_le_pow_right (by decide) hn
      have hmul : 8 ^ n ≤ 8 ^ n * p.toNat := Nat.le_mul_of_pos_right _ hpos
      exact iff_of_true (.inr hp) (by omega)

/-- One nibble more: its payload is the next base-8 digit of the value. -/
theorem ScratchHolds.accumulate {n v : Nat} {d : DecUnit} (h : ScratchHolds n v d) (p : Payload) :
    ScratchHolds (n + 1) (v + 8 ^ n * p.toNat) (accumulate p d) := by
  have hpair : (Machine.accumulate p d).acc.toNat = (v + 8 ^ n * p.toNat) % 2 ^ 32 ∧
      ((Machine.accumulate p d).ovf = true ↔ 2 ^ 32 ≤ v + 8 ^ n * p.toNat) := by
    rcases lt_trichotomy n 10 with hn | rfl | hn
    · exact accumulate_pair_low h p hn
    · exact accumulate_pair_top h p
    · exact accumulate_pair_beyond h p hn
  obtain ⟨hacc, hovf⟩ := hpair
  refine ⟨?lt, ?sh, hacc, hovf⟩
  case lt =>
    have hlt := h.lt
    have hp : 8 ^ n * p.toNat ≤ 8 ^ n * 7 := Nat.mul_le_mul_left _ (Nat.le_of_lt_succ p.isLt)
    rw [pow_succ]
    omega
  case sh =>
    rw [accumulate_sh, h.sh]
    omega

/-! ### The whole codeword -/

/-- A codeword that is read has its first nibble there, and the rest is read after that. -/
theorem getNib_of_takeNibbles {fill : NibbleFill} {mem : Nat → Word} {p : Payload} {ps : Codeword}
    {d d' : DecUnit} (h : takeNibbles fill mem (p :: ps) d = .ok d') :
    ∃ nb d1, getNib fill mem d = some (nb, d1) ∧
      takeNibbles fill mem ps (accumulate p d1) = .ok d' := by
  cases hg : getNib fill mem d with
  | none => simp only [takeNibbles, hg] at h; cases h
  | some r => exact ⟨r.1, r.2, rfl, by simpa only [takeNibbles, hg] using h⟩

/-- GETNIB leaves the scratch as it is. -/
theorem ScratchHolds.getNib {n v : Nat} {d d' : DecUnit} {fill : NibbleFill} {mem : Nat → Word}
    {nb : Nibble} (h : ScratchHolds n v d) (hg : getNib fill mem d = some (nb, d')) :
    ScratchHolds n v d' := by
  rw [getNib_frame fill mem hg]
  exact ⟨h.lt, h.sh, h.acc, h.ovf⟩

theorem takeNibbles_holds {fill : NibbleFill} {mem : Nat → Word} {cw : Codeword} {n v : Nat}
    {d d' : DecUnit} (h : ScratchHolds n v d) (ht : takeNibbles fill mem cw d = .ok d') :
    ScratchHolds (n + cw.length) (v + 8 ^ n * codewordValue cw) d' := by
  induction cw generalizing n v d with
  | nil => cases ht; exact h
  | cons p ps ih =>
    obtain ⟨nb, d1, hg, hrest⟩ := getNib_of_takeNibbles ht
    have hvalue : v + 8 ^ n * codewordValue (p :: ps) =
        v + 8 ^ n * p.toNat + 8 ^ (n + 1) * codewordValue ps := by
      rw [codewordValue]; ring
    have hlength : n + (p :: ps).length = n + 1 + ps.length := by
      rw [List.length_cons]; omega
    rw [hvalue, hlength]
    exact ih ((h.getNib hg).accumulate p) hrest

/-- The nibbles ahead after a codeword are those that came after it before. -/
theorem nibblesAhead_takeNibbles {fill : NibbleFill} {mem : Nat → Word} {cw : Codeword}
    {d d' : DecUnit} (ht : takeNibbles fill mem cw d = .ok d') (n : Nat) :
    nibblesAhead fill mem n d' = (nibblesAhead fill mem (n + cw.length) d).drop cw.length := by
  induction cw generalizing d with
  | nil => cases ht; rfl
  | cons p ps ih =>
    obtain ⟨nb, d1, hg, hrest⟩ := getNib_of_takeNibbles ht
    have hscratch : nibblesAhead fill mem (n + ps.length) (accumulate p d1) =
        nibblesAhead fill mem (n + ps.length) d1 := nibblesAhead_scratch _ _ _ _ _ _ _
    rw [ih hrest, hscratch, List.length_cons, ← Nat.add_assoc, nibblesAhead, hg, List.drop_succ_cons]

/-- GETNIB does not look at the codeword held. -/
theorem getNib_held (fill : NibbleFill) (mem : Nat → Word) (d : DecUnit) (h : Option Codeword) :
    getNib fill mem { d with held := h } =
      (getNib fill mem d).map fun r => (r.1, { r.2 with held := h }) := by
  cases fill <;> simp only [getNib, shiftNibble] <;> split_ifs <;> rfl

theorem nibblesAhead_held (fill : NibbleFill) (mem : Nat → Word) (n : Nat) (d : DecUnit)
    (h : Option Codeword) : nibblesAhead fill mem n { d with held := h } = nibblesAhead fill mem n d := by
  induction n generalizing d with
  | zero => rfl
  | succ n ih =>
    rw [nibblesAhead, nibblesAhead, getNib_held]
    cases getNib fill mem d with
    | none => rfl
    | some r => exact congrArg (r.1 :: ·) (ih r.2)

/-- A DECVLE that ends normally: the codeword's value in the scratch pair, its nibbles consumed, and
nothing but the cursor and the scratch changed (R124, R125). -/
theorem decVle_reads {cw : Codeword} {s : State} (h : cw.length ≤ nibblesLeft s.dec) :
    ∃ d, decVle cw s = .ok { s with dec := d } ∧
      ScratchHolds cw.length (codewordValue cw) d ∧
      CursorMoved cw.length s { s with dec := d } ∧
      d = { s.dec with word := d.word, nib := d.nib, rd := d.rd,
                       acc := d.acc, ovf := d.ovf, sh := d.sh } := by
  obtain ⟨d, ht, hleft⟩ := takeNibbles_ok Config.nibbleFill s.readDecIn cw s.dec.clearScratch h
  have hframe := takeNibbles_frame _ _ _ (.inl ht)
  have hholds := takeNibbles_holds (clearScratch_holds s.dec) ht
  have hstream : State.stream { s with dec := d } = s.stream.drop cw.length := by
    have hahead := nibblesAhead_takeNibbles ht (nibblesLeft d)
    rw [hleft] at hahead
    exact hahead.trans (congrArg (List.drop _) (nibblesAhead_scratch _ _ _ s.dec 0 false 0))
  exact ⟨d, decVle_of_ok ht, by simpa using hholds, ⟨hleft, hstream,
    (congrArg DecUnit.numPixels hframe).trans rfl, (congrArg DecUnit.inWords hframe).trans rfl⟩, hframe⟩

/-- A codeword whose nibbles are left is read, and held for its symbol step (log entry 4). -/
theorem readCodeword_reads {cw : Codeword} {s : State} (h : cw.length ≤ nibblesLeft s.dec) :
    CodewordRead cw s (readCodeword cw s) := by
  obtain ⟨d, hok, hholds, ⟨hleft, hstream, hpixels, hwords⟩, hframe⟩ := decVle_reads h
  have hread : readCodeword cw s = { s with dec := { d with held := some cw } } := by
    rw [readCodeword, hok, andThen_ok, settle_ok]
  rw [hread]
  refine ⟨hholds.acc, hholds.ovf, rfl, ⟨hleft, ?_, hpixels, hwords⟩, ?_⟩
  · exact (nibblesAhead_held _ _ _ d (some cw)).trans hstream
  · exact congrArg (fun c : DecUnit => { s with dec := { c with held := some cw } }) hframe

/-- Every row of the table reads its codeword. -/
theorem readsCodeword_of_vleRow {cw : Codeword} {i : Instr} (h : vleRow cw = some i) :
    ReadsCodeword i cw :=
  fun s hleft => ⟨readCodeword cw s, exec_of_vleRow h s, readCodeword_reads hleft⟩

/-- Settles O10: the eleven rows are one meaning at eleven lengths. -/
theorem codewordRowsReadTheirValue : Obligations.CodewordRowsReadTheirValue := by
  intro a b c d e f g h j k l
  refine ⟨?_, ?_, ?_, ?_, ?_, ?_, ?_, ?_, ?_, ?_, ?_⟩ <;> exact readsCodeword_of_vleRow rfl

end Sys2Proof.Machine

/-! ## The nibble micro-operations (R120 to R123, R127) -/

namespace Sys2Proof.Machine

/-! ### PUTNIB, FLUSH and GETNIB on this hardware's packing -/

/-- A nibble put on top of `n` nibbles adds its value times `16^n` (R120). -/
theorem appendNibble_toNat {v : Word} {n : Nat} (nb : Nibble) (hn : n ≤ 7)
    (hv : v.toNat < 16 ^ n) :
    (appendNibble .lowFirst v n nb).toNat = v.toNat + nb.toNat * 16 ^ n := by
  have hpow : 16 ^ n = 2 ^ (4 * n) := (pow_mul 2 4 n).symm
  have hnb : (nb.setWidth 32).toNat = nb.toNat := BitVec.toNat_setWidth_of_le (by decide)
  have hroom : nb.toNat * 2 ^ (4 * n) < 2 ^ 32 :=
    calc nb.toNat * 2 ^ (4 * n) < 2 ^ 4 * 2 ^ (4 * n) :=
          Nat.mul_lt_mul_of_pos_right nb.isLt (Nat.two_pow_pos _)
      _ = 2 ^ (4 + 4 * n) := (pow_add 2 4 _).symm
      _ ≤ 2 ^ 32 := Nat.pow_le_pow_right (by decide) (by omega)
  rw [hpow] at hv ⊢
  rw [appendNibble, toNat_or_shiftLeft v _ hv (hnb ▸ hroom), hnb, Nat.mul_comm]

/-- Settles O28: the three cases of PUTNIB, the word register read as a number. -/
theorem putnibFillsLowestSlot : Obligations.PutnibFillsLowestSlot := by
  intro nb e out hfree
  have hword := appendNibble_toNat nb (Nat.le_of_lt_succ e.nib.isLt) hfree
  rcases putNib_cases Config.nibbleFill nb e out with ⟨h7, hp⟩ | ⟨h7, hw, hp⟩ | ⟨h7, hw, hp⟩
  · refine ⟨fun _ => ⟨_, hp, hword, ?_, rfl⟩, fun h => absurd h h7, fun h => absurd h h7⟩
    show (e.nib + 1).toNat = e.nib.toNat + 1
    bv_omega
  · exact ⟨fun h => absurd h7 h, fun _ h => absurd hw h, fun _ _ => ⟨_, hp, rfl⟩⟩
  · refine ⟨fun h => absurd h7 h, fun _ _ => ?_, fun _ h => absurd h hw⟩
    rw [hp, ← hword, BitVec.ofNat_toNat, BitVec.setWidth_eq, Config.nibbleFill]

/-- Settles O29: FLUSH on no nibble, with room and without. -/
theorem flushWritesPartialWord : Obligations.FlushWritesPartialWord := by
  intro e out
  refine ⟨fun h => if_pos h, fun h hw => ?_, fun h hw => ?_⟩
  · exact (if_neg h).trans (if_neg hw)
  · exact (if_neg h).trans (if_pos hw)

/-- Settles O30: the three cases of GETNIB, what it delivers and keeps read as numbers. -/
theorem getnibDeliversLowestSlot : Obligations.GetnibDeliversLowestSlot := by
  have hlow (v : Word) : (v.setWidth 4).toNat = v.toNat % 16 := BitVec.toNat_setWidth 4 v
  have hrest (v : Word) : (v >>> 4).toNat = v.toNat / 16 := by
    rw [BitVec.toNat_ushiftRight, Nat.shiftRight_eq_div_pow]
  have hseven : (8 : BitVec 4) - 1 = 7 := by decide
  intro mem d
  rcases getNib_cases Config.nibbleFill mem d with ⟨h0, hr, hg⟩ | ⟨h0, hr, hg⟩ | ⟨h0, hg⟩
  · exact ⟨fun _ _ => hg, fun _ h => absurd hr h, fun h => absurd h0 h⟩
  · refine ⟨fun _ h => absurd h hr, fun _ _ => ⟨_, _, hg, hlow _, hrest _, ?_⟩, fun h => absurd h0 h⟩
    exact congrArg (fun k => { d with word := mem d.rd.toNat >>> 4, rd := d.rd + 1, nib := k }) hseven
  · exact ⟨fun h => absurd h h0, fun h => absurd h h0, fun _ => ⟨_, _, hg, hlow _, hrest _, rfl⟩⟩

/-! ### How many nibbles ENCVLE appends -/

/-- The nibbles appended so far: eight to a word written, and those at hand (R27). -/
def EncUnit.nibblesPut (e : EncUnit) : Nat := 8 * e.wr.toNat + e.nib.toNat

/-- PUTNIB counts its nibble; below the capacity the write index does not wrap (R27, R120). -/
theorem putNib_nibblesPut {fill : NibbleFill} {nb : Nibble} {e e' : EncUnit} {out out' : Buf 32}
    (hwr : e.wr.toNat ≤ e.outCap.toNat) (hp : putNib fill nb e out = .ok e' out') :
    e'.nibblesPut = e.nibblesPut + 1 ∧ e'.wr.toNat ≤ e'.outCap.toNat := by
  rcases putNib_cases fill nb e out with ⟨h7, h⟩ | ⟨_, _, h⟩ | ⟨h7, hne, h⟩ <;> rw [h] at hp <;>
    cases hp
  · have hnib : (e.nib + 1).toNat = e.nib.toNat + 1 := by bv_omega
    refine ⟨?_, hwr⟩
    simp only [EncUnit.nibblesPut, hnib]
    omega
  · obtain ⟨hsucc, hle⟩ := count_succ_toNat hwr hne
    have hnib : e.nib.toNat = 7 := congrArg BitVec.toNat h7
    refine ⟨?_, hsucc.trans_le hle⟩
    have hzero : (0 : BitVec 3).toNat = 0 := rfl
    simp only [EncUnit.nibblesPut, hsucc, hnib, hzero]
    omega

theorem putNibs_nibblesPut {fill : NibbleFill} {b : List Nibble} {e e' : EncUnit} {out out' : Buf 32}
    (hwr : e.wr.toNat ≤ e.outCap.toNat) (hp : putNibs fill b e out = .ok e' out') :
    e'.nibblesPut = e.nibblesPut + b.length := by
  induction b generalizing e out with
  | nil => cases hp; rfl
  | cons nb rest ih =>
    rw [putNibs] at hp
    cases h : putNib fill nb e out with
    | ok e1 out1 =>
      rw [h] at hp
      obtain ⟨hone, hwr1⟩ := putNib_nibblesPut hwr h
      rw [ih hwr1 hp, hone, List.length_cons]
      omega
    | full e1 out1 => rw [h] at hp; cases hp

/-- An ENCVLE that ends normally has put every nibble of its value. -/
theorem putNibs_of_encVle {x : Nat} {s t : State} (h : encVle x s = .ok t) :
    putNibs Config.nibbleFill (vleNibbles x) s.enc s.encOut = .ok t.enc t.encOut := by
  rw [encVle] at h
  cases hp : putNibs Config.nibbleFill (vleNibbles x) s.enc s.encOut with
  | ok e out => rw [hp] at h; cases h; rfl
  | full e out => rw [hp] at h; cases h

/-- Settles O4: the bounds are `codewordLength_le_iff` at 11 and at the value itself. -/
theorem encvleNibbleCount : Obligations.EncvleNibbleCount := by
  intro x
  refine ⟨vleNibbles_length x, fun h => codewordLength_of_lt (by omega), codewordLength_of_pos,
    fun h => ?_, fun h => ?_, fun s t hwr h => ?_⟩
  · exact (codewordLength_le_iff x (by decide)).2 (h.trans (by decide))
  · exact (codewordLength_le_iff x h).2 (Nat.lt_pow_self (by decide))
  · rw [← vleNibbles_length]
    exact putNibs_nibblesPut hwr (putNibs_of_encVle h)

end Sys2Proof.Machine

/-! ## DECVLE gives the value ENCVLE wrote (R125, R126) -/

namespace Sys2Proof.Machine

/-! ### The codeword of a value read back -/

theorem codewordOf_ne_nil (x : Nat) : codewordOf x ≠ [] := by
  intro h
  have hlen := codewordOf_length x
  rw [h] at hlen
  exact absurd (codewordLength_pos x) (by rw [← hlen]; decide)

/-- The canonical codeword of a value has that value (R92, R94). -/
theorem codewordValue_codewordOf (x : Nat) : codewordValue (codewordOf x) = x := by
  induction x using Nat.strong_induction_on with
  | h x ih =>
    rcases Nat.lt_or_ge x 8 with h | h
    · rw [codewordOf_of_lt h, codewordValue, codewordValue, BitVec.toNat_ofNat]
      omega
    · rw [codewordOf_of_ge h, codewordValue, ih (x / 8) (by omega), BitVec.toNat_ofNat]
      omega

/-- Settles O5: the codeword at the cursor is the value's own, and its nibbles are all there. -/
theorem decvleInvertsEncvle : Obligations.DecvleInvertsEncvle := by
  intro x s rest hstream
  have hlen : (vleNibbles x).length = (codewordOf x).length := Laws.codewordNibbles_length _
  have hleft : (codewordOf x).length ≤ nibblesLeft s.dec := by
    rw [← stream_length, hstream, List.length_append, hlen]
    exact Nat.le_add_right _ _
  obtain ⟨d, hok, hholds, ⟨_, hrest, _⟩, _⟩ := decVle_reads hleft
  rw [codewordValue_codewordOf] at hholds
  refine ⟨?_, _, hok, ?_, hholds.acc, hholds.ovf⟩
  · rw [hstream]
    exact splitCodeword_codewordNibbles (codewordOf_ne_nil x) rest
  · rw [hrest, hstream, ← hlen, List.drop_left]

/-! ### The tests on the scratch pair -/

/-- The OVERRUN test on the pair is the test on the value: no remaining count reaches `2^32` (R125). -/
theorem ScratchHolds.overRemaining_iff {n v : Nat} {d : DecUnit} (h : ScratchHolds n v d) :
    overRemaining d = true ↔ remaining d < v := by
  have hcount : remaining d < 2 ^ 32 := (Nat.sub_le _ _).trans_lt d.numPixels.isLt
  rw [overRemaining, Bool.or_eq_true, decide_eq_true_eq, h.ovf, h.acc]
  omega

/-- A difference of `2^31` and more leads out of the samples from any predictor (R143). -/
theorem accum_zzDec_of_large (prev : Sample) {v : Nat} (hv : 2 ^ 32 ≤ v) :
    accum prev (zzDec v) = none := by
  have hprev : prev.toNat < 65536 := prev.isLt
  refine if_pos ?_
  rw [zzDec]
  split <;> omega

/-- Reconstruction from the pair is reconstruction from the value (R125). -/
theorem ScratchHolds.reconstruct_eq {n v : Nat} {d : DecUnit} (h : ScratchHolds n v d) :
    reconstruct d = accum d.prev (zzDec v) := by
  rw [reconstruct]
  by_cases hv : 2 ^ 32 ≤ v
  · rw [if_pos (h.ovf.2 hv), accum_zzDec_of_large d.prev hv]
  · rw [if_neg (mt h.ovf.1 hv), h.acc, Nat.mod_eq_of_lt (by omega)]

/-- A DECVLE that ends normally leaves its codeword's value in the scratch. -/
theorem scratchHolds_of_decVle {cw : Codeword} {s t : State} (h : decVle cw s = .ok t) :
    ScratchHolds cw.length (codewordValue cw) t.dec := by
  rcases decVle_cases cw s with ⟨hleft, _⟩ | ⟨_, d, hraised, _⟩
  · obtain ⟨d, hok, hholds, _⟩ := decVle_reads hleft
    cases hok.symm.trans h
    exact hholds
  · cases hraised.symm.trans h

/-- Settles O12: one nibble by its shift count, and a whole DECVLE by `ScratchHolds`. -/
theorem scratchPairStandsForValue : Obligations.ScratchPairStandsForValue := by
  refine ⟨fun p d => ⟨fun h => ⟨accumulate_acc_low p h, accumulate_ovf_low p h⟩, fun h => ?_, fun h => ?_,
    accumulate_sh p d⟩, fun cw s t h => ?_⟩
  · exact ⟨accumulate_acc_top p h, by rw [accumulate_ovf_top p h, Bool.or_eq_true]⟩
  · refine ⟨accumulate_acc_beyond p h, ?_⟩
    rw [accumulate_ovf_beyond p h, Bool.or_eq_true, decide_eq_true_eq]
  · have hholds := scratchHolds_of_decVle h
    exact ⟨hholds.acc, hholds.ovf, hholds.sh, hholds.overRemaining_iff, hholds.reconstruct_eq⟩

end Sys2Proof.Machine

/-! ## Unpacking undoes packing (R95, R97, R128, R129)

Both packings are read through the eight nibbles of a word in stream order, `wordNibbles`: PUTNIB sets the
first free one of them, GETNIB takes the first one off. -/

namespace Sys2Proof.Machine

/-! ### The nibbles of a word in stream order -/

/-- The slot of the nibble that stands at place `t` of a word's stream (R95, R97). -/
def fillSlot : NibbleFill → Nat → Nat
  | .lowFirst, t => t
  | .highFirst, t => 7 - t

theorem wordNibbles_eq_slots (fill : NibbleFill) (v : Word) :
    wordNibbles fill v = (List.range 8).map fun t => wordSlot v (fillSlot fill t) := by
  cases fill <;> rfl

theorem wordNibbles_length (fill : NibbleFill) (v : Word) : (wordNibbles fill v).length = 8 := by
  cases fill <;> rfl

/-- Different places of a word's stream are different slots. -/
theorem fillSlot_eq_iff (fill : NibbleFill) {t n : Nat} (ht : t < 8) (hn : n < 8) :
    fillSlot fill t = fillSlot fill n ↔ t = n := by
  cases fill
  · rfl
  · simp only [fillSlot]; omega

theorem fillSlot_lt (fill : NibbleFill) {t : Nat} (ht : t < 8) : fillSlot fill t < 8 := by
  cases fill <;> simp only [fillSlot] <;> omega

theorem wordSlot_getLsbD (v : Word) (k i : Nat) :
    (wordSlot v k).getLsbD i = (decide (i < 4) && v.getLsbD (4 * k + i)) := by
  simp [wordSlot]

/-- OR with a nibble moved to a slot is OR in that slot. -/
theorem wordSlot_or_nibble (v : Word) (nb : Nibble) {j k : Nat} (hj : j < 8) :
    wordSlot (v ||| nb.setWidth 32 <<< (4 * j)) k =
      if k = j then wordSlot v k ||| nb else wordSlot v k := by
  have hbit (i : Nat) (hi : i < 4) :
      (nb.setWidth 32 <<< (4 * j)).getLsbD (4 * k + i) = if k = j then nb.getLsbD i else false := by
    rw [BitVec.getLsbD_shiftLeft, BitVec.getLsbD_setWidth]
    rcases Nat.lt_trichotomy k j with h | rfl | h
    · have hbelow : 4 * k + i < 4 * j := by omega
      simp [hbelow, h.ne]
    · have hin : 4 * k + i < 32 := by omega
      have hlt : i < 32 := by omega
      simp [hin, hlt]
    · rw [if_neg h.ne', BitVec.getLsbD_of_ge nb _ (by omega), Bool.and_false, Bool.and_false]
  apply BitVec.eq_of_getLsbD_eq
  intro i hi
  rw [wordSlot_getLsbD, decide_eq_true hi, Bool.true_and, BitVec.getLsbD_or, hbit i hi]
  split
  · rw [BitVec.getLsbD_or, wordSlot_getLsbD, decide_eq_true hi, Bool.true_and]
  · rw [wordSlot_getLsbD, decide_eq_true hi, Bool.true_and, Bool.or_false]

theorem wordNibbles_getElem? (fill : NibbleFill) (v : Word) {t : Nat} (ht : t < 8) :
    (wordNibbles fill v)[t]? = some (wordSlot v (fillSlot fill t)) := by
  rw [wordNibbles_eq_slots, List.getElem?_map, List.getElem?_range ht, Option.map_some]

/-- OR with a nibble moved to a slot that is 0 sets that place of the stream. -/
theorem wordNibbles_or_nibble (fill : NibbleFill) (v : Word) (nb : Nibble) {n : Nat} (hn : n < 8)
    (hfree : (wordNibbles fill v)[n]? = some 0) :
    wordNibbles fill (v ||| nb.setWidth 32 <<< (4 * fillSlot fill n)) =
      (wordNibbles fill v).set n nb := by
  apply List.ext_getElem?
  intro t
  rw [List.getElem?_set, wordNibbles_length]
  rcases Nat.lt_or_ge t 8 with ht | ht
  · rw [wordNibbles_getElem? fill _ ht, wordSlot_or_nibble v nb (fillSlot_lt fill hn)]
    rcases eq_or_ne n t with rfl | hne
    · rw [wordNibbles_getElem? fill v hn] at hfree
      simp [Option.some.inj hfree, hn]
    · have hslot : fillSlot fill t ≠ fillSlot fill n :=
        fun h => hne ((fillSlot_eq_iff fill ht hn).1 h).symm
      rw [if_neg hslot, if_neg hne, wordNibbles_getElem? fill v ht]
  · have hne : n ≠ t := by omega
    rw [if_neg hne, List.getElem?_eq_none (by rwa [wordNibbles_length]),
      List.getElem?_eq_none (by rwa [wordNibbles_length])]

/-- The eight nibbles of a word of which `c` are at hand: the rest are padding (R98). -/
def padded (c : List Nibble) : List Nibble := c ++ List.replicate (8 - c.length) 0

theorem padded_set {c : List Nibble} (hc : c.length < 8) (nb : Nibble) :
    (padded c).set c.length nb = padded (c ++ [nb]) := by
  have hpad : List.replicate (8 - c.length) (0 : Nibble) = 0 :: List.replicate (7 - c.length) 0 := by
    rw [← List.replicate_succ]
    congr 1
    omega
  have hlast : 8 - (c.length + 1) = 7 - c.length := by omega
  rw [padded, padded, List.set_append_right _ _ le_rfl, Nat.sub_self, hpad, List.set_cons_zero,
    List.length_append, List.length_singleton, hlast, List.append_assoc, List.singleton_append]

theorem padded_getElem? {c : List Nibble} (hc : c.length < 8) : (padded c)[c.length]? = some 0 := by
  rw [padded, List.getElem?_append_right le_rfl, Nat.sub_self, List.getElem?_replicate,
    if_pos (by omega)]

/-! ### PUTNIB and FLUSH -/

/-- With one nibble more, the word FLUSH would write has that nibble in the next slot. -/
theorem flushWord_appendNibble (fill : NibbleFill) (v : Word) {n : Nat} (nb : Nibble) (hn : n < 8) :
    flushWord fill (appendNibble fill v n nb) (n + 1) =
      flushWord fill v n ||| nb.setWidth 32 <<< (4 * fillSlot fill n) := by
  cases fill with
  | lowFirst => rfl
  | highFirst =>
    have hshift : 4 * (8 - n) = 4 + 4 * (7 - n) := by omega
    have hlast : 8 - (n + 1) = 7 - n := by omega
    simp only [flushWord, appendNibble, fillSlot, hlast, hshift, BitVec.shiftLeft_or_distrib,
      BitVec.shiftLeft_add]

theorem flushWord_eight (fill : NibbleFill) (v : Word) : flushWord fill v 8 = v := by
  cases fill
  · rfl
  · exact BitVec.shiftLeft_zero v

/-- The word register, with the nibbles `c` in it, after one nibble more (R120, R129). -/
theorem wordNibbles_appendNibble {fill : NibbleFill} {v : Word} {c : List Nibble}
    (hc : c.length < 8) (hv : wordNibbles fill (flushWord fill v c.length) = padded c) (nb : Nibble) :
    wordNibbles fill (flushWord fill (appendNibble fill v c.length nb) (c ++ [nb]).length) =
      padded (c ++ [nb]) := by
  rw [List.length_append, List.length_singleton, flushWord_appendNibble fill v nb hc,
    wordNibbles_or_nibble fill _ nb hc (hv ▸ padded_getElem? hc), hv, padded_set hc]

/-- Where ENC stands after the nibbles of the words `ws` and the nibbles `c`, on ENC_OUT as it was in
`out0`: the words are written from element 0 on, the nibbles `c` are in the word register (R37). -/
structure Packed (fill : NibbleFill) (out0 : Buf 32) (ws : List Word) (c : List Nibble) (e : EncUnit)
    (out : Buf 32) : Prop where
  wr : e.wr.toNat = ws.length
  nib : e.nib.toNat = c.length
  register : wordNibbles fill (flushWord fill e.word c.length) = padded c
  written : ∀ k, bufRead out k = (ws[k]?).or (bufRead out0 k)

/-- The nibbles of the words `ws` and of the word register. -/
def packedNibbles (fill : NibbleFill) (ws : List Word) (c : List Nibble) : List Nibble :=
  ws.flatMap (wordNibbles fill) ++ c

section
variable {fill : NibbleFill} {out0 out : Buf 32} {ws : List Word} {c : List Nibble} {e : EncUnit}

theorem packedNibbles_length : (packedNibbles fill ws c).length = 8 * ws.length + c.length := by
  simp [packedNibbles, List.length_flatMap, wordNibbles_length, Nat.mul_comm]

theorem wordNibbles_empty (fill : NibbleFill) : wordNibbles fill (flushWord fill 0 0) = padded [] := by
  cases fill <;> rfl

theorem packed_empty (hw : e.word = 0) (hn : e.nib = 0) (hr : e.wr = 0) :
    Packed fill out [] [] e out where
  wr := by rw [hr]; rfl
  nib := by rw [hn]; rfl
  register := by rw [hw]; exact wordNibbles_empty fill
  written _ := by simp

/-- A word written where there is room is the next one, and the register is empty after it. -/
theorem writeWord_packed (hwr : e.wr.toNat = ws.length)
    (hwritten : ∀ k, bufRead out k = (ws[k]?).or (bufRead out0 k)) (v : Word)
    (hroom : ws.length < e.outCap.toNat) :
    ∃ e' out', writeWord v e out = .ok e' out' ∧ Packed fill out0 (ws ++ [v]) [] e' out' ∧
      e'.outCap = e.outCap := by
  have hne : e.wr ≠ e.outCap := by
    intro heq
    rw [← heq, hwr] at hroom
    exact lt_irrefl _ hroom
  obtain ⟨hsucc, _⟩ := count_succ_toNat (hwr ▸ hroom.le) hne
  refine ⟨_, _, if_neg hne, ⟨?_, rfl, wordNibbles_empty fill, fun k => ?_⟩, rfl⟩
  · rw [List.length_append, List.length_singleton, ← hwr]
    exact hsucc
  · rw [bufRead_bufWrite, hwr, hwritten]
    rcases Nat.lt_trichotomy k ws.length with hk | rfl | hk
    · rw [if_neg hk.ne, List.getElem?_append_left hk]
    · simp
    · rw [if_neg hk.ne', List.getElem?_eq_none hk.le, List.getElem?_eq_none (by simpa using hk)]

/-- A word written from the register's nibbles `c` adds the padding after them to the stream. -/
theorem packedNibbles_write {v : Word} (hv : wordNibbles fill v = padded c) :
    packedNibbles fill (ws ++ [v]) [] =
      packedNibbles fill ws c ++ List.replicate (8 - c.length) 0 := by
  simp [packedNibbles, hv, padded]

/-- PUTNIB, where there is room for the word it may fill. -/
theorem Packed.putNib (h : Packed fill out0 ws c e out) (nb : Nibble)
    (hroom : 8 * ws.length + c.length < 8 * e.outCap.toNat) :
    ∃ e' out' ws' c', Machine.putNib fill nb e out = .ok e' out' ∧ Packed fill out0 ws' c' e' out' ∧
      packedNibbles fill ws' c' = packedNibbles fill ws c ++ [nb] ∧ e'.outCap = e.outCap := by
  have hc : c.length < 8 := h.nib ▸ e.nib.isLt
  have hword := wordNibbles_appendNibble hc h.register nb
  have hsnoc : packedNibbles fill ws (c ++ [nb]) = packedNibbles fill ws c ++ [nb] :=
    (List.append_assoc _ _ _).symm
  rw [← h.nib] at hword
  by_cases h7 : e.nib = 7
  · have hlen : (c ++ [nb]).length = 8 := by
      rw [List.length_append, ← h.nib, h7]
      rfl
    rw [hlen, flushWord_eight] at hword
    have hfits : ws.length < e.outCap.toNat := by omega
    obtain ⟨e', out', hw, hpacked, hcap⟩ := writeWord_packed (fill := fill)
      (e := { e with word := appendNibble fill e.word e.nib.toNat nb }) h.wr h.written
      (appendNibble fill e.word e.nib.toNat nb) hfits
    refine ⟨e', out', _, _, (if_pos h7).trans hw, hpacked, ?_, hcap⟩
    rw [packedNibbles_write hword, hlen, hsnoc]
    exact List.append_nil _
  · have hnib : (e.nib + 1).toNat = (c ++ [nb]).length := by
      rw [List.length_append, List.length_singleton, ← h.nib]
      bv_omega
    exact ⟨_, _, ws, c ++ [nb], if_neg h7, ⟨h.wr, hnib, hword, h.written⟩, hsnoc, rfl⟩

theorem Packed.putNibs (h : Packed fill out0 ws c e out) (b : List Nibble)
    (hroom : 8 * ws.length + c.length + b.length ≤ 8 * e.outCap.toNat) :
    ∃ e' out' ws' c', Machine.putNibs fill b e out = .ok e' out' ∧
      Packed fill out0 ws' c' e' out' ∧
      packedNibbles fill ws' c' = packedNibbles fill ws c ++ b ∧ e'.outCap = e.outCap := by
  induction b generalizing ws c e out with
  | nil => exact ⟨e, out, ws, c, rfl, h, (List.append_nil _).symm, rfl⟩
  | cons nb rest ih =>
    rw [List.length_cons] at hroom
    obtain ⟨e1, out1, ws1, c1, hput, h1, hsnoc, hcap1⟩ := h.putNib nb (by omega)
    have hlen := congrArg List.length hsnoc
    rw [List.length_append, packedNibbles_length, packedNibbles_length, List.length_singleton] at hlen
    obtain ⟨e2, out2, ws2, c2, hputs, h2, happend, hcap2⟩ := ih h1 (by rw [hcap1]; omega)
    refine ⟨e2, out2, ws2, c2, ?_, h2, ?_, hcap2.trans hcap1⟩
    · rw [Machine.putNibs, hput]
      exact hputs
    · rw [happend, hsnoc, List.append_assoc, List.singleton_append]

/-- FLUSH, where there is room for the partly filled word: its free places are padding (R98, R122). -/
theorem Packed.flushNibs (h : Packed fill out0 ws c e out)
    (hroom : 8 * ws.length + c.length ≤ 8 * e.outCap.toNat) :
    ∃ e' out' ws', Machine.flushNibs fill e out = .ok e' out' ∧ Packed fill out0 ws' [] e' out' ∧
      ws'.length = (8 * ws.length + c.length + 7) / 8 ∧
      packedNibbles fill ws' [] = packedNibbles fill ws c ++
        List.replicate (8 * ws'.length - (8 * ws.length + c.length)) 0 := by
  have hc : c.length < 8 := h.nib ▸ e.nib.isLt
  by_cases h0 : e.nib = 0
  · obtain rfl : c = [] := List.length_eq_zero_iff.1 (by rw [← h.nib, h0]; rfl)
    refine ⟨e, out, ws, if_pos h0, h, ?_, ?_⟩
    · rw [List.length_nil]; omega
    · simp
  · have hpos : c.length ≠ 0 := by
      rw [← h.nib]
      exact fun hz => h0 (BitVec.eq_of_toNat_eq hz)
    obtain ⟨e', out', hw, hpacked, _⟩ := writeWord_packed (fill := fill) h.wr h.written
      (flushWord fill e.word e.nib.toNat) (by omega)
    have hlen : (ws ++ [flushWord fill e.word e.nib.toNat]).length = ws.length + 1 := by simp
    refine ⟨e', out', _, (if_neg h0).trans hw, hpacked, ?_, ?_⟩
    · rw [hlen]; omega
    · have hpad : 8 * (ws.length + 1) - (8 * ws.length + c.length) = 8 - c.length := by omega
      rw [packedNibbles_write (by rw [h.nib]; exact h.register), hlen, hpad]

/-- A memory that holds what was written holds the words, in order. -/
theorem Packed.map_mem_eq (h : Packed fill out0 ws c e out) {mem : Nat → Word}
    (hmem : ∀ k, k < ws.length → bufRead out k = some (mem k)) :
    (List.range ws.length).map mem = ws := by
  refine List.ext_getElem (by simp) fun k _ hk => ?_
  have hread := hmem k hk
  rw [h.written, List.getElem?_eq_getElem hk, Option.some_or] at hread
  rw [List.getElem_map, List.getElem_range]
  exact (Option.some.inj hread).symm

end

/-! ### GETNIB -/

theorem wordSlot_eight (v : Word) : wordSlot v 8 = 0 := by
  apply BitVec.eq_of_toNat_eq
  simp [wordSlot, Nat.shiftRight_eq_div_pow, Nat.div_eq_of_lt v.isLt]

theorem wordSlot_shiftLeft_zero (v : Word) : wordSlot (v <<< 4) 0 = 0 := by
  apply BitVec.eq_of_getLsbD_eq
  intro i hi
  rw [wordSlot_getLsbD, BitVec.getLsbD_shiftLeft]
  simp [hi]

theorem wordSlot_shiftLeft_succ (v : Word) {j : Nat} (hj : j < 7) :
    wordSlot (v <<< 4) (j + 1) = wordSlot v j := by
  apply BitVec.eq_of_getLsbD_eq
  intro i hi
  have hin : 4 * (j + 1) + i < 32 := by omega
  have hge : ¬ 4 * (j + 1) + i < 4 := by omega
  have hbit : 4 * (j + 1) + i - 4 = 4 * j + i := by omega
  simp only [wordSlot_getLsbD, BitVec.getLsbD_shiftLeft, hin, hge, hbit, decide_true, decide_false,
    Bool.not_false, Bool.true_and]

/-- GETNIB takes the first nibble of the word register off; a 0 comes in behind (R123, R129). -/
theorem shiftNibble_eq (fill : NibbleFill) (d : DecUnit) :
    ∃ nb v, shiftNibble fill d = (nb, { d with word := v, nib := d.nib - 1 }) ∧
      wordNibbles fill d.word ++ [0] = nb :: wordNibbles fill v := by
  cases fill with
  | lowFirst =>
    refine ⟨_, _, rfl, ?_⟩
    rw [← wordSlot_zero, ← wordSlot_eight d.word]
    simp only [wordNibbles, ← wordSlot_succ]
    rfl
  | highFirst =>
    refine ⟨_, _, rfl, ?_⟩
    simp only [wordNibbles, wordSlot_shiftLeft_zero, wordSlot_shiftLeft_succ, Nat.reduceLT]
    rfl

/-- The nibbles of the word register come first, in stream order. -/
theorem nibblesAhead_register (fill : NibbleFill) (mem : Nat → Word) (n : Nat) {j : Nat} {d : DecUnit}
    (hj : d.nib.toNat = j) (h8 : j ≤ 8) :
    ∃ v, nibblesAhead fill mem (j + n) d = (wordNibbles fill d.word).take j ++
      nibblesAhead fill mem n { d with word := v, nib := 0 } := by
  induction j generalizing d with
  | zero =>
    have hnib : d.nib = 0 := BitVec.eq_of_toNat_eq hj
    exact ⟨d.word, by simp [← hnib]⟩
  | succ j ih =>
    have h0 : d.nib ≠ 0 := by bv_omega
    have hpred : (d.nib - 1).toNat = j := by bv_omega
    obtain ⟨nb, v, hshift, hnibbles⟩ := shiftNibble_eq fill d
    have hg : getNib fill mem d = some (nb, { d with word := v, nib := d.nib - 1 }) :=
      (if_neg h0).trans (congrArg some hshift)
    obtain ⟨v', hrest⟩ := ih (d := { d with word := v, nib := d.nib - 1 }) hpred (by omega)
    refine ⟨v', ?_⟩
    have htake : (wordNibbles fill d.word).take (j + 1) = nb :: (wordNibbles fill v).take j := by
      rw [← List.take_succ_cons, ← hnibbles, List.take_append_of_le_length]
      rwa [wordNibbles_length]
    rw [Nat.add_right_comm, nibblesAhead, hg]
    exact (congrArg (nb :: ·) hrest).trans (by rw [htake]; rfl)

theorem nibblesAhead_fetch (fill : NibbleFill) (mem : Nat → Word) (n : Nat) {d : DecUnit}
    (h0 : d.nib = 0) (hr : d.rd ≠ d.inWords) :
    nibblesAhead fill mem (n + 1) d =
      nibblesAhead fill mem (n + 1) { d with word := mem d.rd.toNat, rd := d.rd + 1, nib := 8 } := by
  rw [nibblesAhead, getNib_fetch fill mem h0 hr, nibblesAhead]

/-- At a word boundary, what GETNIB delivers is the nibbles of the words not yet fetched, and nothing
after them (R123, R222). -/
theorem nibblesAhead_unfetched (fill : NibbleFill) (mem : Nat → Word) (m : Nat) {d : DecUnit}
    (h0 : d.nib = 0) (hm : d.rd.toNat + m = d.inWords.toNat) :
    nibblesAhead fill mem (8 * m + 1) d =
      ((List.range m).map fun j => mem (d.rd.toNat + j)).flatMap (wordNibbles fill) := by
  induction m generalizing d with
  | zero =>
    have hr : d.rd = d.inWords := BitVec.eq_of_toNat_eq hm
    simp [nibblesAhead, getNib, h0, hr]
  | succ m ih =>
    have hr : d.rd ≠ d.inWords := by rintro h; rw [h] at hm; omega
    have hrd : (d.rd + 1).toNat = d.rd.toNat + 1 := (count_succ_toNat (by omega) hr).1
    obtain ⟨v, hword⟩ := nibblesAhead_register fill mem (8 * m + 1) (j := 8)
      (d := { d with word := mem d.rd.toNat, rd := d.rd + 1, nib := 8 }) rfl le_rfl
    have hcount : 8 * (m + 1) + 1 = 8 + (8 * m + 1) := by omega
    have hfetch := nibblesAhead_fetch fill mem (7 + (8 * m + 1)) h0 hr
    rw [Nat.add_right_comm] at hfetch
    have htail : ((List.range m).map fun j => mem ((d.rd + 1).toNat + j)) =
        (List.range m).map ((fun j => mem (d.rd.toNat + j)) ∘ Nat.succ) :=
      List.map_congr_left fun j _ => congrArg mem (by omega)
    have hrest : (d.rd + 1).toNat + m = d.inWords.toNat := by omega
    rw [hcount, hfetch, hword, ih rfl hrest, htail, List.range_succ_eq_map, List.map_cons, List.map_map,
      List.flatMap_cons, List.take_of_length_le (wordNibbles_length fill _).le]
    rfl

/-- Settles O31: the words written unpack to the nibbles packed and the padding after them. -/
theorem unpackingUndoesPacking : Obligations.UnpackingUndoesPacking := by
  intro fill b e out d mem w hword hnib hwr hcap hdnib hdrd hwords
  have hstart : Packed fill out [] [] e out := packed_empty hword hnib hwr
  obtain ⟨e1, out1, ws1, c1, hput, h1, hb, hcap1⟩ := hstart.putNibs b (by simp only [List.length_nil]; omega)
  have hlen : 8 * ws1.length + c1.length = b.length := by
    rw [← packedNibbles_length (fill := fill), hb]
    rfl
  obtain ⟨e2, out2, ws2, hflush, h2, hlen2, hpad⟩ := h1.flushNibs (by rw [hcap1]; omega)
  have hw : ws2.length = w := by rw [hlen2, hlen]
  refine ⟨e1, out1, e2, out2, hput, hflush, h2.wr.trans hw, BitVec.eq_of_toNat_eq h2.nib,
    fun k hk => ?_, fun hmem => ?_⟩
  · rw [h2.written, List.getElem?_eq_none (hw.trans_le hk), Option.none_or]
  · have hwritten := h2.map_mem_eq fun k hk => hmem k (hw ▸ hk)
    calc nibblesAhead fill mem (8 * w + 1) d
        = ((List.range w).map fun j => mem (d.rd.toNat + j)).flatMap (wordNibbles fill) :=
          nibblesAhead_unfetched fill mem w hdnib (by simp [hdrd, hwords])
      _ = packedNibbles fill ws2 [] := by simp [packedNibbles, hdrd, ← hw, hwritten]
      _ = b ++ List.replicate (8 * w - b.length) 0 := by rw [hpad, hb, hlen, hw]; rfl

end Sys2Proof.Machine

/-! ## Zig-zag and delta arithmetic (R140 to R147)

`zzEnc` and `zzDec` are read through one equation for each sign of the difference and each parity of the code;
the laws follow from these. -/

namespace Sys2Proof.Machine

/-! ### The two maps -/

/-- The non-negative branch of ZZENC (R141). -/
theorem zzEnc_natCast (m : Nat) : zzEnc (m : Int) = 2 * m := by
  rw [zzEnc, if_pos (Int.natCast_nonneg m)]
  omega

/-- The negative branch of ZZENC (R141): the code is the odd one just below that of the magnitude. -/
theorem zzEnc_negSucc (m : Nat) : zzEnc (Int.negSucc m) = 2 * m + 1 := by
  rw [zzEnc, if_neg (Int.negSucc_not_nonneg m).1]
  omega

theorem zzDec_even (m : Nat) : zzDec (2 * m) = (m : Int) := by
  rw [zzDec, if_pos (by omega)]
  omega

theorem zzDec_odd (m : Nat) : zzDec (2 * m + 1) = Int.negSucc m := by
  rw [zzDec, if_neg (by omega)]
  omega

/-- ZZENC in the words of R141, over the integers. -/
theorem zzEnc_by_sign (d : Int) :
    (0 ≤ d → (zzEnc d : Int) = 2 * d) ∧ (d < 0 → (zzEnc d : Int) = -2 * d - 1) := by
  cases d with
  | ofNat m =>
    rw [Int.ofNat_eq_natCast, zzEnc_natCast]
    omega
  | negSucc m =>
    rw [zzEnc_negSucc]
    omega

/-! ### Their laws (R146) -/

theorem zzDec_zzEnc (d : Int) : zzDec (zzEnc d) = d := by
  cases d with
  | ofNat m => rw [Int.ofNat_eq_natCast, zzEnc_natCast, zzDec_even]
  | negSucc m => rw [zzEnc_negSucc, zzDec_odd]

theorem zzEnc_zzDec (u : Nat) : zzEnc (zzDec u) = u := by
  obtain ⟨m, rfl | rfl⟩ := Nat.even_or_odd' u
  · rw [zzDec_even, zzEnc_natCast]
  · rw [zzDec_odd, zzEnc_negSucc]

theorem zzEnc_lt_of_natAbs_lt {d d' : Int} (h : d.natAbs < d'.natAbs) : zzEnc d < zzEnc d' := by
  have hd := zzEnc_by_sign d
  have hd' := zzEnc_by_sign d'
  omega

theorem zzEnc_neg_add_one {m : Nat} (hm : 1 ≤ m) : zzEnc (-(m : Int)) + 1 = zzEnc m := by
  have hneg := (zzEnc_by_sign (-(m : Int))).2 (by omega)
  rw [zzEnc_natCast]
  omega

/-- ACCUM of a difference that leads from the predictor to a sample is that sample (R143). -/
theorem accum_of_add_eq {prev v : Sample} {d : Int} (h : (prev.toNat : Int) + d = v.toNat) :
    accum prev d = some v := by
  have hv : v.toNat < 65536 := v.isLt
  rw [accum, h, if_neg (by omega), Int.toNat_natCast, BitVec.ofNat_toNat, BitVec.setWidth_eq]

theorem accum_sampleDelta (v p : Sample) : accum p (sampleDelta v p) = some v :=
  accum_of_add_eq (add_sub_cancel _ _)

/-- Settles O32: the inverse laws and the formulas by sign and parity, the last clause by `zzDec_zzEnc` and
`accum_sampleDelta`. -/
theorem zigzagAndPredictorLaws : Obligations.ZigzagAndPredictorLaws :=
  ⟨fun d => ⟨zzDec_zzEnc d, zzEnc_by_sign d⟩, zzEnc_zzDec, fun _ _ => zzEnc_lt_of_natAbs_lt,
    fun _ => zzEnc_neg_add_one, fun v p => by rw [zzDec_zzEnc, accum_sampleDelta]⟩

/-! ### The nibbles of a difference (R147) -/

/-- The codes below `2 m` are those of the `m` non-negative and the `m` negative differences nearest 0. -/
theorem zzEnc_lt_two_mul_iff (d : Int) (m : Nat) : zzEnc d < 2 * m ↔ -(m : Int) ≤ d ∧ d < m := by
  have hd := zzEnc_by_sign d
  omega

/-- `k` nibbles hold the differences from `-4·8^(k-1)` up to `4·8^(k-1)` (R147). -/
theorem codewordLength_zzEnc_le_iff (d : Int) {k : Nat} (hk : 1 ≤ k) :
    codewordLength (zzEnc d) ≤ k ↔ -4 * 8 ^ (k - 1) ≤ d ∧ d < 4 * 8 ^ (k - 1) := by
  have hpow : 8 ^ k = 2 * (4 * 8 ^ (k - 1)) := by
    rw [← mul_pow_sub_one (by omega : k ≠ 0)]
    omega
  rw [codewordLength_le_iff _ hk, hpow, zzEnc_lt_two_mul_iff]
  push_cast
  rw [neg_mul]

/-- Two samples are at most 65535 apart (R144). -/
theorem sampleDelta_bounds (v p : Sample) : -65535 ≤ sampleDelta v p ∧ sampleDelta v p ≤ 65535 := by
  have hv : v.toNat < 65536 := v.isLt
  have hp : p.toNat < 65536 := p.isLt
  rw [sampleDelta]
  omega

/-- Six nibbles hold every difference of two samples, `4·8^5` being above 65535 (R147). -/
theorem codewordLength_sampleDelta_le (v p : Sample) : codewordLength (zzEnc (sampleDelta v p)) ≤ 6 := by
  have hbounds := sampleDelta_bounds v p
  rw [codewordLength_zzEnc_le_iff _ (by decide)]
  omega

/-- Settles O33: `codewordLength_le_iff` carried through ZZENC, and its range for six nibbles. -/
theorem deltaNibbleCost : Obligations.DeltaNibbleCost :=
  ⟨fun d _ hk => codewordLength_zzEnc_le_iff d hk, codewordLength_sampleDelta_le⟩

end Sys2Proof.Machine

/-! ## The pairs of a sample sequence (R156 stage 1, R157)

`pairsOf` is read through one equation, `IsPair.pairsOf_eq`: a sequence that starts with the zeros and the
non-zero samples of a pair has that pair first. `pairs_induction` is the induction it gives. -/

namespace Sys2Proof.Machine

/-! ### The first pair -/

/-- `z` zeros and then `vs` are the first pair of a sequence that goes on with `rest`: both runs are the
longest there are (R156 stage 1). -/
structure IsPair (z : Nat) (vs rest : List Sample) : Prop where
  nonzero : ∀ v ∈ vs, v ≠ 0
  next_zero : ∀ v, rest.head? = some v → v = 0
  last : vs = [] → rest = []
  pos : 1 ≤ z + vs.length

theorem exists_isPair {x : List Sample} (hx : x ≠ []) :
    ∃ z vs rest, x = List.replicate z 0 ++ (vs ++ rest) ∧ IsPair z vs rest := by
  induction x with
  | nil => exact absurd rfl hx
  | cons v xs ih =>
    by_cases hv : v = 0
    · subst hv
      rcases eq_or_ne xs [] with rfl | hxs
      · exact ⟨1, [], [], rfl, nofun, nofun, fun _ => rfl, le_rfl⟩
      · obtain ⟨z, vs, rest, rfl, h⟩ := ih hxs
        exact ⟨z + 1, vs, rest, rfl, h.nonzero, h.next_zero, h.last, by omega⟩
    · rcases eq_or_ne xs [] with rfl | hxs
      · exact ⟨0, [v], [], rfl, by simpa using hv, nofun, nofun, le_rfl⟩
      · obtain ⟨z, vs, rest, rfl, h⟩ := ih hxs
        cases z with
        | zero =>
          have hnonzero : ∀ u ∈ v :: vs, u ≠ 0 := List.forall_mem_cons.2 ⟨hv, h.nonzero⟩
          exact ⟨0, v :: vs, rest, rfl, hnonzero, h.next_zero, nofun, by simp⟩
        | succ z => exact ⟨0, [v], _, rfl, by simpa using hv, by simp, nofun, le_rfl⟩

/-- With a zero before it or without, the head of a sequence decides which kind of run comes first. -/
theorem IsPair.zeros_pos_iff {z : Nat} {vs rest : List Sample} (h : IsPair z vs rest) :
    1 ≤ z ↔ (List.replicate z 0 ++ (vs ++ rest)).head? = some 0 := by
  cases z with
  | succ z => simp [List.replicate_succ]
  | zero =>
    cases vs with
    | nil => exact absurd h.pos (by simp)
    | cons v vs => simpa using h.nonzero v (by simp)

/-- The zeros of a pair end where it goes on with anything. -/
theorem IsPair.head_ne_zero {z : Nat} {vs rest : List Sample} (h : IsPair z vs rest) :
    ∀ v, (vs ++ rest).head? = some v → v ≠ 0 := by
  cases vs with
  | nil => simp [h.last rfl]
  | cons v vs => simpa using h.nonzero v (by simp)

/-- One round of stage 1 cuts off the first pair (R156). -/
theorem IsPair.pairsFuel_eq {z : Nat} {vs rest : List Sample} (h : IsPair z vs rest) (fuel : Nat) :
    pairsFuel (fuel + 1) (List.replicate z 0 ++ (vs ++ rest)) = (z, vs) :: pairsFuel fuel rest := by
  have hzeros : ∀ v ∈ List.replicate z (0 : Sample), decide (v = 0) = true :=
    fun v hv => decide_eq_true (List.eq_of_mem_replicate hv)
  have hvs : ∀ v ∈ vs, decide (v ≠ 0) = true := fun v hv => decide_eq_true (h.nonzero v hv)
  have hrest : rest.takeWhile (fun y => decide (y ≠ 0)) = [] ∧
      rest.dropWhile (fun y => decide (y ≠ 0)) = rest := by
    cases rest with
    | nil => exact ⟨rfl, rfl⟩
    | cons v rest => simp [h.next_zero v rfl]
  have hcut : (vs ++ rest).takeWhile (fun y => decide (y = 0)) = [] ∧
      (vs ++ rest).dropWhile (fun y => decide (y = 0)) = vs ++ rest := by
    cases hx : vs ++ rest with
    | nil => exact ⟨rfl, rfl⟩
    | cons v xs => simpa using h.head_ne_zero v (by rw [hx]; rfl)
  cases hx : List.replicate z 0 ++ (vs ++ rest) with
  | nil =>
    have hpos := h.pos
    have hlen := congrArg List.length hx
    simp only [List.length_append, List.length_replicate, List.length_nil] at hlen
    omega
  | cons v xs =>
    rw [pairsFuel, ← hx, List.takeWhile_append_of_pos hzeros, List.dropWhile_append_of_pos hzeros,
      hcut.1, hcut.2, List.takeWhile_append_of_pos hvs, List.dropWhile_append_of_pos hvs, hrest.1,
      hrest.2]
    simp

/-- What follows a pair starts with a zero, if there is anything. -/
theorem IsPair.rest_cases {z : Nat} {vs rest : List Sample} (h : IsPair z vs rest) :
    rest = [] ∨ rest.head? = some 0 := by
  cases rest with
  | nil => exact .inl rfl
  | cons v rest => exact .inr (congrArg some (h.next_zero v rfl))

/-- Fuel beyond the number of samples makes no difference. -/
theorem pairsFuel_congr {f g : Nat} {x : List Sample} (hf : x.length ≤ f) (hg : x.length ≤ g) :
    pairsFuel f x = pairsFuel g x := by
  induction f generalizing g x with
  | zero =>
    obtain rfl := List.length_eq_zero_iff.1 (Nat.le_zero.1 hf)
    cases g <;> rfl
  | succ f ih =>
    rcases eq_or_ne x [] with rfl | hx
    · cases g <;> rfl
    · obtain ⟨z, vs, rest, rfl, h⟩ := exists_isPair hx
      have hpos := h.pos
      simp only [List.length_append, List.length_replicate] at hf hg
      obtain ⟨g, rfl⟩ : ∃ k, g = k + 1 := Nat.exists_eq_add_one.2 (by omega)
      rw [h.pairsFuel_eq, h.pairsFuel_eq, ih (g := g) (by omega) (by omega)]

theorem pairsOf_nil : pairsOf [] = [] := rfl

/-- A sequence that starts with a pair has that pair first (R156 stage 1). -/
theorem IsPair.pairsOf_eq {z : Nat} {vs rest : List Sample} (h : IsPair z vs rest) :
    pairsOf (List.replicate z 0 ++ (vs ++ rest)) = (z, vs) :: pairsOf rest := by
  have hpos := h.pos
  have hlen : (List.replicate z 0 ++ (vs ++ rest)).length = z + vs.length - 1 + rest.length + 1 := by
    simp only [List.length_append, List.length_replicate]
    omega
  rw [pairsOf, hlen, h.pairsFuel_eq, pairsFuel_congr (g := rest.length) (by omega) le_rfl, pairsOf]

/-- Induction over the pairs of a sequence. -/
theorem pairs_induction {P : List Sample → Prop} (nil : P [])
    (step : ∀ z vs rest, IsPair z vs rest → P rest → P (List.replicate z 0 ++ (vs ++ rest)))
    (x : List Sample) : P x := by
  induction hn : x.length using Nat.strong_induction_on generalizing x with
  | h n ih =>
    rcases eq_or_ne x [] with rfl | hx
    · exact nil
    · obtain ⟨z, vs, rest, rfl, h⟩ := exists_isPair hx
      have hpos := h.pos
      simp only [List.length_append, List.length_replicate] at hn
      exact step z vs rest h (ih rest.length (by omega) rest rfl)

/-! ### The facts of R157 -/

theorem pairsOf_eq_nil_iff (x : List Sample) : pairsOf x = [] ↔ x.length = 0 := by
  rcases eq_or_ne x [] with rfl | hx
  · simp [pairsOf_nil]
  · obtain ⟨z, vs, rest, rfl, h⟩ := exists_isPair hx
    have hpos := h.pos
    simp only [h.pairsOf_eq, List.length_append, List.length_replicate, reduceCtorEq, false_iff]
    omega

/-- At most one pair for each two samples, and one more; one less if the first pair has zeros (R157). -/
theorem pairsOf_length_le (x : List Sample) :
    (pairsOf x).length ≤ (x.length + if x.head? = some 0 then 1 else 2) / 2 := by
  induction x using pairs_induction with
  | nil => simp [pairsOf_nil]
  | step z vs rest h ih =>
    have hpos := h.pos
    have hrest : (pairsOf rest).length ≤ (rest.length + 1) / 2 := by
      rcases h.rest_cases with rfl | hhead
      · exact Nat.zero_le _
      · rwa [if_pos hhead] at ih
    have hlast : vs.length = 0 → rest.length = 0 :=
      fun h0 => List.length_eq_zero_iff.2 (h.last (List.length_eq_zero_iff.1 h0))
    rw [h.pairsOf_eq]
    simp only [← h.zeros_pos_iff, List.length_cons, List.length_append, List.length_replicate]
    split <;> omega

theorem pairsOf_flatMap (x : List Sample) :
    (pairsOf x).flatMap (fun p => List.replicate p.1 0 ++ p.2) = x := by
  induction x using pairs_induction with
  | nil => rfl
  | step z vs rest h ih => rw [h.pairsOf_eq, List.flatMap_cons, ih, List.append_assoc]

theorem pairsOf_sum (x : List Sample) :
    ((pairsOf x).map fun p => p.1 + p.2.length).sum = x.length := by
  conv_rhs => rw [← pairsOf_flatMap x]
  simp [List.length_flatMap]

theorem one_le_of_mem_pairsOf {x : List Sample} :
    ∀ p ∈ pairsOf x, 1 ≤ p.1 + p.2.length := by
  induction x using pairs_induction with
  | nil => nofun
  | step z vs rest h ih =>
    rw [h.pairsOf_eq]
    exact List.forall_mem_cons.2 ⟨h.pos, ih⟩

/-- Only the first pair can have no zeros (R157). -/
theorem eq_zero_of_pair_no_zeros {x : List Sample} {j : Nat} {p : Nat × List Sample}
    (hp : (pairsOf x)[j]? = some p) (hz : p.1 = 0) : j = 0 ∧ x[0]? ≠ some 0 := by
  induction x using pairs_induction generalizing j with
  | nil => simp [pairsOf_nil] at hp
  | step z vs rest h ih =>
    rw [h.pairsOf_eq] at hp
    cases j with
    | zero =>
      obtain rfl : (z, vs) = p := by simpa using hp
      rw [← List.head?_eq_getElem?, ne_eq, ← h.zeros_pos_iff]
      exact ⟨rfl, by omega⟩
    | succ j =>
      obtain ⟨rfl, hne⟩ := ih (by simpa using hp)
      rcases h.rest_cases with rfl | hhead
      · simp [pairsOf_nil] at hp
      · exact absurd (List.head?_eq_getElem? ▸ hhead) hne

/-- Only the last pair can have no samples (R157). -/
theorem last_of_pair_no_samples {x : List Sample} {j : Nat} {p : Nat × List Sample}
    (hp : (pairsOf x)[j]? = some p) (hn : p.2.length = 0) :
    j + 1 = (pairsOf x).length ∧ x.getLast? = some 0 := by
  induction x using pairs_induction generalizing j with
  | nil => simp [pairsOf_nil] at hp
  | step z vs rest h ih =>
    rw [h.pairsOf_eq] at hp ⊢
    cases j with
    | zero =>
      obtain rfl : (z, vs) = p := by simpa using hp
      obtain rfl := List.length_eq_zero_iff.1 hn
      obtain rfl := h.last rfl
      have hpos : z ≠ 0 := by simpa [Nat.one_le_iff_ne_zero] using h.pos
      simp [pairsOf_nil, List.getLast?_replicate, hpos]
    | succ j =>
      obtain ⟨hj, hlast⟩ := ih (by simpa using hp)
      simp [hj, List.getLast?_append, hlast]

/-- Settles O38: each fact by induction over the pairs. -/
theorem pairsPartitionTheInput : Obligations.PairsPartitionTheInput := by
  intro x
  refine ⟨one_le_of_mem_pairsOf, fun _ _ => eq_zero_of_pair_no_zeros,
    fun _ _ => last_of_pair_no_samples, pairsOf_sum x, pairsOf_eq_nil_iff x, ?_, pairsOf_flatMap x⟩
  have hlen := pairsOf_length_le x
  split at hlen <;> omega

end Sys2Proof.Machine

/-! ## Packing nibbles into words (R95, R98, R156 stage 4) -/

namespace Sys2Proof.Machine

/-! ### One word -/

/-- Slot `k` of the word of up to eight nibbles holds nibble `k`, 0 if there is none (R95, R98). -/
theorem packValue_digit (c : List Nibble) (k : Nat) : packValue c / 16 ^ k % 16 = (c.getD k 0).toNat := by
  induction c generalizing k with
  | nil => simp [packValue]
  | cons b bs ih =>
    have hb : b.toNat < 16 := b.isLt
    cases k with
    | zero => simp [packValue]; omega
    | succ k =>
      have hdiv : (b.toNat + 16 * packValue bs) / 16 = packValue bs := by omega
      rw [packValue, pow_succ', ← Nat.div_div_eq_div_mul, hdiv, ih, List.getD_cons_succ]

theorem wordSlot_toNat (v : Word) (k : Nat) : (wordSlot v k).toNat = v.toNat / 16 ^ k % 16 := by
  rw [wordSlot, BitVec.toNat_setWidth, BitVec.toNat_ushiftRight, Nat.shiftRight_eq_div_pow, pow_mul]
  rfl

theorem wordSlot_packValue (c : List Nibble) {k : Nat} (hk : k < 8) :
    wordSlot (BitVec.ofNat 32 (packValue c)) k = c.getD k 0 := by
  apply BitVec.eq_of_toNat_eq
  have hpow : 2 ^ 32 = 16 ^ k * (16 * 16 ^ (7 - k)) := by
    rw [← pow_succ', ← pow_add, show k + (7 - k + 1) = 8 by omega]
    rfl
  rw [wordSlot_toNat, ← packValue_digit, BitVec.toNat_ofNat, hpow, Nat.mod_mul_right_div_self,
    Nat.mod_mul_right_mod]

theorem padded_getElem?_of_lt (c : List Nibble) {k : Nat} (hk : k < 8) :
    (padded c)[k]? = some (c.getD k 0) := by
  rw [padded, List.getD_eq_getElem?_getD]
  rcases Nat.lt_or_ge k c.length with h | h
  · rw [List.getElem?_append_left h, List.getElem?_eq_getElem h, Option.getD_some]
  · rw [List.getElem?_append_right h, List.getElem?_replicate, if_pos (by omega),
      List.getElem?_eq_none h, Option.getD_none]

/-- A word packed from up to eight nibbles unpacks to them and the padding (R95, R98). -/
theorem wordNibbles_packValue {c : List Nibble} (hc : c.length ≤ 8) :
    wordNibbles .lowFirst (BitVec.ofNat 32 (packValue c)) = padded c := by
  apply List.ext_getElem?
  intro k
  rcases Nat.lt_or_ge k 8 with hk | hk
  · rw [wordNibbles_getElem? _ _ hk, padded_getElem?_of_lt c hk, fillSlot, wordSlot_packValue c hk]
  · have hlen : (padded c).length = 8 := by simp [padded]; omega
    rw [List.getElem?_eq_none (by rwa [wordNibbles_length]), List.getElem?_eq_none (by rwa [hlen])]

/-- Words with the same nibbles are the same. -/
theorem wordNibbles_injective {v w : Word} (h : wordNibbles .lowFirst v = wordNibbles .lowFirst w) :
    v = w := by
  have hslot (k : Nat) (hk : k < 8) : wordSlot v k = wordSlot w k := by
    have hget := congrArg (fun l => l[k]?) h
    simpa only [wordNibbles_getElem? _ _ hk, fillSlot, Option.some.injEq] using hget
  apply BitVec.eq_of_getLsbD_eq
  intro i hi
  have hbit := congrArg (fun q => BitVec.getLsbD q (i % 4)) (hslot (i / 4) (by omega))
  simpa only [wordSlot_getLsbD, show i % 4 < 4 by omega, decide_true, Bool.true_and,
    Nat.div_add_mod] using hbit

/-! ### A sequence of words -/

theorem packNibbles_nil : packNibbles [] = [] := rfl

theorem packFuel_congr {f g : Nat} {b : List Nibble} (hf : b.length ≤ f) (hg : b.length ≤ g) :
    packFuel f b = packFuel g b := by
  induction f generalizing g b with
  | zero =>
    obtain rfl := List.length_eq_zero_iff.1 (Nat.le_zero.1 hf)
    cases g <;> rfl
  | succ f ih =>
    cases b with
    | nil => cases g <;> rfl
    | cons q qs =>
      cases g with
      | zero => exact absurd hg (by simp)
      | succ g =>
        rw [List.length_cons] at hf hg
        rw [packFuel, packFuel, ih (g := g)] <;> rw [List.length_drop, List.length_cons] <;> omega

/-- The first eight nibbles make the first word (R156 stage 4). -/
theorem packNibbles_of_ne_nil {b : List Nibble} (hb : b ≠ []) :
    packNibbles b = BitVec.ofNat 32 (packValue (b.take 8)) :: packNibbles (b.drop 8) := by
  cases b with
  | nil => exact absurd rfl hb
  | cons q qs =>
    rw [packNibbles, List.length_cons, packFuel, packNibbles, packFuel_congr (g := ((q :: qs).drop 8).length)]
    · rw [List.length_drop, List.length_cons]; omega
    · exact le_rfl

theorem packNibbles_induction {P : List Nibble → Prop} (nil : P [])
    (chunk : ∀ b, b ≠ [] → P (b.drop 8) → P b) (b : List Nibble) : P b := by
  induction hn : b.length using Nat.strong_induction_on generalizing b with
  | h n ih =>
    rcases eq_or_ne b [] with rfl | hb
    · exact nil
    · have hpos := List.length_pos_iff.2 hb
      exact chunk b hb (ih (b.drop 8).length (by rw [List.length_drop]; omega) _ rfl)

/-- `W = ceil(T / 8)` (R112). -/
theorem packNibbles_length (b : List Nibble) : (packNibbles b).length = (b.length + 7) / 8 := by
  induction b using packNibbles_induction with
  | nil => rfl
  | chunk b hb ih =>
    have hpos := List.length_pos_iff.2 hb
    rw [packNibbles_of_ne_nil hb, List.length_cons, ih, List.length_drop]
    omega

/-- The words of a nibble sequence unpack to it and the padding of the last word (R95, R98). -/
theorem wordsNibbles_packNibbles (b : List Nibble) : wordsNibbles (packNibbles b) =
    b ++ List.replicate (8 * (packNibbles b).length - b.length) 0 := by
  induction b using packNibbles_induction with
  | nil => rfl
  | chunk b hb ih =>
    have hpos := List.length_pos_iff.2 hb
    have hword : (b.take 8).length ≤ 8 := by rw [List.length_take]; omega
    rw [packNibbles_length, List.length_drop] at ih
    rw [packNibbles_length, packNibbles_of_ne_nil hb, wordsNibbles, List.flatMap_cons,
      wordNibbles_packValue hword, ← wordsNibbles, ih, padded, List.length_take]
    rcases Nat.lt_or_ge b.length 8 with h | h
    · have hone : 8 * ((b.length + 7) / 8) - b.length = 8 - b.length := by omega
      simp [List.take_of_length_le h.le, List.drop_of_length_le h.le, hone, h.le]
    · have hpad : 8 * ((b.length - 8 + 7) / 8) - (b.length - 8) = 8 * ((b.length + 7) / 8) - b.length := by
        omega
      rw [Nat.min_eq_left h, Nat.sub_self, List.replicate_zero, List.append_nil, ← List.append_assoc,
        List.take_append_drop, hpad]

/-- Words whose nibbles come first among those of other words are the first of these. -/
theorem eq_append_of_wordsNibbles {ws vs : List Word} {q : List Nibble}
    (h : wordsNibbles vs = wordsNibbles ws ++ q) : ∃ us, vs = ws ++ us ∧ wordsNibbles us = q := by
  induction ws generalizing vs with
  | nil => exact ⟨vs, rfl, h⟩
  | cons w ws ih =>
    cases vs with
    | nil =>
      have hlen := congrArg List.length h
      simp [wordsNibbles, wordNibbles_length] at hlen
      omega
    | cons v vs =>
      simp only [wordsNibbles, List.flatMap_cons, List.append_assoc] at h
      obtain ⟨hv, hvs⟩ := List.append_inj h (by rw [wordNibbles_length, wordNibbles_length])
      obtain ⟨us, rfl, hus⟩ := ih hvs
      exact ⟨us, by rw [wordNibbles_injective hv, List.cons_append], hus⟩

theorem eq_nil_of_wordsNibbles {ws : List Word} (h : wordsNibbles ws = []) : ws = [] := by
  cases ws with
  | nil => rfl
  | cons w ws => simp [wordsNibbles, wordNibbles] at h

end Sys2Proof.Machine

/-! ## The size of a compressed stream (R166 to R168) -/

namespace Sys2Proof.Machine

/-- Stage 3 over a list of symbols (R156). -/
def symbolsNibbles (ss : List Symbol) : List Nibble := ss.flatMap symbolNibbles

theorem nibblesOf_eq (x : List Sample) : nibblesOf x = symbolsNibbles (symbolsOfPairs 0 (pairsOf x)) := rfl

@[simp] theorem symbolsNibbles_nil : symbolsNibbles [] = [] := rfl

@[simp] theorem symbolsNibbles_cons (y : Symbol) (ss : List Symbol) :
    symbolsNibbles (y :: ss) = symbolNibbles y ++ symbolsNibbles ss := List.flatMap_cons

@[simp] theorem symbolsNibbles_append (ss us : List Symbol) :
    symbolsNibbles (ss ++ us) = symbolsNibbles ss ++ symbolsNibbles us := List.flatMap_append

/-! ### Bounds on the nibbles (R167, R168) -/

/-- Six nibbles at most for each difference (R147). -/
theorem deltaSymbols_nibbles_le (prev : Sample) (vs : List Sample) :
    (symbolsNibbles (deltaSymbols prev vs)).length ≤ 6 * vs.length := by
  induction vs generalizing prev with
  | nil => exact le_rfl
  | cons v vs ih =>
    have hone := codewordLength_sampleDelta_le v prev
    have hrest := ih v
    simp only [deltaSymbols, symbolsNibbles_cons, symbolNibbles, List.length_append, vleNibbles_length,
      List.length_cons]
    omega

/-- The nibbles of a sequence of pairs, with what its first pair takes at most. -/
theorem pairNibbles_le (prev : Sample) (z : Nat) (vs : List Sample) (ps : List (Nat × List Sample)) :
    (symbolsNibbles (symbolsOfPairs prev ((z, vs) :: ps))).length ≤
      codewordLength z + codewordLength vs.length + 6 * vs.length +
        (symbolsNibbles (symbolsOfPairs (vs.getLastD prev) ps)).length := by
  have hdeltas := deltaSymbols_nibbles_le prev vs
  simp only [symbolsOfPairs, symbolsNibbles_cons, symbolsNibbles_append, symbolNibbles,
    List.length_append, vleNibbles_length]
  omega

theorem codewordLength_zero : codewordLength 0 = 1 := rfl

theorem codewordLength_le_self {x : Nat} (hx : 1 ≤ x) : codewordLength x ≤ x :=
  (codewordLength_le_iff x hx).2 (Nat.lt_pow_self (by decide))

/-- A run length of 32 bits takes five nibbles, and six more only from 32768 on (R168). -/
theorem codewordLength_le_steps {n : Nat} (hn : n < 2 ^ 32) :
    codewordLength n ≤ 5 + 6 * (n / 32768) := by
  rcases Nat.lt_or_ge n 32768 with h | h
  · have := (codewordLength_le_iff n (k := 5) (by decide)).2 h
    omega
  · have := (codewordLength_le_iff n (k := 11) (by decide)).2 (hn.trans (by decide))
    omega

/-- R167's bound in nibbles, one less where the sequence starts with a zero. -/
theorem nibbles_le_seven (x : List Sample) (prev : Sample) :
    (symbolsNibbles (symbolsOfPairs prev (pairsOf x))).length ≤
      7 * x.length + if x.head? = some 0 then 1 else 2 := by
  induction x using pairs_induction generalizing prev with
  | nil => simp [pairsOf_nil, symbolsOfPairs]
  | step z vs rest h ih =>
    have hpair := pairNibbles_le prev z vs (pairsOf rest)
    have hz : codewordLength z ≤ z + if 1 ≤ z then 0 else 1 := by
      split
      · next hz => exact codewordLength_le_self hz
      · next hz => simp [show z = 0 by omega, codewordLength_zero]
    have hrest : codewordLength vs.length +
        (symbolsNibbles (symbolsOfPairs (vs.getLastD prev) (pairsOf rest))).length ≤
          vs.length + 7 * rest.length + 1 := by
      rcases eq_or_ne vs [] with rfl | hvs
      · simp [h.last rfl, pairsOf_nil, symbolsOfPairs, codewordLength_zero]
      · have hn := codewordLength_le_self (List.length_pos_iff.2 hvs)
        rcases h.rest_cases with rfl | hhead
        · exact hn.trans (Nat.le_succ _)
        · have := ih (vs.getLastD prev)
          rw [if_pos hhead] at this
          omega
    rw [h.pairsOf_eq]
    simp only [← h.zeros_pos_iff, List.length_append, List.length_replicate]
    split at hz <;> split <;> omega

/-- R168's bound in nibbles, six less where the sequence starts with a zero. -/
theorem nibbles_le_six (x : List Sample) (prev : Sample) (hx : x.length < 2 ^ 32) :
    (symbolsNibbles (symbolsOfPairs prev (pairsOf x))).length ≤
      6 * x.length + 6 * (x.length / 32768) + if x.head? = some 0 then 0 else 6 := by
  induction x using pairs_induction generalizing prev with
  | nil => simp [pairsOf_nil, symbolsOfPairs]
  | step z vs rest h ih =>
    have hpair := pairNibbles_le prev z vs (pairsOf rest)
    simp only [List.length_append, List.length_replicate] at hx
    have hn := codewordLength_le_steps (n := vs.length) (by omega)
    have hz : codewordLength z + 5 ≤ 6 * z + if 1 ≤ z then 0 else 6 := by
      split
      · next hz => have := codewordLength_le_self hz; omega
      · next hz => simp [show z = 0 by omega, codewordLength_zero]
    have hrest : (symbolsNibbles (symbolsOfPairs (vs.getLastD prev) (pairsOf rest))).length ≤
        6 * rest.length + 6 * (rest.length / 32768) := by
      rcases h.rest_cases with rfl | hhead
      · exact Nat.zero_le _
      · have := ih (vs.getLastD prev) (by omega)
        rwa [if_pos hhead] at this
    rw [h.pairsOf_eq]
    simp only [← h.zeros_pos_iff, List.length_append, List.length_replicate]
    split at hz <;> split <;> omega

theorem rvlCompress_length (x : List Sample) :
    (rvlCompress x).length = ((nibblesOf x).length + 7) / 8 := packNibbles_length _

/-- Settles O40: both bounds by induction over the pairs; the words are `ceil(T / 8)`. -/
theorem compressedSizeBounds : Obligations.CompressedSizeBounds := by
  intro x hx
  have hseven := nibbles_le_seven x 0
  have hsix := nibbles_le_six x 0 hx
  rw [← nibblesOf_eq] at hseven hsix
  refine ⟨?_, ?_, ?_, rvlCompress_length x, ?_⟩
  · split at hseven <;> omega
  · split at hsix <;> omega
  · rintro rfl
    rfl
  · rw [rvlCompress_length]
    split at hseven <;> omega

/-! ### A sequence of zeros (R166) -/

theorem pairsOf_zeros {n : Nat} (hn : 1 ≤ n) : pairsOf (List.replicate n 0) = [(n, [])] := by
  have h : IsPair n [] [] := ⟨nofun, nofun, fun _ => rfl, hn⟩
  simpa [pairsOf_nil] using h.pairsOf_eq

/-- ENCVLE's nibbles read back: the value, and what stands after them (R126). -/
theorem nextValue_vleNibbles (x : Nat) (rest : List Nibble) :
    nextValue (vleNibbles x ++ rest) = some (x, rest) := by
  have hsplit : splitCodeword (vleNibbles x ++ rest) = some (codewordOf x, rest) :=
    splitCodeword_codewordNibbles (codewordOf_ne_nil x) rest
  rw [nextValue, hsplit]
  simp only [codewordValue_codewordOf]

theorem nibblesOf_zeros {n : Nat} (hn : 1 ≤ n) :
    nibblesOf (List.replicate n 0) = vleNibbles n ++ vleNibbles 0 := by
  rw [nibblesOf_eq, pairsOf_zeros hn]
  rfl

/-- The two codewords of `n` zeros, with what stands after them, decode to `n` zeros (R181). -/
theorem decodePairs_zeros (m fuel : Nat) {n : Nat} (hn : 1 ≤ n) (rest : List Nibble) :
    decodePairs m n (fuel + 2) 0 [] (vleNibbles n ++ (vleNibbles 0 ++ rest)) =
      .ok (List.replicate n 0) (wordsUsed m rest.length) := by
  have hpos : ¬ n ≤ 0 := by omega
  simp [decodePairs, nextValue_vleNibbles, decodeDeltas, hpos]

/-- Settles O39: one pair, and its two codewords read back. -/
theorem allZeroInputIsShort : Obligations.AllZeroInputIsShort := by
  intro n hn hlt
  have hlen : (nibblesOf (List.replicate n 0)).length = codewordLength n + 1 := by
    rw [nibblesOf_zeros hn, List.length_append, vleNibbles_length, vleNibbles_length, codewordLength_zero]
  have hmax := (codewordLength_le_iff n (k := 11) (by decide)).2 (hlt.trans (by decide))
  have hseven : codewordLength n ≤ 7 ↔ n ≤ 2097151 :=
    (codewordLength_le_iff n (by decide)).trans Nat.lt_succ_iff
  have hwords := rvlCompress_length (List.replicate n 0)
  rw [hlen] at hwords
  refine ⟨by rw [symbolsOf, pairsOf_zeros hn]; rfl, nibblesOf_zeros hn, hlen, by omega, ?_, ?_⟩
  · have := codewordLength_pos n
    split <;> omega
  · have hstream := wordsNibbles_packNibbles (nibblesOf (List.replicate n 0))
    rw [← rvlCompress, hlen] at hstream
    generalize (rvlCompress (List.replicate n 0)) = ws at *
    have hfuel : 8 * ws.length + 1 = 8 * ws.length - 1 + 2 := by omega
    rw [rvlDecompress, hstream, nibblesOf_zeros hn, List.append_assoc, hfuel, decodePairs_zeros _ _ hn,
      List.length_replicate, wordsUsed]
    congr 1
    omega

end Sys2Proof.Machine

/-! ## Single steps of the units (R158 to R163, R165, R172, R190, R195) -/

namespace Sys2Proof.Machine

/-! ### The run ENC measures (R160, R161) -/

/-- A measured run that ends before the samples do is followed by a sample of the other kind. -/
theorem runLength_stops {mem : Nat → Sample} {zero : Bool} {pos n : Nat}
    (h : runLength mem zero pos n < n) : decide (mem (pos + runLength mem zero pos n) = 0) ≠ zero := by
  induction n generalizing pos with
  | zero => exact absurd h (Nat.not_lt_zero _)
  | succ n ih =>
    by_cases h0 : decide (mem pos = 0) = zero
    · rw [runLength, if_pos h0] at h ⊢
      have hnext := ih (Nat.lt_of_succ_lt_succ h)
      rwa [Nat.add_assoc, Nat.add_comm 1] at hnext
    · rwa [runLength, if_neg h0]

/-- Settles O34: every sample of the run is of its kind, the next one is not. -/
theorem runIsLongest : Obligations.RunIsLongest := by
  intro mem zero pos n
  have hkind (v : Sample) : decide (v = 0) = zero ↔ (v = 0 ↔ zero = true) := by
    cases zero <;> simp
  exact ⟨runLength_le mem zero pos n, fun j hj => (hkind _).1 (runLength_mem mem zero pos n hj),
    fun h => mt (hkind _).2 (runLength_stops h)⟩

/-! ### The phases of ENC (R158) -/

/-- A phase step that begins with an ENCVLE: what comes after it, with only the packing registers and
ENC_OUT changed so far, or OUT_FULL. -/
theorem encVle_step_cases {n : Nat} {s t : State} {f : State → Ended}
    (h : settle .enc (andThen (encVle n s) f) = t) :
    (∃ p out, t = settle .enc (f { s with enc := s.enc.withPacker p, encOut := out })) ∨
    ∃ r, t = State.takeFault r .enc .outFull := by
  obtain ⟨e, out, hv | hv, he⟩ := encVle_cases n s <;> rw [hv] at h
  · have he' : e = s.enc.withPacker e := he
    exact .inl ⟨e, out, by rw [← he', ← h, andThen_ok]⟩
  · exact .inr ⟨_, h.symm⟩

/-- The run ENC measures fits in its register. -/
theorem encRun_ofNat_eq_zero_iff (s : State) (zero : Bool) :
    BitVec.ofNat Config.countW (s.encRun zero) = 0 ↔ s.encRun zero = 0 := by
  have hle := encRun_le s zero
  have hlt := count_lt s.enc.numPixels
  rw [← BitVec.toNat_inj, count_toNat_ofNat, count_toNat_zero]
  omega

/-- Settles O35: each phase's step is an update after an ENCVLE or a FLUSH that may raise OUT_FULL. -/
theorem encPhasesFollowTable : Obligations.EncPhasesFollowTable := by
  intro s hb
  generalize ht : encStep s = t
  rw [encStep_busy hb] at ht
  cases hp : s.enc.phase with
  | idle => rw [encPhaseStep_idle hp] at ht; exact ht.symm
  | pair => rw [encPhaseStep_pair hp] at ht; subst ht; rfl
  | zrun =>
    rw [encPhaseStep_zrun hp] at ht
    rcases encVle_step_cases ht with ⟨p, out, rfl⟩ | ⟨r, rfl⟩
    · exact .inl rfl
    · exact .inr ⟨rfl, rfl⟩
  | nrun =>
    rw [encPhaseStep_nrun hp] at ht
    rcases encVle_step_cases ht with ⟨p, out, rfl⟩ | ⟨r, rfl⟩
    · exact .inl (if_congr (encRun_ofNat_eq_zero_iff s false).symm rfl rfl)
    · exact .inr ⟨rfl, rfl⟩
  | delta =>
    rw [encPhaseStep_delta hp, encDelta_eq] at ht
    rcases encVle_step_cases ht with ⟨p, out, rfl⟩ | ⟨r, rfl⟩
    · exact .inl rfl
    · exact .inr ⟨rfl, rfl⟩
  | flush =>
    rw [encPhaseStep_flush hp, encEnd] at ht
    subst ht
    rcases encFlush_cases s with ⟨_, h⟩ | ⟨_, _, h⟩ | ⟨_, _, h⟩ <;> rw [h]
    · exact .inl ⟨rfl, rfl⟩
    · exact .inl ⟨rfl, rfl⟩
    · exact .inr ⟨rfl, rfl⟩

/-! ### A codeword turn before a DEC step (R172, R195, D20) -/

/-- With its codeword at the cursor, a DEC turn is the symbol step of its phase on it. -/
theorem runTurn_dec_symbol {s : State} {r : Role} {cw : Codeword} {rest : List Nibble}
    (hb : s.dec.status.busy = true) (hp : phaseRole s.dec.phase = some r) (hh : s.dec.held = none)
    (hs : splitCodeword s.stream = some (cw, rest)) : runTurn .dec s = .next (symbolStep r cw s) := by
  have hdecode : decodeNibbles (.symbol r) s.stream = .ok (symbolInstr r cw, rest) := by
    simp only [decodeNibbles, hs]
  rw [runTurn, fetchDec_fresh hb hp hh, fetchAt_of_decode hdecode, runFetched, exec_symbolInstr]
  rfl

theorem runTurn_dec_cutShort {s : State} {r : Role} (hb : s.dec.status.busy = true)
    (hp : phaseRole s.dec.phase = some r) (hh : s.dec.held = none)
    (hs : splitCodeword s.stream = none) : runTurn .dec s = .next (runCutShort s) := by
  rcases fetchAt_symbol_cases r s with ⟨cw, rest, hsome, _⟩ | ⟨_, hf⟩
  · cases hs.symm.trans hsome
  · rw [runTurn, fetchDec_fresh hb hp hh, hf, runFetched]

/-- The symbol step with its codeword held is the symbol step that has still to read it. -/
theorem runTurn_dec_readCodeword {s : State} {r : Role} {cw : Codeword} (hb : s.dec.status.busy = true)
    (hp : phaseRole s.dec.phase = some r) (hh : s.dec.held = none) :
    runTurn .dec (readCodeword cw s) = .next (symbolStep r cw s) := by
  rw [symbolStep, symbolOperand_fresh hh]
  rcases decVle_cases cw s with ⟨_, d, hv, _, hd⟩ | ⟨_, d, hv, _⟩
  · have hread : readCodeword cw s = { s with dec := { d with held := some cw } } := by
      rw [readCodeword, hv, andThen_ok, settle_ok]
    have hfetch : fetchDec { s with dec := { d with held := some cw } } = .instr (symbolInstr r cw) :=
      fetchDec_held (by rw [hd]; exact hb) (by rw [hd]; exact hp) rfl
    have hheld : d.held = none := by rw [hd]; exact hh
    have hunheld : { d with held := none } = d := by rw [← hheld]
    rw [hread, runTurn, hfetch, runFetched, exec_symbolInstr, symbolOperand_held rfl, hunheld, hv]
  · have hread : readCodeword cw s = State.takeFault { s with dec := d } .dec .exhausted := by
      rw [readCodeword, hv, andThen_raised, settle_raised]
    rw [hread, runTurn_dec_notBusy rfl, hv, andThen_raised, settle_raised]

/-- After a codeword turn DEC's turn ends as it does from before it. -/
theorem runTurn_dec_after_codeword (s : State) :
    ∃ x, runTurn .decCodeword s = .next x ∧ runTurn .dec x = runTurn .dec s := by
  rcases fetchDecCodeword_cases s with hf | ⟨hb, hp, hh, hf⟩
  · exact ⟨s, by rw [runTurn, hf]; rfl, rfl⟩
  · obtain ⟨r, hr⟩ := Option.ne_none_iff_exists'.1 hp
    rcases runFetched_codeword_cases s with ⟨cw, rest, hs, hrun⟩ | ⟨hs, hrun⟩
    · exact ⟨readCodeword cw s, by rw [runTurn, hf, hrun],
        by rw [runTurn_dec_readCodeword hb hr hh, runTurn_dec_symbol hb hr hh hs]⟩
    · obtain ⟨d, hcut, _⟩ := runCutShort_eq s
      refine ⟨runCutShort s, by rw [runTurn, hf, hrun], ?_⟩
      rw [runTurn_dec_cutShort hb hr hh hs, hcut]
      exact runTurn_dec_notBusy rfl

theorem reaches_one_iff {s y : State} {u : Turn} (hu : runTurn u (s.withTurns []) = .next y) (t : State) :
    Reaches 1 (s.withTurns [u]) t ↔ y = t := by
  have hstep : Sys2Proof.core.step (s.withTurns [u]) = .next y := hu
  simp only [Reaches, Host.Core.run, hstep]
  exact ⟨Host.Outcome.next.inj, congrArg Host.Outcome.next⟩

/-- Settles O52: neither turn looks at the turns to come. -/
theorem codewordTurnIsRefinement : Obligations.CodewordTurnIsRefinement := by
  intro s t
  obtain ⟨r, hr⟩ := decTurn_alike (.inr rfl) s
  obtain ⟨y, hy⟩ : ∃ y, runTurn .dec (s.withTurns []) = .next y := runFetched_next _ _
  obtain ⟨x, hx, hxy⟩ := runTurn_dec_after_codeword (s.withTurns [])
  obtain rfl : (s.withTurns []).setResult .dec r = x :=
    Host.Outcome.next.inj ((hr (s.withTurns []) (.of_readDecIn rfl rfl rfl)).symm.trans hx)
  rw [reaches_two_iff (x := s.setResult .dec r) (hr _ (.of_readDecIn rfl rfl rfl)) (hxy.trans hy),
    reaches_one_iff hy]

/-! ### Operations on no samples (R165, R190) -/

theorem reaches_cons {s s' t : State} {k : Nat} (hstep : step s = .next s') (h : Reaches k s' t) :
    Reaches (k + 1) s t := by
  have hcore : Sys2Proof.core.step s = .next s' := hstep
  simp only [Reaches, Host.Core.run, hcore]
  exact h

theorem step_encStart {s : State} (hb : s.enc.status.busy = false) (ts : List Turn) :
    step (s.withTurns (.host (.regWrite 0 1) :: ts)) =
      .next (State.withTurns { s with enc := s.enc.start } ts) :=
  if_neg (by simp [hb])

theorem step_decStart {s : State} (hb : s.dec.status.busy = false) (ts : List Turn) :
    step (s.withTurns (.host (.regWrite 8 1) :: ts)) =
      .next (State.withTurns { s with dec := s.dec.start } ts) :=
  if_neg (by simp [hb])

/-- A step of ENC does not look at the turns to come. -/
theorem step_enc (s : State) (ts : List Turn) :
    step (s.withTurns (.enc :: ts)) = .next ((encStep s).withTurns ts) := by
  have halike : EncAlike s (s.withTurns ts) := .of_readEncIn rfl rfl rfl
  rw [step_withTurns_cons, runTurn, encStep_alike halike, (encStep_actsOn s).frame]
  rfl

/-- Settles O47: START, the completion test and, in ENC, a FLUSH of no nibble. -/
theorem emptyOperationsSucceed : Obligations.EmptyOperationsSucceed := by
  refine ⟨fun s hb hn => ?enc, fun s hb hn => ?dec⟩
  case enc =>
    have hstart : s.enc.start =
        { phase := .pair, pos := 0, prev := 0, word := 0, nib := 0, wr := 0, run := 0,
          status := Status.started, numPixels := 0, outCap := s.enc.outCap } := by
      rw [EncUnit.start, hn]
    have hcommand := step_encStart hb [.enc, .enc]
    rw [hstart] at hcommand
    exact reaches_cons hcommand (reaches_cons (step_enc _ _) (reaches_cons (step_enc _ _) rfl))
  case dec =>
    have hstart : s.dec.start =
        { phase := .pair, cnt := 0, prev := 0, word := 0, nib := 0, rd := 0, run := 0,
          acc := s.dec.acc, ovf := s.dec.ovf, sh := s.dec.sh, status := Status.started,
          numPixels := 0, inWords := s.dec.inWords, held := none } := by
      rw [DecUnit.start, hn]
    have hcommand := step_decStart hb [.dec]
    rw [hstart] at hcommand
    exact reaches_cons hcommand (reaches_cons rfl rfl)

end Sys2Proof.Machine

/-! ## ENC's packer against the function's packing (R120 to R122, R156 stage 4, R163)

`Sending` says which nibbles of a stream ENC has put and which are still to come; PUTNIB and FLUSH carry it
on, or end in OUT_FULL with the first words of the stream written. -/

namespace Sys2Proof.Machine

/-- Of the stream `b` all but the nibbles `later` are put, on ENC_OUT as it was in `out0`. -/
def Sending (b later : List Nibble) (out0 : Buf 32) (e : EncUnit) (out : Buf 32) : Prop :=
  ∃ ws c, Packed .lowFirst out0 ws c e out ∧ ws.length ≤ e.outCap.toNat ∧
    packedNibbles .lowFirst ws c ++ later = b

/-- The words of the stream `b` are written and the word register is empty. -/
structure Sent (b : List Nibble) (out0 : Buf 32) (e : EncUnit) (out : Buf 32) : Prop where
  wr : e.wr.toNat = (packNibbles b).length
  room : (packNibbles b).length ≤ e.outCap.toNat
  word : e.word = 0
  nib : e.nib = 0
  written : ∀ k, bufRead out k = ((packNibbles b)[k]?).or (bufRead out0 k)

/-- The capacity is used up by the first words of the stream `b`, which has more (R121, R226). -/
structure Overfull (b : List Nibble) (out0 : Buf 32) (e : EncUnit) (out : Buf 32) : Prop where
  wr : e.wr = e.outCap
  room : e.outCap.toNat < (packNibbles b).length
  written : ∀ k, bufRead out k = (((packNibbles b).take e.outCap.toNat)[k]?).or (bufRead out0 k)

section
variable {b later : List Nibble} {out0 out : Buf 32} {e : EncUnit}

/-- The packer's part of a unit is four registers. -/
theorem Sending.congr {e' : EncUnit} (h : Sending b later out0 e out) (hword : e'.word = e.word)
    (hnib : e'.nib = e.nib) (hwr : e'.wr = e.wr) (hcap : e'.outCap = e.outCap) :
    Sending b later out0 e' out := by
  obtain ⟨ws, c, ⟨hws, hc, hreg, hout⟩, hroom, hb⟩ := h
  exact ⟨ws, c, ⟨hwr ▸ hws, hnib ▸ hc, hword ▸ hreg, hout⟩, hcap ▸ hroom, hb⟩

theorem sending_start (b : List Nibble) (out : Buf 32) (e : EncUnit) :
    Sending b b out e.start out :=
  ⟨[], [], packed_empty rfl rfl rfl, Nat.zero_le _, rfl⟩

/-- Where the capacity is used up and nibbles are left over, the words written are the first ones. -/
theorem Packed.overfull {ws : List Word} {c tail : List Nibble} (h : Packed .lowFirst out0 ws c e out)
    (hwr : e.wr = e.outCap) (hb : packedNibbles .lowFirst ws tail = b) (htail : tail ≠ []) :
    Overfull b out0 e out := by
  have hlen : ws.length = e.outCap.toNat := by rw [← hwr, h.wr]
  obtain ⟨us, hus, htail'⟩ := eq_append_of_wordsNibbles (ws := ws) (vs := packNibbles b)
    (by rw [wordsNibbles_packNibbles, ← hb, packedNibbles, wordsNibbles, List.append_assoc])
  have hne : us ≠ [] := by
    rintro rfl
    exact htail (List.append_eq_nil_iff.1 htail'.symm).1
  refine ⟨hwr, ?_, fun k => ?_⟩
  · have := List.length_pos_iff.2 hne
    rw [hus, List.length_append]
    omega
  · rw [hus, ← hlen, List.take_left]
    exact h.written k

theorem Sending.putNib {nb : Nibble} (h : Sending b (nb :: later) out0 e out) :
    (∃ e' out', Machine.putNib .lowFirst nb e out = .ok e' out' ∧ Sending b later out0 e' out') ∨
    ∃ e' out', Machine.putNib .lowFirst nb e out = .full e' out' ∧ Overfull b out0 e' out' := by
  obtain ⟨ws, c, hpacked, hroom, hb⟩ := h
  have hc : c.length < 8 := hpacked.nib ▸ e.nib.isLt
  rcases putNib_cases .lowFirst nb e out with ⟨h7, hp⟩ | ⟨_, hwr, hp⟩ | ⟨_, hwr, _⟩
  · have hword := wordNibbles_appendNibble hc hpacked.register nb
    have hnib : (e.nib + 1).toNat = (c ++ [nb]).length := by
      rw [List.length_append, List.length_singleton, ← hpacked.nib]
      bv_omega
    rw [← hpacked.nib] at hword
    exact .inl ⟨_, _, hp, ws, c ++ [nb], ⟨hpacked.wr, hnib, hword, hpacked.written⟩, hroom,
      by rw [← hb]; simp [packedNibbles]⟩
  · refine .inr ⟨_, _, hp, ?_⟩
    have hfull := hpacked.overfull hwr (b := b) (tail := c ++ nb :: later)
      (by rw [← hb]; simp [packedNibbles]) (by simp)
    exact ⟨hfull.wr, hfull.room, hfull.written⟩
  · have hlt : ws.length ≠ e.outCap.toNat := fun heq =>
      hwr (BitVec.eq_of_toNat_eq (hpacked.wr.trans heq))
    obtain ⟨e', out', ws', c', hp, hpacked', hsnoc, hcap⟩ := hpacked.putNib nb (by omega)
    refine .inl ⟨e', out', hp, ws', c', hpacked', ?_, by rw [hsnoc, ← hb]; simp⟩
    have hlen := congrArg List.length hsnoc
    rw [List.length_append, packedNibbles_length, packedNibbles_length, List.length_singleton] at hlen
    rw [hcap]
    omega

theorem Sending.putNibs {q : List Nibble} (h : Sending b (q ++ later) out0 e out) :
    (∃ e' out', Machine.putNibs .lowFirst q e out = .ok e' out' ∧ Sending b later out0 e' out') ∨
    ∃ e' out', Machine.putNibs .lowFirst q e out = .full e' out' ∧ Overfull b out0 e' out' := by
  induction q generalizing e out with
  | nil => exact .inl ⟨e, out, rfl, h⟩
  | cons nb q ih =>
    rcases h.putNib with ⟨e', out', hp, hsending⟩ | ⟨e', out', hp, hfull⟩
    · simp only [Machine.putNibs, hp]
      exact ih hsending
    · exact .inr ⟨e', out', by simp only [Machine.putNibs, hp], hfull⟩

theorem Packed.word_eq_zero {ws : List Word} (h : Packed .lowFirst out0 ws [] e out) : e.word = 0 :=
  wordNibbles_injective (h.register.trans (wordNibbles_empty .lowFirst).symm)

theorem flushNibs_frame (fill : NibbleFill) (e : EncUnit) (out : Buf 32) :
    (flushNibs fill e out).unit = e.withPacker (flushNibs fill e out).unit := by
  unfold flushNibs
  split
  · rfl
  · rcases writeWord_cases (flushWord fill e.word e.nib.toNat) e out with ⟨_, h⟩ | ⟨_, h⟩ <;>
      rw [h] <;> rfl

/-- FLUSH after the last nibble (R122, R163). -/
theorem Sending.flushNibs (h : Sending b [] out0 e out) :
    (∃ e' out', Machine.flushNibs .lowFirst e out = .ok e' out' ∧ Sent b out0 e' out') ∨
    ∃ e' out', Machine.flushNibs .lowFirst e out = .full e' out' ∧ Overfull b out0 e' out' := by
  obtain ⟨ws, c, hpacked, hroom, hb⟩ := h
  rw [List.append_nil] at hb
  have hc : c.length < 8 := hpacked.nib ▸ e.nib.isLt
  by_cases hfull : e.nib ≠ 0 ∧ e.wr = e.outCap
  · obtain ⟨hnib, hwr⟩ := hfull
    have hne : c ≠ [] := by
      rintro rfl
      exact hnib (BitVec.eq_of_toNat_eq hpacked.nib)
    exact .inr ⟨e, out, (if_neg hnib).trans (if_pos hwr), hpacked.overfull hwr hb hne⟩
  · have hfits : 8 * ws.length + c.length ≤ 8 * e.outCap.toNat := by
      rcases not_and_or.1 hfull with hnib | hwr
      · have hempty : c.length = 0 := by rw [← hpacked.nib, not_not.1 hnib]; rfl
        omega
      · have hlt : ws.length ≠ e.outCap.toNat := fun heq =>
          hwr (BitVec.eq_of_toNat_eq (hpacked.wr.trans heq))
        omega
    obtain ⟨e', out', ws', hf, hpacked', hlen, hpad⟩ := hpacked.flushNibs hfits
    have hwords : packNibbles b = ws' := by
      have hW := packNibbles_length b
      have hT : b.length = 8 * ws.length + c.length := by rw [← hb, packedNibbles_length]
      rw [hT, ← hlen] at hW
      obtain ⟨us, hus, hnil⟩ := eq_append_of_wordsNibbles (ws := ws') (vs := packNibbles b) (q := [])
        (by rw [wordsNibbles_packNibbles, hW, hT, ← hb, ← hpad]; rfl)
      rw [hus, eq_nil_of_wordsNibbles hnil, List.append_nil]
    have hle := (flushNibs_inExtent (out := out) .lowFirst (hpacked.wr.trans_le hroom)).wr_le
    rw [hf] at hle
    refine .inl ⟨e', out', hf, ?_, ?_, hpacked'.word_eq_zero, BitVec.eq_of_toNat_eq hpacked'.nib, ?_⟩
    · rw [hwords, hpacked'.wr]
    · rw [hwords, ← hpacked'.wr]
      exact hle
    · rw [hwords]
      exact hpacked'.written

end

end Sys2Proof.Machine

/-! ## ENC computes RvlCompress (R158 to R164, R171, R172)

Between two steps of an operation `EncWorking` says what is still to come: the samples from `enc.pos` on, the
symbols of the function that ENC has still to send, how many steps that takes at most, and that the packer
has sent the nibbles before them. Each phase is taken once; a run of both units' turns is ENC's steps
alone, for ENC. -/

namespace Sys2Proof.Machine

/-! ### The samples still to come -/

/-- The samples from index `pos` up to the end of the input. -/
def samplesFrom (mem : Nat → Sample) (pos n : Nat) : List Sample := (List.range' pos (n - pos)).map mem

theorem samplesFrom_length (mem : Nat → Sample) (pos n : Nat) :
    (samplesFrom mem pos n).length = n - pos := by
  simp [samplesFrom]

theorem samplesFrom_drop (mem : Nat → Sample) (pos n k : Nat) :
    (samplesFrom mem pos n).drop k = samplesFrom mem (pos + k) n := by
  rw [samplesFrom, ← List.map_drop, List.drop_range', Nat.mul_one, Nat.sub_sub, samplesFrom]

theorem samplesFrom_of_append {mem : Nat → Sample} {pos n : Nat} {a rest : List Sample}
    (h : samplesFrom mem pos n = a ++ rest) : samplesFrom mem (pos + a.length) n = rest := by
  rw [← samplesFrom_drop, h, List.drop_left]

/-- ENC's cursor moved past `m` samples (R160, R162). -/
theorem samplesFrom_advance {mem : Nat → Sample} {pos n : Count} {a rest : List Sample} {m : Nat}
    (h : samplesFrom mem pos.toNat n.toNat = a ++ rest) (hpos : pos.toNat ≤ n.toNat) (ha : a.length = m) :
    (pos + BitVec.ofNat Config.countW m).toNat = pos.toNat + m ∧ pos.toNat + m ≤ n.toNat ∧
      samplesFrom mem (pos.toNat + m) n.toNat = rest := by
  have hlen := congrArg List.length h
  rw [samplesFrom_length, List.length_append, ha] at hlen
  have hle : pos.toNat + m ≤ n.toNat := by omega
  exact ⟨count_add_ofNat hle, hle, ha ▸ samplesFrom_of_append h⟩

theorem samplesFrom_head {mem : Nat → Sample} {pos n : Nat} {v : Sample} {rest : List Sample}
    (h : samplesFrom mem pos n = v :: rest) : mem pos = v := by
  rw [samplesFrom] at h
  cases hk : n - pos with
  | zero => simp [hk] at h
  | succ k =>
    rw [hk, List.range'_succ, List.map_cons] at h
    exact (List.cons.inj h).1

/-- The run ENC measures, where the samples to come start with a run of that kind and go on otherwise. -/
theorem runLength_eq {mem : Nat → Sample} {zero : Bool} {pos n : Nat} {a rest : List Sample}
    (h : samplesFrom mem pos n = a ++ rest) (ha : ∀ v ∈ a, decide (v = 0) = zero)
    (hrest : ∀ v, rest.head? = some v → decide (v = 0) ≠ zero) :
    runLength mem zero pos (n - pos) = a.length := by
  induction a generalizing pos with
  | nil =>
    cases hk : n - pos with
    | zero => rfl
    | succ k =>
      rw [samplesFrom, hk, List.range'_succ, List.map_cons, List.nil_append] at h
      rw [runLength, if_neg (hrest _ (by rw [← h]; rfl)), List.length_nil]
  | cons v a ih =>
    have hhead := samplesFrom_head h
    have htail : samplesFrom mem (pos + 1) n = a ++ rest := samplesFrom_of_append (a := [v]) h
    have hlen := congrArg List.length h
    rw [samplesFrom_length, List.cons_append, List.length_cons] at hlen
    obtain ⟨k, hk⟩ : ∃ k, n - pos = k + 1 := ⟨_, hlen⟩
    have hk' : n - (pos + 1) = k := by omega
    rw [hk, runLength, hhead, if_pos (ha v (by simp)), ← hk',
      ih htail fun u hu => ha u (List.mem_cons_of_mem v hu), List.length_cons]

/-! ### What an operation has still to do -/

/-- The symbols of a run of non-zero samples and of what follows it, after the run's length is sent. -/
def symbolsAfterRun (prev : Sample) (vs rest : List Sample) : List Symbol :=
  deltaSymbols prev vs ++ symbolsOfPairs (vs.getLastD prev) (pairsOf rest)

theorem symbolsAfterRun_nil (prev : Sample) (rest : List Sample) :
    symbolsAfterRun prev [] rest = symbolsOfPairs prev (pairsOf rest) := rfl

theorem symbolsAfterRun_cons (prev v : Sample) (vs rest : List Sample) :
    symbolsAfterRun prev (v :: vs) rest = .d (sampleDelta v prev) :: symbolsAfterRun v vs rest := by
  rw [symbolsAfterRun, deltaSymbols, List.cons_append, List.getLastD_cons, symbolsAfterRun]

/-- How many steps ENC takes at most over whole pairs, with the completion test and FLUSH after them. -/
def stepsOverPairs (rest : List Sample) : Nat := 3 * (pairsOf rest).length + rest.length + 2

/-- In the phase given, with the samples `rest` to come, the symbols `ss` are to be sent, in at most `k`
steps (R158 to R163). -/
def EncTodo (e : EncUnit) (rest : List Sample) (ss : List Symbol) (k : Nat) : EncPhase → Prop
  | .idle => False
  | .pair => e.run = 0 ∧ ss = symbolsOfPairs e.prev (pairsOf rest) ∧ stepsOverPairs rest ≤ k
  | .zrun => rest ≠ [] ∧ ss = symbolsOfPairs e.prev (pairsOf rest) ∧ stepsOverPairs rest ≤ k + 1
  | .nrun => ∃ vs after, rest = vs ++ after ∧ (∀ v ∈ vs, v ≠ 0) ∧
      (∀ v, after.head? = some v → v = 0) ∧ ss = .n vs.length :: symbolsAfterRun e.prev vs after ∧
      vs.length + 1 + stepsOverPairs after ≤ k
  | .delta => ∃ v vs after, rest = v :: vs ++ after ∧ (∀ u ∈ v :: vs, u ≠ 0) ∧
      e.run.toNat = vs.length + 1 ∧ ss = symbolsAfterRun e.prev (v :: vs) after ∧
      vs.length + 1 + stepsOverPairs after ≤ k
  | .flush => e.run = 0 ∧ rest = [] ∧ ss = [] ∧ 1 ≤ k

theorem EncTodo.pos {e : EncUnit} {rest : List Sample} {ss : List Symbol} {k : Nat} {p : EncPhase}
    (h : EncTodo e rest ss k p) : 1 ≤ k := by
  cases p with
  | idle => exact h.elim
  | pair => obtain ⟨_, _, hk⟩ := h; unfold stepsOverPairs at hk; omega
  | zrun => obtain ⟨_, _, hk⟩ := h; unfold stepsOverPairs at hk; omega
  | nrun => obtain ⟨_, _, _, _, _, _, hk⟩ := h; omega
  | delta => obtain ⟨_, _, _, _, _, _, _, hk⟩ := h; omega
  | flush => exact h.2.2.2

/-- `t` is a state of the operation that START begins on ENC as it is in `s`, with at most `k` steps to
come. -/
structure EncWorking (s t : State) (k : Nat) : Prop where
  input : t.readEncIn = s.readEncIn
  numPixels : t.enc.numPixels = s.enc.numPixels
  outCap : t.enc.outCap = s.enc.outCap
  status : t.enc.status = Status.started
  pos_le : t.enc.pos.toNat ≤ s.enc.numPixels.toNat
  predictor : t.enc.prev = lastNonZero (s.encSamples t.enc.pos.toNat)
  progress : ∃ ss,
    EncTodo t.enc (samplesFrom s.readEncIn t.enc.pos.toNat s.enc.numPixels.toNat) ss k t.enc.phase ∧
    Sending (nibblesOf (s.encSamples s.enc.numPixels.toNat)) (symbolsNibbles ss) s.encOut t.enc t.encOut

/-- How the operation that START begins on ENC as it is in `s` ends (R164). -/
def EncComputed (s t : State) : Prop :=
  let x := s.encSamples s.enc.numPixels.toNat
  let ws := rvlCompress x
  let room := s.enc.outCap.toNat
  (∀ k, bufRead t.encOut k = if k < min room ws.length then ws[k]? else bufRead s.encOut k) ∧
  (ws.length ≤ room → t.enc =
    { phase := .idle, pos := s.enc.numPixels, prev := lastNonZero x, word := 0, nib := 0,
      wr := BitVec.ofNat Config.countW ws.length, run := 0,
      status := { busy := false, done := true, err := false, code := 0 },
      numPixels := s.enc.numPixels, outCap := s.enc.outCap }) ∧
  (room < ws.length → t.enc.phase = .idle ∧ t.enc.wr = s.enc.outCap ∧
    t.enc.status = { busy := false, done := true, err := true, code := 4 })

theorem EncComputed.notBusy {s t : State} (h : EncComputed s t) : t.enc.status.busy = false := by
  obtain ⟨_, hsent, hfull⟩ := h
  rcases Nat.lt_or_ge s.enc.outCap.toNat
    (rvlCompress (s.encSamples s.enc.numPixels.toNat)).length with hlt | hge
  · rw [(hfull hlt).2.2]
  · rw [hsent hge]

/-! ### START, and the two ends -/

/-- `ws` written as far as there is room, on what was there. -/
theorem getElem?_take_or (ws : List Word) (room k : Nat) (old : Option Word) :
    ((ws.take room)[k]?).or old = if k < min room ws.length then ws[k]? else old := by
  rw [← List.length_take]
  split
  · next hk => rw [List.getElem?_eq_getElem hk, Option.some_or, ← List.getElem?_eq_getElem hk,
      List.getElem?_take_of_lt (by rw [List.length_take] at hk; omega)]
  · next hk => rw [List.getElem?_eq_none (not_lt.1 hk), Option.none_or]

theorem encWorking_start (s : State) :
    EncWorking s { s with enc := s.enc.start } (encStepBound s.enc.numPixels.toNat) := by
  have hall : samplesFrom s.readEncIn 0 s.enc.numPixels.toNat =
      s.encSamples s.enc.numPixels.toNat := by
    rw [samplesFrom, Nat.sub_zero, ← List.range_eq_range', State.encSamples]
  refine ⟨rfl, rfl, rfl, rfl, Nat.zero_le _, rfl, _, ⟨rfl, rfl, ?_⟩, ?_⟩
  · have hpairs := pairsOf_length_le (samplesFrom s.readEncIn 0 s.enc.numPixels.toNat)
    rw [samplesFrom_length] at hpairs
    rw [stepsOverPairs, encStepBound, samplesFrom_length]
    simp only [enc_start_pos, count_toNat_zero]
    split at hpairs <;> omega
  · simp only [enc_start_pos, count_toNat_zero, hall, enc_start_prev, ← nibblesOf_eq]
    exact sending_start _ _ _

section
variable {s t : State} {e : EncUnit} {out : Buf 32}

theorem encComputed_outFull (hcap : e.outCap = s.enc.outCap)
    (h : Overfull (nibblesOf (s.encSamples s.enc.numPixels.toNat)) s.encOut e out) :
    EncComputed s (State.takeFault { t with enc := e, encOut := out } .enc .outFull) := by
  obtain ⟨hwr, hroom, hwritten⟩ := h
  rw [hcap] at hroom hwr hwritten
  exact ⟨fun k => (hwritten k).trans (getElem?_take_or _ _ _ _), fun h => absurd hroom (not_lt.2 h),
    fun _ => ⟨rfl, hwr, rfl⟩⟩

/-- FLUSH is done: the registers are those of a successful end (R163). -/
theorem encComputed_sent (hframe : e = t.enc.withPacker e) (hN : t.enc.numPixels = s.enc.numPixels)
    (hcap : t.enc.outCap = s.enc.outCap) (hst : t.enc.status = Status.started)
    (hpos : t.enc.pos = s.enc.numPixels) (hrun : t.enc.run = 0)
    (hprev : t.enc.prev = lastNonZero (s.encSamples s.enc.numPixels.toNat))
    (h : Sent (nibblesOf (s.encSamples s.enc.numPixels.toNat)) s.encOut e out) :
    EncComputed s { t with
      enc := { e with phase := .idle, status := e.status.finished }, encOut := out } := by
  obtain ⟨hwr, hroom, hword, hnib, hwritten⟩ := h
  have hroom' : (rvlCompress (s.encSamples s.enc.numPixels.toNat)).length ≤ s.enc.outCap.toNat := by
    rw [← hcap]
    rw [hframe] at hroom
    exact hroom
  refine ⟨fun k => ?_, fun _ => ?_, fun h => absurd hroom' (not_le.2 h)⟩
  · rw [← getElem?_take_or, List.take_of_length_le hroom']
    exact hwritten k
  · have hwr' : e.wr =
        BitVec.ofNat Config.countW (rvlCompress (s.encSamples s.enc.numPixels.toNat)).length := by
      rw [rvlCompress, ← hwr, BitVec.ofNat_toNat, BitVec.setWidth_eq]
    rw [hframe]
    simp only [EncUnit.withPacker, hN, hcap, hst, hpos, hrun, hprev, hword, hnib, hwr']
    rfl

/-! ### The phases -/

/-- ENCVLE of the next value, then `f`: the packer has sent it when `f` starts, or ENC_OUT is full. -/
theorem encVle_sending {n : Nat} {b later : List Nibble} {out0 : Buf 32}
    (h : Sending b (vleNibbles n ++ later) out0 t.enc t.encOut) (f : State → Ended) :
    (∃ p out, andThen (encVle n t) f = f { t with enc := t.enc.withPacker p, encOut := out } ∧
      Sending b later out0 (t.enc.withPacker p) out) ∨
    ∃ p out, andThen (encVle n t) f =
        .raised .outFull { t with enc := t.enc.withPacker p, encOut := out } ∧
      Overfull b out0 (t.enc.withPacker p) out := by
  have hframe := putNibs_frame .lowFirst (vleNibbles n) t.enc t.encOut
  have hvle : encVle n t = t.put (putNibs .lowFirst (vleNibbles n) t.enc t.encOut) := rfl
  rw [hvle]
  rcases h.putNibs with ⟨e, out, hp, hsent⟩ | ⟨e, out, hp, hfull⟩ <;> rw [hp] at hframe ⊢ <;>
    have he : t.enc.withPacker e = e := hframe.symm
  · exact .inl ⟨e, out, by rw [he]; rfl, by rwa [he]⟩
  · exact .inr ⟨e, out, by rw [he]; rfl, by rwa [he]⟩

variable {k : Nat}

theorem encPair_working (h : EncWorking s t (k + 1)) (hp : t.enc.phase = .pair) :
    EncWorking s (settle .enc (encPair t)) k := by
  obtain ⟨hin, hN, hcap, hst, hpos, hpred, ss, htodo, hsend⟩ := h
  rw [hp] at htodo
  obtain ⟨hrun, hss, hk⟩ := htodo
  have hlen := samplesFrom_length s.readEncIn t.enc.pos.toNat s.enc.numPixels.toNat
  refine ⟨hin, hN, hcap, hst, hpos, hpred, ss, ?_, hsend.congr rfl rfl rfl rfl⟩
  show EncTodo _ _ ss k (if t.enc.pos = t.enc.numPixels then .flush else .zrun)
  split
  · next heq =>
    have hnil : samplesFrom s.readEncIn t.enc.pos.toNat s.enc.numPixels.toNat = [] :=
      List.length_eq_zero_iff.1 (by rw [hlen, heq, hN, Nat.sub_self])
    rw [hnil] at hss hk
    exact ⟨hrun, hnil, hss, by unfold stepsOverPairs at hk; omega⟩
  · next hne =>
    refine ⟨fun hnil => hne ?_, hss, hk⟩
    have hzero := hlen.symm.trans (congrArg List.length hnil)
    rw [List.length_nil] at hzero
    rw [hN]
    exact BitVec.eq_of_toNat_eq (by omega)

theorem encZRun_working (h : EncWorking s t (k + 1)) (hp : t.enc.phase = .zrun) :
    EncWorking s (settle .enc (encZRun t)) k ∨ EncComputed s (settle .enc (encZRun t)) := by
  obtain ⟨hin, hN, hcap, hst, hpos, hpred, ss, htodo, hsend⟩ := h
  rw [hp] at htodo
  obtain ⟨hne, hss, hk⟩ := htodo
  obtain ⟨z, vs, after, hrest, hpair⟩ := exists_isPair hne
  have hrun : t.encRun true = z := by
    rw [State.encRun, hin, hN, runLength_eq hrest, List.length_replicate]
    · exact fun v hv => decide_eq_true (List.eq_of_mem_replicate hv)
    · exact fun v hv => by simpa using hpair.head_ne_zero v hv
  have hzeros (j : Nat) (hj : j < z) : s.readEncIn (t.enc.pos.toNat + j) = 0 := by
    rw [← hin]
    exact readEncIn_of_lt_encRun_true (hrun ▸ hj)
  obtain ⟨hpos', hle, hrest'⟩ := samplesFrom_advance hrest hpos List.length_replicate
  rw [hss, hrest, hpair.pairsOf_eq, symbolsOfPairs, symbolsNibbles_cons] at hsend
  rw [hrest, stepsOverPairs, hpair.pairsOf_eq, List.length_cons, List.length_append,
    List.length_append] at hk
  rw [encZRun, hrun]
  rcases encVle_sending hsend _ with ⟨p, out, hv, hsend'⟩ | ⟨p, out, hv, hfull⟩ <;> rw [hv]
  · refine .inl ⟨hin, hN, hcap, hst, hpos'.trans_le hle, ?_, _,
      ⟨vs, after, (congrArg (samplesFrom _ · _) hpos').trans hrest', hpair.nonzero, hpair.next_zero, rfl,
        ?_⟩,
      hsend'.congr rfl rfl rfl rfl⟩
    · refine Eq.trans ?_ (congrArg (fun n => lastNonZero (s.encSamples n)) hpos'.symm)
      exact hpred.trans (lastNonZero_range_zeros hzeros).symm
    · unfold stepsOverPairs
      omega
  · exact .inr (encComputed_outFull hcap hfull)

theorem encNRun_working (h : EncWorking s t (k + 1)) (hp : t.enc.phase = .nrun) :
    EncWorking s (settle .enc (encNRun t)) k ∨ EncComputed s (settle .enc (encNRun t)) := by
  obtain ⟨hin, hN, hcap, hst, hpos, hpred, ss, htodo, hsend⟩ := h
  rw [hp] at htodo
  obtain ⟨vs, after, hrest, hnz, hnext, hss, hk⟩ := htodo
  have hrun : t.encRun false = vs.length := by
    rw [State.encRun, hin, hN, runLength_eq hrest]
    · exact fun v hv => decide_eq_false (hnz v hv)
    · exact fun v hv => by simpa using hnext v hv
  have hfits : (BitVec.ofNat Config.countW vs.length).toNat = vs.length := by
    have := encRun_le t false
    have := count_lt t.enc.numPixels
    rw [count_toNat_ofNat]
    omega
  rw [hss, symbolsNibbles_cons] at hsend
  rw [encNRun, hrun]
  rcases encVle_sending hsend _ with ⟨p, out, hv, hsend'⟩ | ⟨p, out, hv, hfull⟩ <;> rw [hv]
  · refine .inl ⟨hin, hN, hcap, hst, hpos, hpred, _, ?_, hsend'.congr rfl rfl rfl rfl⟩
    show EncTodo _ (samplesFrom s.readEncIn t.enc.pos.toNat s.enc.numPixels.toNat)
      (symbolsAfterRun t.enc.prev vs after) k (if vs.length = 0 then .pair else .delta)
    rw [hrest]
    cases vs with
    | nil => exact ⟨rfl, rfl, by simp only [List.nil_append, List.length_nil] at hk ⊢; omega⟩
    | cons v vs => exact ⟨v, vs, after, rfl, hnz, hfits, rfl, by rw [List.length_cons] at hk; omega⟩
  · exact .inr (encComputed_outFull hcap hfull)

theorem encDelta_working (h : EncWorking s t (k + 1)) (hp : t.enc.phase = .delta) :
    EncWorking s (settle .enc (encDelta t)) k ∨ EncComputed s (settle .enc (encDelta t)) := by
  obtain ⟨hin, hN, hcap, hst, hpos, hpred, ss, htodo, hsend⟩ := h
  rw [hp] at htodo
  obtain ⟨v, vs, after, hrest, hnz, hrun, hss, hk⟩ := htodo
  have hv : s.readEncIn t.enc.pos.toNat = v := samplesFrom_head hrest
  obtain ⟨hpos', hle, hrest'⟩ :=
    samplesFrom_advance (a := [v]) (rest := vs ++ after) (m := 1) hrest hpos rfl
  have hrun' : (t.enc.run - 1).toNat = vs.length := by rw [count_pred_toNat (by omega), hrun]; rfl
  rw [hss, symbolsAfterRun_cons, symbolsNibbles_cons, ← hv, ← hin] at hsend
  rw [encDelta_eq, encDeltaVle]
  rcases encVle_sending (t := { t with enc := { t.enc with prev := t.readEncIn t.enc.pos.toNat } })
    (hsend.congr rfl rfl rfl rfl) _ with ⟨p, out, hvle, hsend'⟩ | ⟨p, out, hvle, hfull⟩ <;> rw [hvle]
  · refine .inl ⟨hin, hN, hcap, hst, hpos'.trans_le hle, ?_, _, ?_, hsend'.congr rfl rfl rfl rfl⟩
    · refine Eq.trans ?_ (congrArg (fun n => lastNonZero (s.encSamples n)) hpos'.symm)
      have hne : s.readEncIn t.enc.pos.toNat ≠ 0 := hv ▸ hnz v (List.mem_cons_self ..)
      rw [State.encSamples, lastNonZero_range_succ, if_neg hne, ← hin]
      rfl
    · show EncTodo _ (samplesFrom s.readEncIn (t.enc.pos + BitVec.ofNat Config.countW 1).toNat
        s.enc.numPixels.toNat) (symbolsAfterRun (t.readEncIn t.enc.pos.toNat) vs after) k
        (if t.enc.run - 1 = 0 then .pair else .delta)
      rw [hpos', hrest']
      cases vs with
      | nil =>
        have hlast : t.enc.run - 1 = 0 := BitVec.eq_of_toNat_eq hrun'
        rw [if_pos hlast]
        exact ⟨hlast, rfl, by simp only [List.nil_append, List.length_nil] at hk ⊢; omega⟩
      | cons u us =>
        have hmore : t.enc.run - 1 ≠ 0 := fun h0 => by rw [h0] at hrun'; cases hrun'
        rw [if_neg hmore]
        exact ⟨u, us, after, rfl, fun w hw => hnz w (List.mem_cons_of_mem v hw), hrun', rfl,
          by rw [List.length_cons] at hk; omega⟩
  · exact .inr (encComputed_outFull hcap hfull)

theorem encEnd_working (h : EncWorking s t (k + 1)) (hp : t.enc.phase = .flush) :
    EncComputed s (settle .enc (encEnd t)) := by
  obtain ⟨hin, hN, hcap, hst, hpos, hpred, ss, htodo, hsend⟩ := h
  rw [hp] at htodo
  obtain ⟨hrun, hrest, hss, _⟩ := htodo
  have hlen := congrArg List.length hrest
  rw [samplesFrom_length, List.length_nil] at hlen
  have hend : t.enc.pos = s.enc.numPixels := BitVec.eq_of_toNat_eq (by omega)
  rw [hss] at hsend
  rw [hend] at hpred
  have hframe := flushNibs_frame .lowFirst t.enc t.encOut
  have hflush : encFlush t = t.put (flushNibs .lowFirst t.enc t.encOut) := rfl
  rw [encEnd, hflush]
  rcases hsend.flushNibs with ⟨e, out, hf, hsent⟩ | ⟨e, out, hf, hfull⟩ <;> rw [hf] at hframe ⊢ <;>
    have he : e = t.enc.withPacker e := hframe
  · exact encComputed_sent (t := t) he hN hcap hst hend hrun hpred hsent
  · exact encComputed_outFull (by rw [he]; exact hcap) hfull

/-- Each step of an operation brings it nearer to its end. -/
theorem EncWorking.step (h : EncWorking s t (k + 1)) :
    EncWorking s (encStep t) k ∨ EncComputed s (encStep t) := by
  have hbusy : t.enc.status.busy = true := by rw [h.status]; rfl
  rw [encStep_busy hbusy]
  cases hp : t.enc.phase with
  | idle =>
    obtain ⟨_, htodo, _⟩ := h.progress
    rw [hp] at htodo
    exact htodo.elim
  | pair => rw [encPhaseStep_pair hp]; exact .inl (encPair_working h hp)
  | zrun => rw [encPhaseStep_zrun hp]; exact encZRun_working h hp
  | nrun => rw [encPhaseStep_nrun hp]; exact encNRun_working h hp
  | delta => rw [encPhaseStep_delta hp]; exact encDelta_working h hp
  | flush => rw [encPhaseStep_flush hp]; exact .inr (encEnd_working h hp)

/-- An operation ends within its number of steps; an ended one stays as it is. -/
theorem EncWorking.ends (h : EncWorking s t k) {m : Nat} (hm : k ≤ m) :
    EncComputed s (encStep^[m] t) := by
  induction k generalizing t m with
  | zero =>
    obtain ⟨_, htodo, _⟩ := h.progress
    exact absurd htodo.pos (by decide)
  | succ k ih =>
    obtain ⟨m, rfl⟩ : ∃ j, m = j + 1 := Nat.exists_eq_add_one.2 (by omega)
    rw [Function.iterate_succ_apply]
    rcases h.step with hw | hc
    · exact ih hw (by omega)
    · rwa [Function.iterate_fixed (encStep_notBusy hc.notBusy)]

end

/-! ### Turns of both units (R75, R171) -/

/-- A turn of DEC does not look at the turns to come, and changes DEC's part alone. -/
theorem step_dec {u : Turn} (hu : u = .dec ∨ u = .decCodeword) (s : State) (ts : List Turn) :
    ∃ x, step (s.withTurns (u :: ts)) = .next ((s.setUnit .dec x).withTurns ts) := by
  obtain ⟨r, hr⟩ := decTurn_alike hu s
  exact ⟨{ r with decIn := s.decIn }, hr (s.withTurns ts) (.of_readDecIn rfl rfl rfl)⟩

theorem encStep_iterate_setUnit (k : Nat) (s x : State) :
    encStep^[k] (s.setUnit .dec x) = (encStep^[k] s).setUnit .dec x :=
  Function.Commute.iterate_left (f := encStep) (g := fun s => s.setUnit .dec x)
    (fun s => (encStep_actsOn s).blind x) k s

/-- Turns of the two units in any order leave ENC where its own steps leave it. -/
theorem reaches_onlyUnits {ts : List Turn} (hts : OnlyUnits ts) (s : State) :
    ∃ t, Reaches ts.length (s.withTurns ts) t ∧ t.enc = (encStep^[ts.count .enc] s).enc ∧
      t.encOut = (encStep^[ts.count .enc] s).encOut := by
  induction ts generalizing s with
  | nil => exact ⟨_, rfl, rfl, rfl⟩
  | cons u ts ih =>
    obtain ⟨hu, hrest⟩ := List.forall_mem_cons.1 hts
    rcases hu with rfl | hu
    · obtain ⟨t, hrun, henc, hout⟩ := ih hrest (encStep s)
      rw [List.count_cons_self, Function.iterate_succ_apply]
      exact ⟨t, reaches_cons (step_enc s ts) hrun, henc, hout⟩
    · obtain ⟨x, hstep⟩ := step_dec hu s ts
      obtain ⟨t, hrun, henc, hout⟩ := ih hrest (s.setUnit .dec x)
      rw [encStep_iterate_setUnit] at henc hout
      rw [List.count_cons_of_ne (by rcases hu with rfl | rfl <;> decide)]
      exact ⟨t, reaches_cons hstep hrun, henc, hout⟩

/-- Settles O44: START begins an operation, every step brings it nearer to its end, and its end is
RvlCompress or its first words. -/
theorem compressorComputesFunction : Obligations.CompressorComputesFunction := by
  intro s ts hb hts hcount
  obtain ⟨t, hrun, henc, hout⟩ := reaches_onlyUnits hts { s with enc := s.enc.start }
  have hcomputed := (encWorking_start s).ends hcount
  refine ⟨t, reaches_cons (step_encStart hb ts) hrun, ?_⟩
  rw [henc, hout]
  exact hcomputed

end Sys2Proof.Machine

/-! ## The symbol steps and the PAIR step of DEC (R183 to R188, R194, R222, R226)

The operand of a symbol is said once, held or still to be read (`symbolOperand_reads`): its value in the
pair of `dec.acc` and `dec.ovf`, its nibbles consumed. Each role's body is then a few registers. -/

namespace Sys2Proof.Machine

/-! ### What GETNIB depends on -/

/-- GETNIB works on the cursor and the extent: in another unit with the same ones it does the same. -/
theorem getNib_withCursor (fill : NibbleFill) (mem : Nat → Word) {q d : DecUnit}
    (h : q.inWords = d.inWords) :
    getNib fill mem (q.withCursor d) =
      (getNib fill mem d).map fun r => (r.1, q.withCursor r.2) := by
  cases fill <;> simp only [getNib, shiftNibble, DecUnit.withCursor, h] <;> split_ifs <;> rfl

theorem nibblesAhead_withCursor (fill : NibbleFill) (mem : Nat → Word) (n : Nat) {q d : DecUnit}
    (h : q.inWords = d.inWords) :
    nibblesAhead fill mem n (q.withCursor d) = nibblesAhead fill mem n d := by
  induction n generalizing d with
  | zero => rfl
  | succ n ih =>
    rw [nibblesAhead, nibblesAhead, getNib_withCursor fill mem h]
    cases hg : getNib fill mem d with
    | none => rfl
    | some r => exact congrArg (r.1 :: ·) (ih (h.trans (by rw [getNib_frame fill mem hg])))

/-- States whose DEC has the same cursor and extent and reads the same words have the same stream. -/
theorem stream_congr {s t : State} (hin : t.readDecIn = s.readDecIn)
    (hd : t.dec = t.dec.withCursor s.dec) (hw : t.dec.inWords = s.dec.inWords) :
    t.stream = s.stream := by
  have hleft : nibblesLeft t.dec = nibblesLeft s.dec := by
    rw [nibblesLeft, hw, hd]
    rfl
  rw [State.stream, hleft, hin, hd, nibblesAhead_withCursor _ _ _ hw, State.stream]

/-- What a step does after its operand leaves the cursor where the operand left it. -/
theorem CursorMoved.congr {k : Nat} {s t u : State} (h : CursorMoved k s t)
    (hin : u.readDecIn = t.readDecIn) (hd : u.dec = u.dec.withCursor t.dec)
    (hw : u.dec.inWords = t.dec.inWords) (hn : u.dec.numPixels = t.dec.numPixels) :
    CursorMoved k s u := by
  obtain ⟨hleft, hstream, hpixels, hwords⟩ := h
  refine ⟨?_, (stream_congr hin hd hw).trans hstream, hn.trans hpixels, hw.trans hwords⟩
  rw [← hleft, nibblesLeft, hw, hd]
  rfl

/-! ### The operand of a symbol -/

/-- The pair of `dec.acc` and `dec.ovf` stands for `v` (R125). -/
structure PairHolds (v : Nat) (d : DecUnit) : Prop where
  acc : d.acc.toNat = v % 2 ^ 32
  ovf : d.ovf = true ↔ 2 ^ 32 ≤ v

/-- The pair is what DECVLE leaves for a codeword long enough, but for the shift count. -/
theorem PairHolds.scratchHolds {v : Nat} {d : DecUnit} (h : PairHolds v d) :
    ScratchHolds v v { d with sh := BitVec.ofNat 6 (min (3 * v) 33) } where
  lt := Nat.lt_pow_self (by decide)
  sh := by
    show (BitVec.ofNat 6 (min (3 * v) 33)).toNat = _
    rw [BitVec.toNat_ofNat]
    omega
  acc := h.acc
  ovf := h.ovf

theorem PairHolds.overRemaining_iff {v : Nat} {d : DecUnit} (h : PairHolds v d) :
    overRemaining d = true ↔ remaining d < v := h.scratchHolds.overRemaining_iff

theorem PairHolds.reconstruct_eq {v : Nat} {d : DecUnit} (h : PairHolds v d) :
    reconstruct d = accum d.prev (zzDec v) := h.scratchHolds.reconstruct_eq

theorem PairHolds.acc_eq {v : Nat} {d : DecUnit} (h : PairHolds v d) :
    d.acc = BitVec.ofNat Config.countW v := by
  apply BitVec.eq_of_toNat_eq
  rw [h.acc, count_toNat_ofNat]
  rfl

/-- A run that fits passes the OVERRUN test. -/
theorem PairHolds.not_overRemaining {v : Nat} {d : DecUnit} (h : PairHolds v d) (hv : v ≤ remaining d) :
    ¬ overRemaining d = true :=
  mt h.overRemaining_iff.1 (not_lt.2 hv)

theorem count_ofNat_of_fits {v : Nat} {d : DecUnit} (hv : v ≤ remaining d) :
    (BitVec.ofNat Config.countW v).toNat = v := by
  have hn := count_lt d.numPixels
  rw [remaining] at hv
  rw [count_toNat_ofNat]
  omega

/-- `s` with the operand of its symbol read: the cursor and the scratch of `c`, and nothing held. -/
def State.operandRead (s : State) (c : DecUnit) : State :=
  { s with dec := { s.dec.withCursor c with held := none } }

/-- An operand that is there is read: its value stands in the pair and its nibbles are consumed, whether
DECVLE reads it now or a codeword turn has done so (log entry 4). -/
theorem symbolOperand_reads {cw : Codeword} {s : State} (h : operandReady cw s) :
    ∃ c, symbolOperand cw s = .ok (s.operandRead c) ∧
      PairHolds (operandValue cw s) (s.operandRead c).dec ∧
      CursorMoved (operandNibbles cw s) s (s.operandRead c) := by
  unfold operandReady at h
  unfold operandNibbles at h ⊢
  unfold operandValue
  cases hh : s.dec.held with
  | some c =>
    refine ⟨s.dec, symbolOperand_held hh, ?_, ⟨rfl, ?_, rfl, rfl⟩⟩
    · have hacc : s.dec.acc.toNat < 2 ^ 32 := s.dec.acc.isLt
      show PairHolds (s.dec.acc.toNat + if s.dec.ovf = true then 2 ^ 32 else 0) _
      constructor
      · show s.dec.acc.toNat = _
        split <;> omega
      · show s.dec.ovf = true ↔ _
        split <;> simp_all
    · exact stream_congr rfl rfl rfl
  | none =>
    simp only [hh] at h
    obtain ⟨d, hv, hholds, hmoved, hd⟩ := decVle_reads h
    have hread : State.operandRead s d = { s with dec := d } := by
      rw [State.operandRead, ← hh]
      exact congrArg (fun x => { s with dec := x }) hd.symm
    exact ⟨d, by rw [symbolOperand_fresh hh, hv, hread], by rw [hread]; exact ⟨hholds.acc, hholds.ovf⟩,
      by rw [hread]; exact hmoved⟩

/-- An operand whose nibbles are not all there: every nibble is consumed, and EXHAUSTED raised (R222). -/
theorem symbolOperand_exhausts {cw : Codeword} {s : State} (hh : s.dec.held = none)
    (h : nibblesLeft s.dec < cw.length) :
    ∃ c, symbolOperand cw s = .raised .exhausted { s with dec := s.dec.withCursor c } ∧
      c.nib = 0 ∧ c.rd = s.dec.inWords := by
  rcases decVle_cases cw s with ⟨hge, _⟩ | ⟨_, d, hv, hnib, hrd, hd⟩
  · exact absurd h (not_lt.2 hge)
  · refine ⟨d, ?_, hnib, hrd.trans (by rw [hd])⟩
    rw [symbolOperand_fresh hh, hv]
    exact congrArg (fun x => Ended.raised .exhausted { s with dec := x }) hd

theorem symbolOperand_outcome (cw : Codeword) (s : State) :
    (∃ c, symbolOperand cw s = .ok (s.operandRead c)) ∨
    ∃ c, symbolOperand cw s = .raised .exhausted { s with dec := s.dec.withCursor c } ∧
      c.rd = s.dec.inWords := by
  by_cases hready : operandReady cw s
  · obtain ⟨c, hread, _⟩ := symbolOperand_reads hready
    exact .inl ⟨c, hread⟩
  · unfold operandReady operandNibbles at hready
    cases hh : s.dec.held with
    | some c => simp [hh] at hready
    | none =>
      rw [hh] at hready
      obtain ⟨c, hraised, _, hrd⟩ := symbolOperand_exhausts hh (not_le.1 hready)
      exact .inr ⟨c, hraised, hrd⟩

/-! ### The bodies of the runs, by the value of the operand -/

/-- A run of zeros that fits (R185). -/
theorem zRunBody_fits {s : State} {v : Nat} (h : PairHolds v s.dec) (hv : v ≤ remaining s.dec) :
    zRunBody s = .ok { s with
      decOut := bufFill s.decOut s.dec.cnt.toNat 0 v
      dec := { s.dec with cnt := s.dec.cnt + BitVec.ofNat Config.countW v, phase := .nrun } } := by
  have hacc : s.dec.acc.toNat = v := by rw [h.acc_eq, count_ofNat_of_fits hv]
  rw [← h.acc_eq, ← hacc]
  exact if_neg (h.not_overRemaining hv)

/-- A run of samples that fits (R186). -/
theorem nRunBody_fits {s : State} {v : Nat} (h : PairHolds v s.dec) (hv : v ≤ remaining s.dec) :
    nRunBody s = .ok { s with
      dec := { s.dec with
        run := BitVec.ofNat Config.countW v
        phase := if BitVec.ofNat Config.countW v = 0 then .pair else .delta } } := by
  rw [← h.acc_eq]
  exact if_neg (h.not_overRemaining hv)

/-- A run of either kind that does not fit (R223). -/
theorem runBody_over {r : Role} {s : State} {v : Nat} (hr : r ≠ .d) (h : PairHolds v s.dec)
    (hv : remaining s.dec < v) : symbolBody r s = .raised .overrun s := by
  have hover := h.overRemaining_iff.2 hv
  cases r with
  | z => exact if_pos hover
  | n => exact if_pos hover
  | d => exact absurd rfl hr

/-! ### How a symbol step ends -/

/-- A symbol whose body ends normally leaves the body's state. -/
theorem exec_symbol_ends {r : Role} {cw : Codeword} {s t : State} {c : DecUnit}
    (h : symbolOperand cw s = .ok (s.operandRead c))
    (hbody : symbolBody r (s.operandRead c) = .ok t) : exec (symbolInstr r cw) s = .next t := by
  rw [exec_symbolInstr, h, andThen_ok, hbody, settle_ok]

/-- A symbol whose body raises a fault leaves what R226 says, with its operand consumed. -/
theorem exec_symbol_faults {r : Role} {cw : Codeword} {s : State} {c : DecUnit} {f : FaultCode}
    (h : symbolOperand cw s = .ok (s.operandRead c))
    (hmoved : CursorMoved (operandNibbles cw s) s (s.operandRead c))
    (hbody : symbolBody r (s.operandRead c) = .raised f (s.operandRead c)) :
    ∃ t, exec (symbolInstr r cw) s = .next t ∧ FaultedAfterOperand f cw s t := by
  refine ⟨(s.operandRead c).takeFault .dec f, ?_, hmoved.congr rfl rfl rfl rfl, rfl⟩
  rw [exec_symbolInstr, h, andThen_ok, hbody, settle_raised]

/-- A symbol whose codeword is cut short raises EXHAUSTED, whatever its role (R222). -/
theorem exec_symbol_exhausts (r : Role) {cw : Codeword} {s : State} (hh : s.dec.held = none)
    (h : nibblesLeft s.dec < cw.length) :
    ∃ t, exec (symbolInstr r cw) s = .next t ∧ Exhausted s t := by
  obtain ⟨c, hraised, hnib, hrd⟩ := symbolOperand_exhausts hh h
  refine ⟨State.takeFault { s with dec := s.dec.withCursor c } .dec .exhausted, ?_, hnib, hrd, rfl⟩
  rw [exec_symbolInstr, hraised, andThen_raised, settle_raised]

/-- A run longer than what remains raises OVERRUN (R223). -/
theorem exec_symbol_overruns {r : Role} {cw : Codeword} {s : State} (hr : r ≠ .d)
    (hready : operandReady cw s) (hlt : remaining s.dec < operandValue cw s) :
    ∃ t, exec (symbolInstr r cw) s = .next t ∧ FaultedAfterOperand .overrun cw s t := by
  obtain ⟨c, hread, hpair, hmoved⟩ := symbolOperand_reads hready
  exact exec_symbol_faults hread hmoved (runBody_over hr hpair hlt)

/-! ### Z, N and D -/

/-- Settles O13: after its operand a `Z` step is the OVERRUN test and a fill of DEC_OUT. -/
theorem zSymbolWritesZeros : Obligations.ZSymbolWritesZeros := by
  intro cw s
  refine ⟨fun hready hfits => ?_, exec_symbol_overruns (r := .z) nofun, exec_symbol_exhausts .z⟩
  obtain ⟨c, hread, hpair, hmoved⟩ := symbolOperand_reads hready
  exact ⟨_, exec_symbol_ends (r := .z) hread (zRunBody_fits hpair hfits),
    hmoved.congr rfl rfl rfl rfl, rfl, bufRead_bufFill s.decOut _ 0 _⟩

/-- Settles O14: after its operand an `N` step is the OVERRUN test and a load of `dec.run`. -/
theorem nSymbolLoadsRun : Obligations.NSymbolLoadsRun := by
  intro cw s
  refine ⟨fun hready hfits => ?_, exec_symbol_overruns (r := .n) nofun, exec_symbol_exhausts .n⟩
  obtain ⟨c, hread, hpair, hmoved⟩ := symbolOperand_reads hready
  have hzero : BitVec.ofNat Config.countW (operandValue cw s) = 0 ↔ operandValue cw s = 0 := by
    rw [← BitVec.toNat_inj, count_ofNat_of_fits hfits, count_toNat_zero]
  refine ⟨_, exec_symbol_ends (r := .n) hread (nRunBody_fits hpair hfits),
    hmoved.congr rfl rfl rfl rfl, ?_⟩
  simp only [hzero]
  rfl

/-- Settles O15: after its operand a `D` step is ZZDEC and ACCUM, and a write of the sample. -/
theorem dSymbolWritesSample : Obligations.DSymbolWritesSample := by
  intro cw s v
  refine ⟨fun hready hlow hhigh => ?_, fun hready hout => ?_, exec_symbol_exhausts .d⟩
  · obtain ⟨c, hread, hpair, hmoved⟩ := symbolOperand_reads hready
    have hsample : reconstruct (s.operandRead c).dec = some (BitVec.ofNat 16 v.toNat) :=
      hpair.reconstruct_eq.trans (if_neg (not_or.2 ⟨not_lt.2 hlow, not_lt.2 hhigh⟩))
    exact ⟨_, exec_symbol_ends (r := .d) hread (deltaBody_sample hsample),
      hmoved.congr rfl rfl rfl rfl, rfl, fun i => bufRead_bufWrite s.decOut _ i _⟩
  · obtain ⟨c, hread, hpair, hmoved⟩ := symbolOperand_reads hready
    have hrange : reconstruct (s.operandRead c).dec = none := hpair.reconstruct_eq.trans (if_pos hout)
    exact exec_symbol_faults (r := .d) hread hmoved (deltaBody_range hrange)

/-! ### PAD and PAIR -/

theorem runTurn_decCodeword_notBusy {s : State} (hb : s.dec.status.busy = false) :
    runTurn .decCodeword s = .next s := by
  have hf : fetchDecCodeword s = .nothing := by simp [fetchDecCodeword, hb]
  rw [runTurn, hf, runFetched]

/-- Settles O16: PAD answers its state, and an idle DEC fetches PAD or nothing. -/
theorem paddingHasNoEffect : Obligations.PaddingHasNoEffect :=
  fun _ => ⟨rfl, fun hb => ⟨runTurn_dec_notBusy hb, runTurn_decCodeword_notBusy hb⟩⟩

theorem runTurn_dec_pair {s : State} (hb : s.dec.status.busy = true) (hp : s.dec.phase = .pair) :
    runTurn .dec s = .next (decPair s) := by
  rw [runTurn, fetchDec_noRole hb (by rw [hp]; rfl), if_pos hp, runFetched]

/-- Settles O17: the two branches of the completion test. -/
theorem pairStepTestsCompletion : Obligations.PairStepTestsCompletion := by
  intro s hb hp
  rw [runTurn_dec_pair hb hp]
  exact ⟨fun h => congrArg _ (if_pos h), fun h => congrArg _ (if_neg h)⟩

/-! ### The faults of a DEC step (R194) -/

/-- What a fault leaves of a unit: everything but the cursor, the scratch and what was held. -/
structure FaultKeeps (s t : State) : Prop where
  decOut : t.decOut = s.decOut
  cnt : t.dec.cnt = s.dec.cnt
  prev : t.dec.prev = s.dec.prev
  phase : t.dec.phase = .idle
  numPixels : t.dec.numPixels = s.dec.numPixels
  inWords : t.dec.inWords = s.dec.inWords

theorem phase_of_role_z {p : DecPhase} (h : phaseRole p = some .z) : p = .zrun := by
  cases p <;> simp [phaseRole] at h ⊢

theorem phase_of_role_n {p : DecPhase} (h : phaseRole p = some .n) : p = .nrun := by
  cases p <;> simp [phaseRole] at h ⊢

/-- The body of a symbol step: the status is as it was, or the fault of its role is raised with nothing
changed. -/
theorem symbolBody_outcome (r : Role) (s : State) :
    (∃ t, symbolBody r s = .ok t ∧ t.dec.status = s.dec.status) ∨
    (r ≠ .d ∧ symbolBody r s = .raised .overrun s) ∨ (r = .d ∧ symbolBody r s = .raised .range s) := by
  cases r with
  | z =>
    rcases zRunBody_cases s with ⟨_, h⟩ | ⟨_, h⟩
    · exact .inr (.inl ⟨nofun, h⟩)
    · exact .inl ⟨_, h, rfl⟩
  | n =>
    rcases nRunBody_cases s with ⟨_, h⟩ | ⟨_, h⟩
    · exact .inr (.inl ⟨nofun, h⟩)
    · exact .inl ⟨_, h, rfl⟩
  | d =>
    rcases deltaBody_cases s with ⟨_, h⟩ | ⟨v, _, h⟩
    · exact .inr (.inr ⟨rfl, h⟩)
    · exact .inl ⟨_, h, rfl⟩

/-- A symbol step: the status is as it was, or a fault is taken that wrote nothing. -/
theorem symbolStep_outcome (r : Role) (cw : Codeword) (s : State) :
    (symbolStep r cw s).dec.status = s.dec.status ∨
    (FaultKeeps s (symbolStep r cw s) ∧
      (((symbolStep r cw s).dec.status = Status.faulted .exhausted ∧
          (symbolStep r cw s).dec.rd = (symbolStep r cw s).dec.inWords) ∨
        (r ≠ .d ∧ (symbolStep r cw s).dec.status = Status.faulted .overrun) ∨
        (r = .d ∧ (symbolStep r cw s).dec.status = Status.faulted .range))) := by
  have hkeeps (c : DecUnit) (f : FaultCode) : FaultKeeps s ((s.operandRead c).takeFault .dec f) :=
    ⟨rfl, rfl, rfl, rfl, rfl, rfl⟩
  rw [symbolStep]
  rcases symbolOperand_outcome cw s with ⟨c, ho⟩ | ⟨c, ho, hrd⟩ <;> rw [ho]
  · rw [andThen_ok]
    rcases symbolBody_outcome r (s.operandRead c) with ⟨t, hb, ht⟩ | ⟨hr, hb⟩ | ⟨hr, hb⟩ <;> rw [hb]
    · exact .inl ht
    · exact .inr ⟨hkeeps c _, .inr (.inl ⟨hr, rfl⟩)⟩
    · exact .inr ⟨hkeeps c _, .inr (.inr ⟨hr, rfl⟩)⟩
  · exact .inr ⟨⟨rfl, rfl, rfl, rfl, rfl, rfl⟩, .inl ⟨rfl, hrd⟩⟩

theorem decPair_err (s : State) : (decPair s).dec.status.err = s.dec.status.err := by
  unfold decPair
  split <;> rfl

theorem phaseRole_ne_none_of_fetch_cutShort {s : State} (h : fetchDec s = .cutShort) :
    phaseRole s.dec.phase ≠ none := by
  intro hp
  cases hb : s.dec.status.busy with
  | false => rw [fetchDec_idle hb] at h; cases h
  | true =>
    rw [fetchDec_noRole hb hp] at h
    split at h <;> cases h

/-- Settles O54: only a symbol step or a codeword cut short can end with ERR. -/
theorem decFaultsWriteNothing : Obligations.DecFaultsWriteNothing := by
  intro s t hb herr ht hterr
  suffices h : FaultKeeps s t ∧
      ((t.dec.status = Status.faulted .exhausted ∧ t.dec.rd = t.dec.inWords ∧
          phaseRole s.dec.phase ≠ none) ∨
        (t.dec.status = Status.faulted .overrun ∧ (s.dec.phase = .zrun ∨ s.dec.phase = .nrun)) ∨
        (t.dec.status = Status.faulted .range ∧ s.dec.phase = .delta)) by
    obtain ⟨⟨hout, hcnt, hprev, hphase, hn, hw⟩, hcode⟩ := h
    exact ⟨hout, hcnt, hprev, hphase, hn, hw, fun hok => by rw [hcnt, hn]; exact hok.cnt_le hb, hcode⟩
  rw [runTurn] at ht
  rcases fetchDec_cases s with ⟨hidle, _⟩ | ⟨_, _, hf⟩ | ⟨_, _, hf⟩ | ⟨r, cw, _, hr, hf⟩ |
    ⟨_, _, _, hf⟩
  · rw [hb] at hidle; cases hidle
  · rw [hf] at ht; cases ht
    rw [decPair_err, herr] at hterr; cases hterr
  · rw [hf] at ht; cases ht
    rw [herr] at hterr; cases hterr
  · rw [hf, runFetched, exec_symbolInstr] at ht
    obtain rfl : symbolStep r cw s = t := Host.Outcome.next.inj ht
    rcases symbolStep_outcome r cw s with hst | ⟨hkeeps, ⟨hcode, hrd⟩ | ⟨hrole, hcode⟩ | ⟨rfl, hcode⟩⟩
    · rw [hst, herr] at hterr; cases hterr
    · exact ⟨hkeeps, .inl ⟨hcode, hrd, by rw [hr]; nofun⟩⟩
    · refine ⟨hkeeps, .inr (.inl ⟨hcode, ?_⟩)⟩
      cases r with
      | z => exact .inl (phase_of_role_z hr)
      | n => exact .inr (phase_of_role_n hr)
      | d => exact absurd rfl hrole
    · exact ⟨hkeeps, .inr (.inr ⟨hcode, phase_of_role_d hr⟩)⟩
  · have hrole := phaseRole_ne_none_of_fetch_cutShort hf
    obtain ⟨d, hcut, _, hrd, hd⟩ := runCutShort_eq s
    have hend : runCutShort s = (State.takeFault { s with dec := s.dec.withCursor d } .dec .exhausted) :=
      hcut.trans (congrArg (fun x => State.takeFault { s with dec := x } .dec .exhausted) hd)
    have hwords : d.rd = s.dec.inWords := hrd.trans (by rw [hd])
    rw [hf] at ht; cases ht
    rw [hend]
    exact ⟨⟨rfl, rfl, rfl, rfl, rfl, rfl⟩, .inl ⟨rfl, hwords, hrole⟩⟩

end Sys2Proof.Machine

/-! ## RvlDecompress stage by stage (R181)

A round of the function is cut where DEC's phases are: `decodeZRun`, `decodeNRun` and `decodeRun` go on from
the `Z`, from the `N` and from the deltas. Each has one equation for each way its next codeword can come
out; what the function answers on a canonical stream follows pair by pair. -/

namespace Sys2Proof.Machine

/-! ### The stages of a round -/

/-- RvlDecompress from the deltas of a run on, `n` of them to come. -/
def decodeRun (m numPixels fuel : Nat) (prev : Sample) (out : List Sample) (n : Nat)
    (b : List Nibble) : Decompressed :=
  match decodeDeltas n prev out b with
  | .fault c out' b' => .fault c out' (wordsUsed m b'.length)
  | .ok prev' out' b' => decodePairs m numPixels fuel prev' out' b'

/-- RvlDecompress from the `N` of a pair on. -/
def decodeNRun (m numPixels fuel : Nat) (prev : Sample) (out : List Sample) (b : List Nibble) :
    Decompressed :=
  match nextValue b with
  | none => .fault .exhausted out m
  | some (n, b') =>
    if numPixels - out.length < n then .fault .overrun out (wordsUsed m b'.length)
    else decodeRun m numPixels fuel prev out n b'

/-- RvlDecompress from the `Z` of a pair on. -/
def decodeZRun (m numPixels fuel : Nat) (prev : Sample) (out : List Sample) (b : List Nibble) :
    Decompressed :=
  match nextValue b with
  | none => .fault .exhausted out m
  | some (z, b') =>
    if numPixels - out.length < z then .fault .overrun out (wordsUsed m b'.length)
    else decodeNRun m numPixels fuel prev (out ++ List.replicate z 0) b'

section
variable {m numPixels fuel : Nat} {prev : Sample} {out : List Sample} {b b' : List Nibble}

theorem decodePairs_done (h : numPixels ≤ out.length) :
    decodePairs m numPixels (fuel + 1) prev out b = .ok out (wordsUsed m b.length) := if_pos h

theorem decodePairs_more (h : out.length < numPixels) :
    decodePairs m numPixels (fuel + 1) prev out b = decodeZRun m numPixels fuel prev out b :=
  if_neg (not_le.2 h)

theorem decodeZRun_cut (h : nextValue b = none) :
    decodeZRun m numPixels fuel prev out b = .fault .exhausted out m := by
  simp only [decodeZRun, h]

theorem decodeZRun_over {z : Nat} (h : nextValue b = some (z, b')) (hz : numPixels - out.length < z) :
    decodeZRun m numPixels fuel prev out b = .fault .overrun out (wordsUsed m b'.length) := by
  simp only [decodeZRun, h, if_pos hz]

theorem decodeZRun_fits {z : Nat} (h : nextValue b = some (z, b')) (hz : z ≤ numPixels - out.length) :
    decodeZRun m numPixels fuel prev out b =
      decodeNRun m numPixels fuel prev (out ++ List.replicate z 0) b' := by
  simp only [decodeZRun, h, if_neg (not_lt.2 hz)]

theorem decodeNRun_cut (h : nextValue b = none) :
    decodeNRun m numPixels fuel prev out b = .fault .exhausted out m := by
  simp only [decodeNRun, h]

theorem decodeNRun_over {n : Nat} (h : nextValue b = some (n, b')) (hn : numPixels - out.length < n) :
    decodeNRun m numPixels fuel prev out b = .fault .overrun out (wordsUsed m b'.length) := by
  simp only [decodeNRun, h, if_pos hn]

theorem decodeNRun_fits {n : Nat} (h : nextValue b = some (n, b')) (hn : n ≤ numPixels - out.length) :
    decodeNRun m numPixels fuel prev out b = decodeRun m numPixels fuel prev out n b' := by
  simp only [decodeNRun, h, if_neg (not_lt.2 hn)]

theorem decodeRun_zero :
    decodeRun m numPixels fuel prev out 0 b = decodePairs m numPixels fuel prev out b := rfl

theorem wordsUsed_zero (m : Nat) : wordsUsed m 0 = m := by
  rw [wordsUsed]
  omega

theorem decodeRun_cut {n : Nat} (h : nextValue b = none) :
    decodeRun m numPixels fuel prev out (n + 1) b = .fault .exhausted out m := by
  simp only [decodeRun, decodeDeltas, h, List.length_nil, wordsUsed_zero]

theorem decodeRun_range {n u : Nat} (h : nextValue b = some (u, b'))
    (hv : accum prev (zzDec u) = none) :
    decodeRun m numPixels fuel prev out (n + 1) b = .fault .range out (wordsUsed m b'.length) := by
  simp only [decodeRun, decodeDeltas, h, hv]

theorem decodeRun_sample {n u : Nat} {v : Sample} (h : nextValue b = some (u, b'))
    (hv : accum prev (zzDec u) = some v) :
    decodeRun m numPixels fuel prev out (n + 1) b =
      decodeRun m numPixels fuel v (out ++ [v]) n b' := by
  simp only [decodeRun, decodeDeltas, h, hv]

end

/-! ### Whole pairs of a canonical stream (R192) -/

/-- The number of samples a list of pairs describes (R157). -/
def pairsCount (ps : List (Nat × List Sample)) : Nat := (ps.map fun p => p.1 + p.2.length).sum

/-- The samples a list of pairs describes. -/
def pairsSamples (ps : List (Nat × List Sample)) : List Sample :=
  ps.flatMap fun p => List.replicate p.1 0 ++ p.2

@[simp] theorem pairsCount_nil : pairsCount [] = 0 := rfl

@[simp] theorem pairsCount_cons (z : Nat) (vs : List Sample) (ps : List (Nat × List Sample)) :
    pairsCount ((z, vs) :: ps) = z + vs.length + pairsCount ps := by
  simp [pairsCount]

theorem pairsCount_pairsOf (x : List Sample) : pairsCount (pairsOf x) = x.length := pairsOf_sum x

theorem pairsSamples_cons (z : Nat) (vs : List Sample) (ps : List (Nat × List Sample)) :
    pairsSamples ((z, vs) :: ps) = List.replicate z 0 ++ vs ++ pairsSamples ps := List.flatMap_cons

theorem pairsSamples_pairsOf (x : List Sample) : pairsSamples (pairsOf x) = x := pairsOf_flatMap x

theorem pairsSamples_length (ps : List (Nat × List Sample)) :
    (pairsSamples ps).length = pairsCount ps := by
  simp [pairsSamples, pairsCount, List.length_flatMap]

/-- The samples of the first pairs are the first samples. -/
theorem pairsSamples_take (x : List Sample) (j : Nat) :
    pairsSamples ((pairsOf x).take j) = x.take (pairsCount ((pairsOf x).take j)) := by
  have hsplit : pairsSamples ((pairsOf x).take j) ++ pairsSamples ((pairsOf x).drop j) = x := by
    rw [pairsSamples, pairsSamples, ← List.flatMap_append, List.take_append_drop]
    exact pairsSamples_pairsOf x
  have htake := congrArg (List.take (pairsSamples ((pairsOf x).take j)).length) hsplit
  rwa [List.take_left, pairsSamples_length] at htake

theorem symbolsOfPairs_cons_nibbles (prev : Sample) (z : Nat) (vs : List Sample)
    (ps : List (Nat × List Sample)) (q : List Nibble) :
    symbolsNibbles (symbolsOfPairs prev ((z, vs) :: ps)) ++ q =
      vleNibbles z ++ (vleNibbles vs.length ++ (symbolsNibbles (deltaSymbols prev vs) ++
        (symbolsNibbles (symbolsOfPairs (vs.getLastD prev) ps) ++ q))) := by
  simp only [symbolsOfPairs, symbolsNibbles_cons, symbolsNibbles_append, symbolNibbles,
    List.append_assoc]

theorem deltaSymbols_cons_nibbles (prev v : Sample) (vs : List Sample) (q : List Nibble) :
    symbolsNibbles (deltaSymbols prev (v :: vs)) ++ q =
      vleNibbles (zzEnc (sampleDelta v prev)) ++ (symbolsNibbles (deltaSymbols v vs) ++ q) := by
  simp only [deltaSymbols, symbolsNibbles_cons, symbolNibbles, List.append_assoc]

/-- The first pairs of a list have a stream of their own in front of the rest. -/
theorem symbolsOfPairs_append (prev : Sample) (ps qs : List (Nat × List Sample)) :
    ∃ prev', symbolsOfPairs prev (ps ++ qs) = symbolsOfPairs prev ps ++ symbolsOfPairs prev' qs := by
  induction ps generalizing prev with
  | nil => exact ⟨prev, rfl⟩
  | cons p ps ih =>
    obtain ⟨prev', h⟩ := ih (p.2.getLastD prev)
    exact ⟨prev', by simp only [List.cons_append, symbolsOfPairs, h, List.append_assoc]⟩

/-- A pair takes a nibble at least, in fact two. -/
theorem pairs_length_le_nibbles (prev : Sample) (ps : List (Nat × List Sample)) :
    ps.length ≤ (symbolsNibbles (symbolsOfPairs prev ps)).length := by
  induction ps generalizing prev with
  | nil => exact Nat.zero_le _
  | cons p ps ih =>
    have hrest := ih (p.2.getLastD prev)
    have hz := codewordLength_pos p.1
    simp only [symbolsOfPairs, symbolsNibbles_cons, symbolsNibbles_append, symbolNibbles,
      List.length_append, vleNibbles_length, List.length_cons]
    omega

section
variable {m numPixels fuel : Nat} {prev : Sample} {out : List Sample}

/-- The differences of a run decode to its samples (R146, R187). -/
theorem decodeRun_deltas (vs : List Sample) (q : List Nibble) :
    decodeRun m numPixels fuel prev out vs.length (symbolsNibbles (deltaSymbols prev vs) ++ q) =
      decodePairs m numPixels fuel (vs.getLastD prev) (out ++ vs) q := by
  induction vs generalizing prev out with
  | nil => rw [List.append_nil]; rfl
  | cons v vs ih =>
    rw [deltaSymbols_cons_nibbles, List.length_cons, decodeRun_sample (nextValue_vleNibbles _ _)
      (by rw [zzDec_zzEnc, accum_sampleDelta]), ih, List.getLastD_cons, List.append_assoc,
      List.singleton_append]

/-- A pair that fits decodes to its samples. -/
theorem decodePairs_pair {z : Nat} {vs : List Sample} (hmore : out.length < numPixels)
    (hfits : out.length + (z + vs.length) ≤ numPixels) (ps : List (Nat × List Sample))
    (q : List Nibble) :
    decodePairs m numPixels (fuel + 1) prev out
        (symbolsNibbles (symbolsOfPairs prev ((z, vs) :: ps)) ++ q) =
      decodePairs m numPixels fuel (vs.getLastD prev) (out ++ (List.replicate z 0 ++ vs))
        (symbolsNibbles (symbolsOfPairs (vs.getLastD prev) ps) ++ q) := by
  rw [symbolsOfPairs_cons_nibbles, decodePairs_more hmore,
    decodeZRun_fits (nextValue_vleNibbles _ _) (by omega),
    decodeNRun_fits (nextValue_vleNibbles _ _)
      (by rw [List.length_append, List.length_replicate]; omega),
    decodeRun_deltas, List.append_assoc]

/-- Pairs that fit decode to their samples, and the function goes on after them. -/
theorem decodePairs_pairs {ps : List (Nat × List Sample)} (hpos : ∀ p ∈ ps, 1 ≤ p.1 + p.2.length)
    (hfits : out.length + pairsCount ps ≤ numPixels) (q : List Nibble) :
    ∃ prev', decodePairs m numPixels (ps.length + fuel) prev out
        (symbolsNibbles (symbolsOfPairs prev ps) ++ q) =
      decodePairs m numPixels fuel prev' (out ++ pairsSamples ps) q := by
  induction ps generalizing prev out with
  | nil => exact ⟨prev, by simp [pairsSamples, symbolsOfPairs]⟩
  | cons p ps ih =>
    obtain ⟨z, vs⟩ := p
    obtain ⟨hp, hrest⟩ := List.forall_mem_cons.1 hpos
    have hone : 1 ≤ z + vs.length := hp
    rw [pairsCount_cons] at hfits
    obtain ⟨prev', h⟩ := ih (prev := vs.getLastD prev) (out := out ++ (List.replicate z 0 ++ vs)) hrest
      (by simp only [List.length_append, List.length_replicate]; omega)
    refine ⟨prev', ?_⟩
    rw [List.length_cons, Nat.add_right_comm, decodePairs_pair (by omega) (by omega), h, pairsSamples_cons,
      List.append_assoc]

/-- Pairs that describe all the samples end the operation. -/
theorem decodePairs_ends {ps : List (Nat × List Sample)} (hpos : ∀ p ∈ ps, 1 ≤ p.1 + p.2.length)
    (hall : out.length + pairsCount ps = numPixels) (hfuel : ps.length < fuel) (q : List Nibble) :
    decodePairs m numPixels fuel prev out (symbolsNibbles (symbolsOfPairs prev ps) ++ q) =
      .ok (out ++ pairsSamples ps) (wordsUsed m q.length) := by
  obtain ⟨k, rfl⟩ := Nat.exists_eq_add_of_lt hfuel
  obtain ⟨prev', h⟩ := decodePairs_pairs (m := m) (fuel := k + 1) (prev := prev) hpos hall.le q
  rw [Nat.add_assoc, h, decodePairs_done]
  rw [List.length_append, pairsSamples_length, hall]

end

/-! ### The canonical stream of a sample sequence -/

theorem wordsNibbles_length (ws : List Word) : (wordsNibbles ws).length = 8 * ws.length := by
  simp [wordsNibbles, List.length_flatMap, wordNibbles_length, Nat.mul_comm]

theorem wordsNibbles_append (ws ys : List Word) :
    wordsNibbles (ws ++ ys) = wordsNibbles ws ++ wordsNibbles ys := List.flatMap_append

/-- The words of a canonical stream and any after them: its nibbles, then what is left over. -/
theorem wordsNibbles_rvlCompress_append (x : List Sample) (ys : List Word) :
    ∃ q, wordsNibbles (rvlCompress x ++ ys) = nibblesOf x ++ q ∧
      q.length + (nibblesOf x).length = 8 * (rvlCompress x ++ ys).length := by
  have hstream := wordsNibbles_packNibbles (nibblesOf x)
  have hlen := rvlCompress_length x
  have hall : wordsNibbles (rvlCompress x ++ ys) = nibblesOf x ++
      (List.replicate (8 * (rvlCompress x).length - (nibblesOf x).length) 0 ++ wordsNibbles ys) := by
    rw [wordsNibbles_append, rvlCompress, hstream, List.append_assoc]
  refine ⟨_, hall, ?_⟩
  rw [List.length_append, List.length_replicate, List.length_append, wordsNibbles_length]
  omega

/-- Words after a canonical stream make no difference (R193 b). -/
theorem rvlDecompress_append (x : List Sample) (ys : List Word) :
    rvlDecompress (rvlCompress x ++ ys) x.length = .ok x (rvlCompress x).length := by
  obtain ⟨q, hstream, hcount⟩ := wordsNibbles_rvlCompress_append x ys
  have hpairs := pairs_length_le_nibbles 0 (pairsOf x)
  have hlen := rvlCompress_length x
  rw [← nibblesOf_eq] at hpairs
  rw [rvlDecompress, hstream, nibblesOf_eq, decodePairs_ends one_le_of_mem_pairsOf
    (by rw [pairsCount_pairsOf]; exact Nat.zero_add _) (by omega), pairsSamples_pairsOf, wordsUsed]
  rw [List.nil_append]
  congr 1
  omega

/-- Settles O41: each pair of the stream decodes to its samples, up to the last. -/
theorem decompressUndoesCompress : Obligations.DecompressUndoesCompress := by
  intro x
  have h := rvlDecompress_append x []
  rwa [List.append_nil] at h

/-! ### A stream cut short (R193 a) -/

/-- `b` is `u` cut short by at least one nibble. -/
def CutOf (b u : List Nibble) : Prop := ∃ c, c ≠ [] ∧ b ++ c = u

/-- A codeword that is read from a sequence is read from every longer one. -/
theorem splitCodeword_append {b rest : List Nibble} {cw : Codeword}
    (h : splitCodeword b = some (cw, rest)) (c : List Nibble) :
    splitCodeword (b ++ c) = some (cw, rest ++ c) := by
  induction b generalizing cw rest with
  | nil => cases h
  | cons q qs ih =>
    simp only [List.cons_append, splitCodeword] at h ⊢
    split at h
    · next hq =>
      cases hs : splitCodeword qs with
      | none => rw [hs] at h; cases h
      | some p => rw [hs] at h; cases h; rw [if_pos hq, ih hs]
    · next hq => cases h; rw [if_neg hq]

/-- Where a stream is cut, its first codeword is cut, or it is read and the rest is cut. -/
theorem nextValue_cutOf {x : Nat} {b u : List Nibble} (h : CutOf b (vleNibbles x ++ u)) :
    nextValue b = none ∨ ∃ b', nextValue b = some (x, b') ∧ CutOf b' u := by
  obtain ⟨c, hc, hb⟩ := h
  have hread : splitCodeword (b ++ c) = some (codewordOf x, u) := by
    rw [hb]
    exact splitCodeword_codewordNibbles (codewordOf_ne_nil x) u
  rw [nextValue]
  cases hs : splitCodeword b with
  | none => exact .inl rfl
  | some p =>
    obtain ⟨cw, rest⟩ := p
    obtain ⟨rfl, hrest⟩ := Prod.mk.inj (Option.some.inj ((splitCodeword_append hs c).symm.trans hread))
    exact .inr ⟨rest, by simp only [codewordValue_codewordOf], c, hc, hrest⟩

/-- The outcome is the fault EXHAUSTED. -/
def Decompressed.Exhausts (d : Decompressed) : Prop := ∃ out used, d = .fault .exhausted out used

section
variable {m numPixels fuel : Nat} {prev : Sample} {out : List Sample} {b : List Nibble}

/-- A stream cut in a run's differences or after them exhausts, if it does from the next pair on. -/
theorem decodeRun_of_cutOf {vs : List Sample} {u : List Nibble}
    (h : CutOf b (symbolsNibbles (deltaSymbols prev vs) ++ u))
    (hrest : ∀ b', CutOf b' u →
      (decodePairs m numPixels fuel (vs.getLastD prev) (out ++ vs) b').Exhausts) :
    (decodeRun m numPixels fuel prev out vs.length b).Exhausts := by
  induction vs generalizing prev out b with
  | nil =>
    have hnext := hrest b h
    rwa [List.append_nil] at hnext
  | cons v vs ih =>
    rw [deltaSymbols_cons_nibbles] at h
    rcases nextValue_cutOf h with hv | ⟨b', hv, hcut⟩
    · exact ⟨_, _, decodeRun_cut hv⟩
    · rw [List.length_cons, decodeRun_sample hv (by rw [zzDec_zzEnc, accum_sampleDelta])]
      refine ih hcut fun b'' hb'' => ?_
      have hnext := hrest b'' hb''
      rwa [List.getLastD_cons, List.append_cons] at hnext

/-- Pairs whose stream is cut exhaust it. -/
theorem decodePairs_of_cutOf {ps : List (Nat × List Sample)} (hpos : ∀ p ∈ ps, 1 ≤ p.1 + p.2.length)
    (hfits : out.length + pairsCount ps ≤ numPixels)
    (h : CutOf b (symbolsNibbles (symbolsOfPairs prev ps))) :
    (decodePairs m numPixels fuel prev out b).Exhausts := by
  induction ps generalizing prev out b fuel with
  | nil =>
    obtain ⟨c, hc, hb⟩ := h
    exact absurd (List.append_eq_nil_iff.1 hb).2 hc
  | cons p ps ih =>
    obtain ⟨z, vs⟩ := p
    obtain ⟨hp, hrest⟩ := List.forall_mem_cons.1 hpos
    have hone : 1 ≤ z + vs.length := hp
    rw [pairsCount_cons] at hfits
    rw [← List.append_nil (symbolsNibbles _), symbolsOfPairs_cons_nibbles, List.append_nil] at h
    cases fuel with
    | zero => exact ⟨_, _, rfl⟩
    | succ fuel =>
      rw [decodePairs_more (by omega)]
      rcases nextValue_cutOf h with hz | ⟨b1, hz, hcut1⟩
      · exact ⟨_, _, decodeZRun_cut hz⟩
      rw [decodeZRun_fits hz (by omega)]
      rcases nextValue_cutOf hcut1 with hn | ⟨b2, hn, hcut2⟩
      · exact ⟨_, _, decodeNRun_cut hn⟩
      rw [decodeNRun_fits hn (by rw [List.length_append, List.length_replicate]; omega)]
      refine decodeRun_of_cutOf hcut2 fun b3 hcut3 => ih hrest ?_ hcut3
      simp only [List.length_append, List.length_replicate]
      omega

end

/-- Fewer words than a canonical stream has are its nibbles cut short. -/
theorem cutOf_take_rvlCompress (x : List Sample) {k : Nat} (hk : k < (rvlCompress x).length) :
    CutOf (wordsNibbles ((rvlCompress x).take k)) (nibblesOf x) := by
  have hlen := rvlCompress_length x
  have htake : (wordsNibbles ((rvlCompress x).take k)).length = 8 * k := by
    rw [wordsNibbles_length, List.length_take, Nat.min_eq_left hk.le]
  have hwords : wordsNibbles ((rvlCompress x).take k) ++ wordsNibbles ((rvlCompress x).drop k) =
      nibblesOf x ++ List.replicate (8 * (rvlCompress x).length - (nibblesOf x).length) 0 := by
    rw [← wordsNibbles_append, List.take_append_drop]
    exact wordsNibbles_packNibbles (nibblesOf x)
  obtain ⟨c, hc, _⟩ | ⟨c, hc, _⟩ := List.append_eq_append_iff.1 hwords
  · refine ⟨c, ?_, hc.symm⟩
    rintro rfl
    rw [List.append_nil] at hc
    rw [hc, htake] at hlen
    omega
  · have := congrArg List.length hc
    rw [htake, List.length_append] at this
    omega

/-- Settles O42: a cut stream ends inside some codeword of a pair; words after the stream are not read. -/
theorem cutStreamExhausts : Obligations.CutStreamExhausts := by
  refine fun x => ⟨fun k hk => ?_, rvlDecompress_append x⟩
  exact decodePairs_of_cutOf one_le_of_mem_pairsOf
    (by rw [pairsCount_pairsOf]; exact (Nat.zero_add _).le) (cutOf_take_rvlCompress x hk)

/-! ### A wrong number of samples (R193 c, R264) -/

/-- Padding reads as pairs without samples until it is used up (R98, R193). -/
theorem decodePairs_padding {m numPixels : Nat} {out : List Sample} (hmore : out.length < numPixels)
    (fuel k : Nat) (prev : Sample) :
    (decodePairs m numPixels fuel prev out (List.replicate k 0)).Exhausts := by
  have hzero (j : Nat) : nextValue (List.replicate (j + 1) 0) = some (0, List.replicate j 0) :=
    nextValue_vleNibbles 0 (List.replicate j 0)
  induction fuel generalizing k prev with
  | zero => exact ⟨_, _, rfl⟩
  | succ fuel ih =>
    rw [decodePairs_more hmore]
    match k with
    | 0 => exact ⟨_, _, decodeZRun_cut rfl⟩
    | 1 =>
      rw [decodeZRun_fits (hzero 0) (Nat.zero_le _)]
      exact ⟨_, _, decodeNRun_cut rfl⟩
    | k + 2 =>
      rw [decodeZRun_fits (hzero (k + 1)) (Nat.zero_le _), decodeNRun_fits (hzero k) (Nat.zero_le _),
        decodeRun_zero, List.replicate_zero, List.append_nil]
      exact ih k prev

/-- Where the samples end inside a pair, that pair's zeros or its run is too long. -/
theorem decodePairs_overruns {m numPixels fuel : Nat} {prev : Sample} {out : List Sample}
    {ps : List (Nat × List Sample)} (hfuel : ps.length ≤ fuel) (hle : out.length ≤ numPixels)
    (hfewer : numPixels < out.length + pairsCount ps)
    (hinside : ∀ j, out.length + pairsCount (ps.take j) ≠ numPixels) (q : List Nibble) :
    ∃ out' used, decodePairs m numPixels fuel prev out (symbolsNibbles (symbolsOfPairs prev ps) ++ q) =
      .fault .overrun out' used := by
  induction ps generalizing fuel prev out with
  | nil => exact absurd hfewer (not_lt.2 hle)
  | cons p ps ih =>
    obtain ⟨z, vs⟩ := p
    have hmore : out.length < numPixels := lt_of_le_of_ne hle (hinside 0)
    rw [pairsCount_cons] at hfewer
    obtain ⟨fuel, rfl⟩ : ∃ f, fuel = f + 1 := Nat.exists_eq_add_one.2 (by rw [List.length_cons] at hfuel; omega)
    have hlen : (out ++ List.replicate z 0).length = out.length + z := by
      rw [List.length_append, List.length_replicate]
    by_cases hz : numPixels - out.length < z
    · rw [symbolsOfPairs_cons_nibbles, decodePairs_more hmore]
      exact ⟨_, _, decodeZRun_over (nextValue_vleNibbles _ _) hz⟩
    by_cases hn : numPixels - (out ++ List.replicate z 0).length < vs.length
    · rw [symbolsOfPairs_cons_nibbles, decodePairs_more hmore,
        decodeZRun_fits (nextValue_vleNibbles _ _) (not_lt.1 hz)]
      exact ⟨_, _, decodeNRun_over (nextValue_vleNibbles _ _) hn⟩
    rw [decodePairs_pair hmore (by omega)]
    have hnext : (out ++ (List.replicate z 0 ++ vs)).length = out.length + (z + vs.length) := by
      simp only [List.length_append, List.length_replicate]
    refine ih (Nat.le_of_succ_le_succ hfuel) (by omega) (by omega) fun j hj => hinside (j + 1) ?_
    rw [List.take_succ_cons, pairsCount_cons]
    omega

/-- Decoding a canonical stream is decoding the symbols of its pairs and the padding, with fuel for every
pair. -/
theorem rvlDecompress_rvlCompress (x : List Sample) (n : Nat) :
    ∃ m fuel k, (pairsOf x).length ≤ fuel ∧ rvlDecompress (rvlCompress x) n =
      decodePairs m n (fuel + 1) 0 []
        (symbolsNibbles (symbolsOfPairs 0 (pairsOf x)) ++ List.replicate k 0) := by
  have hpairs := pairs_length_le_nibbles 0 (pairsOf x)
  have hlen := rvlCompress_length x
  rw [← nibblesOf_eq] at hpairs
  refine ⟨(rvlCompress x).length, 8 * (rvlCompress x).length,
    8 * (rvlCompress x).length - (nibblesOf x).length, by omega, ?_⟩
  rw [rvlDecompress, ← nibblesOf_eq]
  exact congrArg _ (wordsNibbles_packNibbles (nibblesOf x))

/-- Settles O43: the pairs that fit decode; then there is padding, the end, or a pair that is too long. -/
theorem wrongPixelCountOutcomes : Obligations.WrongPixelCountOutcomes := by
  intro x n
  obtain ⟨m, fuel, k, hfuel, hstream⟩ := rvlDecompress_rvlCompress x n
  have hcount := pairsCount_pairsOf x
  rw [hstream]
  refine ⟨fun hmore => ?_, fun _ ⟨j, hj⟩ => ?_, fun hfewer hinside => ?_⟩
  · obtain ⟨f, rfl⟩ := Nat.exists_eq_add_of_le hfuel
    obtain ⟨prev, h⟩ := decodePairs_pairs (m := m) (numPixels := n) (fuel := f + 1) (prev := 0)
      (out := []) one_le_of_mem_pairsOf (by rw [hcount, List.length_nil]; omega) (List.replicate k 0)
    rw [Nat.add_assoc, h, pairsSamples_pairsOf]
    exact decodePairs_padding hmore _ _ _
  · have hboundary : pairsCount ((pairsOf x).take j) = n := hj
    obtain ⟨prev, hsplit⟩ := symbolsOfPairs_append 0 ((pairsOf x).take j) ((pairsOf x).drop j)
    have hshort : ((pairsOf x).take j).length ≤ (pairsOf x).length := List.length_take_le' j _
    rw [List.take_append_drop] at hsplit
    rw [hsplit, symbolsNibbles_append, List.append_assoc, decodePairs_ends
      (fun p hp => one_le_of_mem_pairsOf p (List.mem_of_mem_take hp))
      (by rw [hboundary]; exact Nat.zero_add n) (by omega), pairsSamples_take, hboundary]
    exact ⟨_, rfl⟩
  · refine decodePairs_overruns (by omega) (Nat.zero_le n) ?_ (fun j hj => hinside ⟨j, ?_⟩) _
    · rw [hcount, List.length_nil]
      omega
    · exact (Nat.zero_add _).symm.trans hj

end Sys2Proof.Machine

/-! ## DEC computes RvlDecompress (R181, R183 to R189, R194, R195)

Between two steps of an operation `DecWorking` says what the samples written are and from which stage of a
round the function goes on over the rest of the stream. Each phase is taken once; a codeword turn before a
step makes no difference to it, so a run of both units' turns is DEC's phase steps alone, for DEC. -/

namespace Sys2Proof.Machine

/-! ### The codeword at the cursor -/

/-- A codeword takes its own nibbles off the front, one at least (R94). -/
theorem splitCodeword_spec {b rest : List Nibble} {cw : Codeword}
    (h : splitCodeword b = some (cw, rest)) :
    1 ≤ cw.length ∧ cw.length ≤ b.length ∧ rest = b.drop cw.length := by
  induction b generalizing cw rest with
  | nil => cases h
  | cons q qs ih =>
    rw [splitCodeword] at h
    split at h
    · cases hs : splitCodeword qs with
      | none => rw [hs] at h; cases h
      | some p =>
        rw [hs] at h
        cases h
        obtain ⟨_, hle, hdrop⟩ := ih hs
        exact ⟨Nat.succ_pos _, Nat.succ_le_succ hle, hdrop⟩
    · cases h
      exact ⟨le_rfl, Nat.succ_pos _, rfl⟩

theorem nextValue_of_split {b rest : List Nibble} {cw : Codeword}
    (h : splitCodeword b = some (cw, rest)) : nextValue b = some (codewordValue cw, rest) := by
  simp only [nextValue, h]

theorem nextValue_of_split_none {b : List Nibble} (h : splitCodeword b = none) : nextValue b = none := by
  simp only [nextValue, h]

/-! ### The cursor between two steps -/

/-- The cursor is in range and no whole word is at hand: GETNIB fetches only to deliver (R123). -/
def CursorRest (d : DecUnit) : Prop := CursorOk d ∧ d.nib.toNat < 8

theorem getNib_cursorRest {mem : Nat → Word} {d d' : DecUnit} {nb : Nibble}
    (hg : getNib .lowFirst mem d = some (nb, d')) (h : CursorRest d) : CursorRest d' := by
  obtain ⟨hok, h8⟩ := h
  refine ⟨getNib_cursorOk hg hok, ?_⟩
  rcases getNib_cases .lowFirst mem d with ⟨_, _, hn⟩ | ⟨_, _, hn⟩ | ⟨h0, hn⟩ <;> rw [hn] at hg <;>
    cases hg
  · show ((8 : BitVec 4) - 1).toNat < 8
    decide
  · show (d.nib - 1).toNat < 8
    bv_omega

theorem takeNibbles_cursorRest {mem : Nat → Word} {cw : Codeword} {d d' : DecUnit}
    (ht : takeNibbles .lowFirst mem cw d = .ok d') (h : CursorRest d) : CursorRest d' := by
  induction cw generalizing d with
  | nil => cases ht; exact h
  | cons p ps ih =>
    obtain ⟨nb, d1, hg, hrest⟩ := getNib_of_takeNibbles ht
    have h1 : CursorRest d1 := getNib_cursorRest hg h
    exact ih hrest h1

theorem decVle_cursorRest {cw : Codeword} {s t : State} (hv : decVle cw s = .ok t)
    (h : CursorRest s.dec) : CursorRest t.dec := by
  cases ht : takeNibbles Config.nibbleFill s.readDecIn cw s.dec.clearScratch with
  | ok d =>
    have hc : CursorRest d := takeNibbles_cursorRest ht h
    cases (decVle_of_ok ht).symm.trans hv
    exact hc
  | exhausted d => cases (decVle_of_exhausted ht).symm.trans hv

/-- `dec.rd` is the words used, the last of them in part or whole (R35, R189). -/
theorem rd_eq_wordsUsed {s : State} (h : CursorRest s.dec) :
    s.dec.rd.toNat = wordsUsed s.dec.inWords.toNat s.stream.length := by
  obtain ⟨⟨hrd, _, hfetched, _⟩, h8⟩ := h
  have hwords := count_lt s.dec.inWords
  have hleft : (s.dec.inWords - s.dec.rd).toNat = s.dec.inWords.toNat - s.dec.rd.toNat := by
    rw [count_toNat_sub]
    omega
  rw [stream_length, nibblesLeft, hleft, wordsUsed]
  omega

/-! ### A symbol step at the cursor -/

/-- A phase that asks for a codeword: either the stream has none left, or the step is the body of its role
with the codeword's value in the pair, over the rest of the stream. -/
theorem runTurn_dec_operand {s : State} {r : Role} (hb : s.dec.status.busy = true)
    (hr : phaseRole s.dec.phase = some r) (hh : s.dec.held = none) (hc : CursorRest s.dec) :
    (nextValue s.stream = none ∧ runTurn .dec s = .next (runCutShort s)) ∨
    ∃ v c, nextValue s.stream = some (v, (s.operandRead c).stream) ∧
      runTurn .dec s = .next (settle .dec (symbolBody r (s.operandRead c))) ∧
      PairHolds v (s.operandRead c).dec ∧ CursorRest (s.operandRead c).dec ∧
      (s.operandRead c).stream.length < s.stream.length := by
  cases hs : splitCodeword s.stream with
  | none => exact .inl ⟨nextValue_of_split_none hs, runTurn_dec_cutShort hb hr hh hs⟩
  | some p =>
    obtain ⟨cw, rest⟩ := p
    obtain ⟨hpos, hle, hrest⟩ := splitCodeword_spec hs
    have hready : operandReady cw s := by
      rw [operandReady, operandNibbles, hh]
      exact hle.trans_eq (stream_length s)
    obtain ⟨c, hread, hpair, _, hstream, _⟩ := symbolOperand_reads hready
    have hcursor := decVle_cursorRest ((symbolOperand_fresh hh).symm.trans hread) hc
    rw [operandValue, hh] at hpair
    rw [operandNibbles, hh] at hstream
    refine .inr ⟨codewordValue cw, c, ?_, ?_, hpair, hcursor, ?_⟩
    · rw [nextValue_of_split hs, hrest]
      exact congrArg (fun b => some (codewordValue cw, b)) hstream.symm
    · rw [runTurn_dec_symbol hb hr hh hs, symbolStep, hread, andThen_ok]
    · rw [hstream, List.length_drop]
      show s.stream.length - cw.length < _
      omega

/-! ### The samples written -/

/-- The samples `out` are written from element 0 on, on DEC_OUT as it was in `old`. -/
def OutWritten (out : List Sample) (old new : Buf 16) : Prop :=
  ∀ i, bufRead new i = if i < out.length then out[i]? else bufRead old i

theorem outWritten_nil (old : Buf 16) : OutWritten [] old old := fun _ => rfl

theorem OutWritten.sample {out : List Sample} {old new : Buf 16} (h : OutWritten out old new)
    (v : Sample) : OutWritten (out ++ [v]) old (bufWrite new out.length v) := by
  intro i
  rw [bufRead_bufWrite, h i, List.length_append, List.length_singleton]
  rcases Nat.lt_trichotomy i out.length with hi | rfl | hi
  · rw [if_neg hi.ne, if_pos hi, if_pos (by omega), List.getElem?_append_left hi]
  · simp
  · rw [if_neg hi.ne', if_neg (by omega), if_neg (by omega)]

theorem OutWritten.zeros {out : List Sample} {old new : Buf 16} (h : OutWritten out old new) (z : Nat) :
    OutWritten (out ++ List.replicate z 0) old (bufFill new out.length 0 z) := by
  induction z with
  | zero => rwa [List.replicate_zero, List.append_nil]
  | succ z ih =>
    have hnext := ih.sample 0
    rwa [List.length_append, List.length_replicate, List.append_assoc, ← List.replicate_succ'] at hnext

/-! ### What an operation has still to do -/

/-- The outcome of the function on DEC's input (R189). -/
def decOutcome (s : State) : Decompressed :=
  rvlDecompress (s.decWords s.dec.inWords.toNat) s.dec.numPixels.toNat

/-- In the phase given, with the samples `out` written and the nibbles `b` to come, the function answers
`res` from that phase's stage on, and DEC takes at most `k` steps (R183, R195). -/
def DecTodo (m numPixels : Nat) (d : DecUnit) (out : List Sample) (b : List Nibble)
    (res : Decompressed) (k : Nat) : DecPhase → Prop
  | .idle => False
  | .pair => 2 * b.length + 2 ≤ k ∧ ∃ fuel, b.length < fuel ∧
      res = decodePairs m numPixels fuel d.prev out b
  | .zrun => 2 * b.length + 1 ≤ k ∧ ∃ fuel, b.length ≤ fuel ∧
      res = decodeZRun m numPixels fuel d.prev out b
  | .nrun => 2 * b.length + 2 ≤ k ∧ ∃ fuel, b.length < fuel ∧
      res = decodeNRun m numPixels fuel d.prev out b
  | .delta => 2 * b.length + 2 ≤ k ∧ 0 < d.run.toNat ∧ out.length + d.run.toNat ≤ numPixels ∧
      ∃ fuel, b.length < fuel ∧ res = decodeRun m numPixels fuel d.prev out d.run.toNat b

theorem DecTodo.pos {m numPixels : Nat} {d : DecUnit} {out : List Sample} {b : List Nibble}
    {res : Decompressed} {k : Nat} {p : DecPhase} (h : DecTodo m numPixels d out b res k p) : 1 ≤ k := by
  cases p with
  | idle => exact h.elim
  | pair => have := h.1; omega
  | zrun => have := h.1; omega
  | nrun => have := h.1; omega
  | delta => have := h.1; omega

/-- Inside a run the next phase is told by what is left of it: none, and the pair is over (R186, R187). -/
theorem decTodo_inRun {m numPixels fuel : Nat} {d : DecUnit} {out : List Sample} {b : List Nibble}
    {res : Decompressed} {k : Nat} (hk : 2 * b.length + 2 ≤ k)
    (hroom : out.length + d.run.toNat ≤ numPixels) (hfuel : b.length < fuel)
    (hres : res = decodeRun m numPixels fuel d.prev out d.run.toNat b) :
    DecTodo m numPixels d out b res k (if d.run = 0 then .pair else .delta) := by
  split
  · next h0 =>
    rw [h0, count_toNat_zero, decodeRun_zero] at hres
    exact ⟨hk, fuel, hfuel, hres⟩
  · next h0 => exact ⟨hk, Nat.pos_of_ne_zero (count_toNat_ne_zero h0), hroom, fuel, hfuel, hres⟩

/-- `t` is a state of the operation that START begins on DEC as it is in `s`, with at most `k` steps to
come. -/
structure DecWorking (s t : State) (k : Nat) : Prop where
  numPixels : t.dec.numPixels = s.dec.numPixels
  inWords : t.dec.inWords = s.dec.inWords
  status : t.dec.status = Status.started
  held : t.dec.held = none
  cursor : CursorRest t.dec
  progress : ∃ out, t.dec.cnt.toNat = out.length ∧ out.length ≤ s.dec.numPixels.toNat ∧
    OutWritten out s.decOut t.decOut ∧
    DecTodo s.dec.inWords.toNat s.dec.numPixels.toNat t.dec out t.stream (decOutcome s) k t.dec.phase

/-- DEC has ended with this outcome of the function (R189). -/
def DecEnds (s t : State) : Decompressed → Prop
  | .ok out used =>
    t.dec.status = { busy := false, done := true, err := false, code := 0 } ∧
    out.length = s.dec.numPixels.toNat ∧ t.dec.cnt = s.dec.numPixels ∧ t.dec.rd.toNat = used ∧
    OutWritten out s.decOut t.decOut
  | .fault c out used =>
    t.dec.status = { busy := false, done := true, err := true, code := faultNumber c } ∧
    t.dec.cnt.toNat = out.length ∧ t.dec.rd.toNat = used ∧ OutWritten out s.decOut t.decOut

/-- How the operation that START begins on DEC as it is in `s` ends (R189). -/
def DecComputed (s t : State) : Prop := t.dec.phase = .idle ∧ DecEnds s t (decOutcome s)

theorem DecComputed.notBusy {s t : State} (h : DecComputed s t) : t.dec.status.busy = false := by
  obtain ⟨_, hends⟩ := h
  cases hres : decOutcome s <;> rw [hres] at hends <;> rw [hends.1]

theorem decWorking_start (s : State) :
    DecWorking s { s with dec := s.dec.start } (decStepBound s.dec.inWords.toNat) := by
  have hstream : State.stream { s with dec := s.dec.start } =
      wordsNibbles (s.decWords s.dec.inWords.toNat) := stream_at_start rfl rfl
  have hcount : (s.decWords s.dec.inWords.toNat).length = s.dec.inWords.toNat := by
    simp [State.decWords]
  have hnib : (0 : BitVec 4).toNat < 8 := by decide
  refine ⟨rfl, rfl, rfl, rfl, ⟨(decStart_running s.dec).cursor, hnib⟩, [], rfl, Nat.zero_le _,
    outWritten_nil _, ?_⟩
  rw [hstream]
  refine ⟨?_, 8 * s.dec.inWords.toNat + 1, ?_, ?_⟩
  · rw [wordsNibbles_length, hcount, decStepBound]
    omega
  · rw [wordsNibbles_length, hcount]
    exact Nat.lt_succ_self _
  · rw [decOutcome, rvlDecompress, hcount]
    rfl

/-! ### The ends of an operation -/

section
variable {s t : State} {out : List Sample}

/-- A fault in the body of a symbol step: the samples before it are written, its operand is used. -/
theorem decComputed_fault {f : FaultCode} (hw : t.dec.inWords = s.dec.inWords) (hc : CursorRest t.dec)
    (hcnt : t.dec.cnt.toNat = out.length) (hout : OutWritten out s.decOut t.decOut)
    (hres : decOutcome s = .fault f out (wordsUsed s.dec.inWords.toNat t.stream.length)) :
    DecComputed s (t.takeFault .dec f) := by
  refine ⟨rfl, ?_⟩
  rw [hres]
  exact ⟨rfl, hcnt, (rd_eq_wordsUsed hc).trans (by rw [hw]), hout⟩

/-- A codeword cut short: every word is used (R222). -/
theorem decComputed_exhausted (hw : t.dec.inWords = s.dec.inWords)
    (hcnt : t.dec.cnt.toNat = out.length) (hout : OutWritten out s.decOut t.decOut)
    (hres : decOutcome s = .fault .exhausted out s.dec.inWords.toNat) :
    DecComputed s (runCutShort t) := by
  obtain ⟨d, hcut, _, hrd, hd⟩ := runCutShort_eq t
  have hwords : d.inWords = s.dec.inWords := by rw [hd]; exact hw
  have hcnt' : d.cnt.toNat = out.length := by rw [hd]; exact hcnt
  rw [hcut]
  refine ⟨rfl, ?_⟩
  rw [hres]
  exact ⟨rfl, hcnt', by rw [← hwords, ← hrd]; rfl, hout⟩

/-! ### The phases -/

variable {k : Nat}

theorem decPair_working (h : DecWorking s t (k + 1)) (hp : t.dec.phase = .pair) :
    DecWorking s (decPair t) k ∨ DecComputed s (decPair t) := by
  obtain ⟨hN, hw, hst, hh, hc, out, hcnt, hle, hout, htodo⟩ := h
  rw [hp] at htodo
  obtain ⟨hk, fuel, hfuel, hres⟩ := htodo
  obtain ⟨fuel, rfl⟩ : ∃ f, fuel = f + 1 := Nat.exists_eq_add_one.2 (by omega)
  unfold decPair
  split
  · next heq =>
    have hall : out.length = s.dec.numPixels.toNat := by rw [← hcnt, heq, hN]
    refine .inr ⟨rfl, ?_⟩
    rw [hres, decodePairs_done hall.ge]
    refine ⟨?_, hall, heq.trans hN, (rd_eq_wordsUsed hc).trans (by rw [hw]), hout⟩
    show t.dec.status.finished = _
    rw [hst]
    rfl
  · next hne =>
    have hmore : out.length < s.dec.numPixels.toNat := by
      refine lt_of_le_of_ne hle fun heq => hne (BitVec.eq_of_toNat_eq ?_)
      rw [hcnt, heq, hN]
    rw [decodePairs_more hmore] at hres
    have hstream : State.stream { t with dec := { t.dec with phase := .zrun } } = t.stream :=
      stream_congr rfl rfl rfl
    refine .inl ⟨hN, hw, hst, hh, hc, out, hcnt, hle, hout, ?_⟩
    rw [hstream]
    exact ⟨by omega, fuel, by omega, hres⟩

/-- A symbol step that goes on, from the state `x` in which its operand is read to `y`. -/
theorem decWorking_of_operand {x y : State} (hN : y.dec.numPixels = s.dec.numPixels)
    (hw : y.dec.inWords = s.dec.inWords) (hst : y.dec.status = Status.started)
    (hh : y.dec.held = none) (hc : CursorRest y.dec) (hstream : y.stream = x.stream)
    (hcnt : y.dec.cnt.toNat = out.length) (hle : out.length ≤ s.dec.numPixels.toNat)
    (hout : OutWritten out s.decOut y.decOut)
    (htodo : DecTodo s.dec.inWords.toNat s.dec.numPixels.toNat y.dec out x.stream (decOutcome s) k
      y.dec.phase) : DecWorking s y k :=
  ⟨hN, hw, hst, hh, hc, out, hcnt, hle, hout, by rwa [hstream]⟩

theorem DecWorking.busy (h : DecWorking s t k) : t.dec.status.busy = true := by rw [h.status]; rfl

theorem DecWorking.zRun (h : DecWorking s t (k + 1)) (hp : t.dec.phase = .zrun) :
    ∃ x, runTurn .dec t = .next x ∧ (DecWorking s x k ∨ DecComputed s x) := by
  have hturn := runTurn_dec_operand (r := .z) h.busy (by rw [hp]; rfl) h.held h.cursor
  obtain ⟨hN, hw, hst, hh, hc, out, hcnt, hle, hout, htodo⟩ := h
  rw [hp] at htodo
  obtain ⟨hk, fuel, hfuel, hres⟩ := htodo
  rcases hturn with ⟨hnext, hrun⟩ | ⟨z, c, hnext, hrun, hpair, hc', hlen⟩
  · exact ⟨_, hrun, .inr (decComputed_exhausted hw hcnt hout (hres.trans (decodeZRun_cut hnext)))⟩
  have hrem : remaining (t.operandRead c).dec = s.dec.numPixels.toNat - out.length := by
    rw [← hN, ← hcnt]
    rfl
  refine ⟨_, hrun, ?_⟩
  rcases Nat.lt_or_ge (s.dec.numPixels.toNat - out.length) z with hz | hz
  · rw [runBody_over (r := .z) nofun hpair (hrem.trans_lt hz)]
    exact .inr (decComputed_fault hw hc' hcnt hout (hres.trans (decodeZRun_over hnext hz)))
  · rw [symbolBody, zRunBody_fits hpair (hz.trans_eq hrem.symm)]
    have hcnt' : (t.dec.cnt + BitVec.ofNat Config.countW z).toNat = out.length + z := by
      rw [count_add_ofNat (b := s.dec.numPixels) (by omega), hcnt]
    refine .inl (decWorking_of_operand (out := out ++ List.replicate z 0) hN hw hst rfl hc'
      (stream_congr (s := t.operandRead c) rfl rfl rfl) ?_ ?_ ?_ ?_)
    · rw [List.length_append, List.length_replicate]
      exact hcnt'
    · rw [List.length_append, List.length_replicate]
      omega
    · show OutWritten _ _ (bufFill t.decOut t.dec.cnt.toNat 0 z)
      rw [hcnt]
      exact hout.zeros z
    · exact ⟨by omega, fuel, by omega, hres.trans (decodeZRun_fits hnext hz)⟩

theorem DecWorking.nRun (h : DecWorking s t (k + 1)) (hp : t.dec.phase = .nrun) :
    ∃ x, runTurn .dec t = .next x ∧ (DecWorking s x k ∨ DecComputed s x) := by
  have hturn := runTurn_dec_operand (r := .n) h.busy (by rw [hp]; rfl) h.held h.cursor
  obtain ⟨hN, hw, hst, hh, hc, out, hcnt, hle, hout, htodo⟩ := h
  rw [hp] at htodo
  obtain ⟨hk, fuel, hfuel, hres⟩ := htodo
  rcases hturn with ⟨hnext, hrun⟩ | ⟨n, c, hnext, hrun, hpair, hc', hlen⟩
  · exact ⟨_, hrun, .inr (decComputed_exhausted hw hcnt hout (hres.trans (decodeNRun_cut hnext)))⟩
  have hrem : remaining (t.operandRead c).dec = s.dec.numPixels.toNat - out.length := by
    rw [← hN, ← hcnt]
    rfl
  refine ⟨_, hrun, ?_⟩
  rcases Nat.lt_or_ge (s.dec.numPixels.toNat - out.length) n with hn | hn
  · rw [runBody_over (r := .n) nofun hpair (hrem.trans_lt hn)]
    exact .inr (decComputed_fault hw hc' hcnt hout (hres.trans (decodeNRun_over hnext hn)))
  · have hfits : n ≤ remaining (t.operandRead c).dec := hn.trans_eq hrem.symm
    have hrun' := count_ofNat_of_fits hfits
    rw [decodeNRun_fits hnext hn, ← hrun'] at hres
    rw [symbolBody, nRunBody_fits hpair hfits]
    exact .inl (decWorking_of_operand hN hw hst rfl hc'
      (stream_congr (s := t.operandRead c) rfl rfl rfl) hcnt hle hout
      (decTodo_inRun (d := { (t.operandRead c).dec with run := BitVec.ofNat Config.countW n }) (by omega)
        (show out.length + (BitVec.ofNat Config.countW n).toNat ≤ _ by omega) (by omega) hres))

theorem DecWorking.delta (h : DecWorking s t (k + 1)) (hp : t.dec.phase = .delta) :
    ∃ x, runTurn .dec t = .next x ∧ (DecWorking s x k ∨ DecComputed s x) := by
  have hturn := runTurn_dec_operand (r := .d) h.busy (by rw [hp]; rfl) h.held h.cursor
  obtain ⟨hN, hw, hst, hh, hc, out, hcnt, hle, hout, htodo⟩ := h
  rw [hp] at htodo
  obtain ⟨hk, hpos, hroom, fuel, hfuel, hres⟩ := htodo
  obtain ⟨n, hn⟩ : ∃ n, t.dec.run.toNat = n + 1 := Nat.exists_eq_add_one.2 hpos
  have hleft : (t.dec.run - 1).toNat = n := by rw [count_pred_toNat hpos, hn]; rfl
  rw [hn] at hres
  rcases hturn with ⟨hnext, hrun⟩ | ⟨u, c, hnext, hrun, hpair, hc', hlen⟩
  · exact ⟨_, hrun, .inr (decComputed_exhausted hw hcnt hout (hres.trans (decodeRun_cut hnext)))⟩
  refine ⟨_, hrun, ?_⟩
  cases hv : accum t.dec.prev (zzDec u) with
  | none =>
    have hrange : reconstruct (t.operandRead c).dec = none := hpair.reconstruct_eq.trans hv
    rw [symbolBody, deltaBody_range hrange]
    exact .inr (decComputed_fault hw hc' hcnt hout (hres.trans (decodeRun_range hnext hv)))
  | some v =>
    have hsample : reconstruct (t.operandRead c).dec = some v := hpair.reconstruct_eq.trans hv
    have hcnt' : (t.dec.cnt + 1).toNat = out.length + 1 := by
      rw [← hcnt]
      exact count_add_ofNat (n := 1) (b := s.dec.numPixels) (by omega)
    rw [decodeRun_sample hnext hv] at hres
    rw [symbolBody, deltaBody_sample hsample]
    refine .inl (decWorking_of_operand (out := out ++ [v]) hN hw hst rfl hc'
      (stream_congr (s := t.operandRead c) rfl rfl rfl) ?_ ?_ ?_ ?_)
    · rw [List.length_append, List.length_singleton]
      exact hcnt'
    · rw [List.length_append, List.length_singleton]
      omega
    · show OutWritten _ _ (bufWrite t.decOut t.dec.cnt.toNat v)
      rw [hcnt]
      exact hout.sample v
    · rw [← hleft] at hres
      refine decTodo_inRun (d := { (t.operandRead c).dec with prev := v, run := t.dec.run - 1 }) (by omega)
        (show (out ++ [v]).length + (t.dec.run - 1).toNat ≤ _ from ?_) (by omega) hres
      rw [List.length_append, List.length_singleton]
      omega

/-! ### Steps and turns -/

/-- The state after a turn of DEC, which is never refused. -/
def afterTurn (u : Turn) (s : State) : State :=
  match runTurn u s with
  | .next t => t
  | _ => s

theorem runTurn_afterTurn {u : Turn} (hu : u = .dec ∨ u = .decCodeword) (s : State) :
    runTurn u s = .next (afterTurn u s) := by
  obtain ⟨f, _, hrun⟩ := decTurn_actsOn hu s
  have hself : runTurn u s = .next (f s) := hrun s
  rw [afterTurn, hself]

theorem afterTurn_eq {u : Turn} {s x : State} (h : runTurn u s = .next x) : afterTurn u s = x := by
  rw [afterTurn, h]

/-- Each phase step of an operation brings it nearer to its end. -/
theorem DecWorking.step (h : DecWorking s t (k + 1)) :
    DecWorking s (afterTurn .dec t) k ∨ DecComputed s (afterTurn .dec t) := by
  suffices hx : ∃ x, runTurn .dec t = .next x ∧ (DecWorking s x k ∨ DecComputed s x) by
    obtain ⟨x, hrun, hx⟩ := hx
    rwa [afterTurn_eq hrun]
  cases hp : t.dec.phase with
  | idle =>
    obtain ⟨_, _, _, _, htodo⟩ := h.progress
    rw [hp] at htodo
    exact htodo.elim
  | pair => exact ⟨_, runTurn_dec_pair h.busy hp, decPair_working h hp⟩
  | zrun => exact h.zRun hp
  | nrun => exact h.nRun hp
  | delta => exact h.delta hp

/-- An operation ends within its number of phase steps; an ended one stays as it is. -/
theorem DecWorking.ends (h : DecWorking s t k) {n : Nat} (hn : k ≤ n) :
    DecComputed s ((afterTurn .dec)^[n] t) := by
  induction k generalizing t n with
  | zero =>
    obtain ⟨_, _, _, _, htodo⟩ := h.progress
    exact absurd htodo.pos (by decide)
  | succ k ih =>
    obtain ⟨n, rfl⟩ : ∃ j, n = j + 1 := Nat.exists_eq_add_one.2 (by omega)
    rw [Function.iterate_succ_apply]
    rcases h.step with hw | hc
    · exact ih hw (by omega)
    · rwa [Function.iterate_fixed (afterTurn_eq (runTurn_dec_notBusy hc.notBusy))]

end

/-- `y` is where DEC stands after the phase steps that lead to `s` and perhaps a codeword turn: its next
phase step ends where that of `s` does, and where `s` is at an end there is no difference (R172, D20). -/
structure Tracks (s y : State) : Prop where
  next : runTurn .dec y = runTurn .dec s
  ended : s.dec.status.busy = false → y = s

theorem tracks_self (s : State) : Tracks s s := ⟨rfl, fun _ => rfl⟩

theorem Tracks.dec {s y : State} (h : Tracks s y) : afterTurn .dec y = afterTurn .dec s :=
  afterTurn_eq (h.next.trans (runTurn_afterTurn (.inl rfl) s))

theorem Tracks.decCodeword {s y : State} (h : Tracks s y) : Tracks s (afterTurn .decCodeword y) := by
  obtain ⟨x, hx, hnext⟩ := runTurn_dec_after_codeword y
  rw [afterTurn_eq hx]
  refine ⟨hnext.trans h.next, fun hb => ?_⟩
  obtain rfl := h.ended hb
  exact Host.Outcome.next.inj (hx.symm.trans (runTurn_decCodeword_notBusy hb))

/-- A turn of DEC does not look at ENC or at the turns to come. -/
theorem step_afterTurn {u : Turn} (hu : u = .dec ∨ u = .decCodeword) (y x : State) (ts : List Turn) :
    step ((y.setUnit .enc x).withTurns (u :: ts)) =
      .next (((afterTurn u y).setUnit .enc x).withTurns ts) := by
  obtain ⟨r, hr⟩ := decTurn_alike hu y
  rw [afterTurn_eq (hr y (.of_readDecIn rfl rfl rfl))]
  exact hr _ (.of_readDecIn rfl rfl rfl)

/-- Turns of the two units in any order leave DEC where its phase steps leave it, or a codeword turn
after. -/
theorem reaches_decTurns {ts : List Turn} (hts : OnlyUnits ts) {s y : State} (x : State)
    (h : Tracks s y) :
    ∃ t z, Reaches ts.length ((y.setUnit .enc x).withTurns ts) t ∧
      Tracks ((afterTurn .dec)^[ts.count .dec] s) z ∧ t.dec = z.dec ∧ t.decOut = z.decOut := by
  induction ts generalizing s y x with
  | nil => exact ⟨_, y, rfl, h, rfl, rfl⟩
  | cons u ts ih =>
    obtain ⟨hu, hrest⟩ := List.forall_mem_cons.1 hts
    rcases hu with rfl | rfl | rfl
    · have hframe : encStep (y.setUnit .enc x) = y.setUnit .enc
          { encStep (y.setUnit .enc x) with encIn := x.encIn } := (encStep_actsOn _).frame
      have hstep := step_enc (y.setUnit .enc x) ts
      rw [hframe] at hstep
      obtain ⟨t, z, hrun, hz⟩ := ih hrest _ h
      rw [List.count_cons_of_ne (by decide)]
      exact ⟨t, z, reaches_cons hstep hrun, hz⟩
    · obtain ⟨t, z, hrun, hz⟩ := ih hrest x (tracks_self (afterTurn .dec s))
      have hstep := step_afterTurn (.inl rfl) y x ts
      rw [h.dec] at hstep
      rw [List.count_cons_self, Function.iterate_succ_apply]
      exact ⟨t, z, reaches_cons hstep hrun, hz⟩
    · obtain ⟨t, z, hrun, hz⟩ := ih hrest x h.decCodeword
      rw [List.count_cons_of_ne (by decide)]
      exact ⟨t, z, reaches_cons (step_afterTurn (.inr rfl) y x ts) hrun, hz⟩

/-- Settles O45: START begins an operation, every phase step brings it nearer to its end, and its end is
the outcome of RvlDecompress. -/
theorem decompressorComputesFunction : Obligations.DecompressorComputesFunction := by
  intro s ts hb hts hcount
  obtain ⟨t, z, hrun, htracks, hdec, hout⟩ :=
    reaches_decTurns hts s (tracks_self { s with dec := s.dec.start })
  have hcomputed := (decWorking_start s).ends hcount
  rw [← htracks.ended hcomputed.notBusy] at hcomputed
  obtain ⟨hphase, hends⟩ := hcomputed
  refine ⟨t, reaches_cons (step_decStart hb ts) hrun, by rw [hdec, hphase], ?_⟩
  rw [hdec, hout]
  unfold decOutcome at hends
  cases hres : rvlDecompress (s.decWords s.dec.inWords.toNat) s.dec.numPixels.toNat with
  | ok out used => rw [hres] at hends; exact hends
  | fault c out used => rw [hres] at hends; exact hends

end Sys2Proof.Machine

/-! ## The host's commands and accesses (R201 to R206)

Each is one branch of its operation; what a buffer reads as after a host write is said once for the four
buffers. -/

namespace Sys2Proof.Machine

/-! ### Commands -/

/-- Settles O18: an idle unit takes the command, a busy one ignores it. -/
theorem encStartBegins : Obligations.EncStartBegins := fun s =>
  ⟨fun hb => if_neg (by simp [hb]), fun hb => if_pos hb⟩

/-- Settles O19: the same for DEC. -/
theorem decStartBegins : Obligations.DecStartBegins := fun s =>
  ⟨fun hb => if_neg (by simp [hb]), fun hb => if_pos hb⟩

/-- Settles O20: SRST looks at nothing of its unit. -/
theorem softResetClearsItsUnit : Obligations.SoftResetClearsItsUnit := fun _ => ⟨rfl, rfl⟩

/-! ### Registers -/

/-- A counter register gives the host a value, whichever (R54). -/
theorem readCounter_eq (i : RegNo) (busy : Bool) (v : Count) (s : State) :
    ∃ x n, readCounter i busy v s = { s with hostData := x, draws := n } := by
  cases busy with
  | true => exact ⟨_, _, rfl⟩
  | false => exact ⟨v, s.draws, rfl⟩

theorem readCounter_idle {busy : Bool} (hb : busy = false) (i : RegNo) (v : Count) (s : State) :
    readCounter i busy v s = { s with hostData := v } := if_neg (by simp [hb])

/-- A register read changes nothing but what the host holds and the count of draws. -/
theorem regRead_eq (i : RegNo) (s : State) :
    ∃ x n, regRead i s = { s with hostData := x, draws := n } := by
  unfold regRead
  split
  case h_4 => exact readCounter_eq i _ _ s
  case h_8 => exact readCounter_eq i _ _ s
  case h_9 => exact readCounter_eq i _ _ s
  all_goals exact ⟨_, s.draws, rfl⟩

/-- Settles O22: the three counters are exact while their unit is idle, every other register always. -/
theorem registerReadsReturn : Obligations.RegisterReadsReturn := by
  intro s
  refine ⟨fun i => ?any, rfl, rfl, rfl, rfl, rfl, rfl, rfl, rfl, fun hb => ?enc, fun hb => ?dec,
    fun i hi => ?reserved⟩
  case any =>
    obtain ⟨x, n, h⟩ := regRead_eq i s
    exact ⟨x, n, congrArg Host.Outcome.next h⟩
  case enc => exact congrArg Host.Outcome.next (readCounter_idle hb 4 _ s)
  case dec =>
    exact ⟨congrArg Host.Outcome.next (readCounter_idle hb 12 _ s),
      congrArg Host.Outcome.next (readCounter_idle hb 13 _ s)⟩
  case reserved =>
    obtain ⟨hreserved, _⟩ := reservedRegistersReadZero s 0 0
    exact (hreserved i hi).1

/-- A store that only an idle unit takes. -/
theorem store_of_idle {busy : Bool} (hb : busy = false) (s t : State) :
    (.next (if busy then s else t) : Host.Outcome State Fault Refusal) = .next t := by
  simp [hb]

theorem store_of_busy {busy : Bool} (hb : busy = true) (s t : State) :
    (.next (if busy then s else t) : Host.Outcome State Fault Refusal) = .next s := by
  simp [hb]

/-- Settles O23: four registers have a store, of an idle unit only; none of these writes is a command. -/
theorem registerWritesStore : Obligations.RegisterWritesStore := by
  intro s v
  refine ⟨fun hb => ⟨store_of_idle hb s _, store_of_idle hb s _⟩,
    fun hb => ⟨store_of_idle hb s _, store_of_idle hb s _⟩,
    fun hb => ⟨store_of_busy hb s _, store_of_busy hb s _⟩,
    fun hb => ⟨store_of_busy hb s _, store_of_busy hb s _⟩, fun i hi => ?_⟩
  fin_cases hi <;> rfl

/-! ### Buffers -/

/-- The elements after a write of element `i`, where element `j` reads as `d j` if nothing has written it. -/
theorem bufRead_bufWrite_getD {w : Nat} (b : Buf w) (i : Nat) (v : BitVec w) (d : Nat → BitVec w)
    (j : Nat) :
    (bufRead (bufWrite b i v) j).getD (d j) = if j = i then v else (bufRead b j).getD (d j) := by
  rw [bufRead_bufWrite, apply_ite (Option.getD · (d j)), Option.getD_some]

/-- Settles O27: each access is one branch, which an idle unit's buffers and every read of an input buffer
take, and a write is read back. -/
theorem hostBufferAccess : Obligations.HostBufferAccess := by
  intro s i x w
  refine ⟨fun hb => ⟨⟨{ s with encIn := bufWrite s.encIn i.toNat x }, ?_, rfl, ?encIn⟩,
      ⟨{ s with encOut := bufWrite s.encOut i.toNat w }, ?_, rfl, ?encOut⟩, ?_⟩,
    fun hb => ⟨⟨{ s with decIn := bufWrite s.decIn i.toNat w }, ?_, rfl, ?decIn⟩,
      ⟨{ s with decOut := bufWrite s.decOut i.toNat x }, ?_, rfl, ?decOut⟩, ?_⟩, rfl, rfl⟩
  case encIn => exact bufRead_bufWrite_getD _ _ _ _
  case encOut => exact bufRead_bufWrite_getD _ _ _ _
  case decIn => exact bufRead_bufWrite_getD _ _ _ _
  case decOut => exact bufRead_bufWrite_getD _ _ _ _
  all_goals exact if_neg (by simp [hb])

end Sys2Proof.Machine

/-! ## The two units chained (R211) -/

namespace Sys2Proof.Machine

/-- A number of steps from one state leads to one state. -/
theorem Reaches.unique {k : Nat} {s t t' : State} (h : Reaches k s t) (h' : Reaches k s t') : t = t' :=
  Host.Outcome.next.inj (h.symm.trans h')

/-- What ENC leaves where it ends without a fault: the number of the words of RvlCompress in `enc.wr`, and the
words in ENC_OUT (R164). -/
theorem EncComputed.words {s t : State} (h : EncComputed s t) (herr : t.enc.status.err = false) :
    t.enc.wr.toNat = (rvlCompress (s.encSamples s.enc.numPixels.toNat)).length ∧
    (List.range t.enc.wr.toNat).map t.readEncOut =
      rvlCompress (s.encSamples s.enc.numPixels.toNat) := by
  obtain ⟨hread, hsent, hfull⟩ := h
  set ws := rvlCompress (s.encSamples s.enc.numPixels.toNat)
  have hroom : ws.length ≤ s.enc.outCap.toNat := by
    by_contra hlt
    rw [(hfull (not_le.1 hlt)).2.2] at herr
    cases herr
  have hwr : t.enc.wr.toNat = ws.length := by
    have hcap := count_lt s.enc.outCap
    rw [hsent hroom, count_toNat_ofNat]
    omega
  refine ⟨hwr, List.ext_getElem (by simp [hwr]) fun k _ hk => ?_⟩
  rw [List.getElem_map, List.getElem_range, State.readEncOut, hread, Nat.min_eq_right hroom, if_pos hk,
    List.getElem?_eq_getElem hk, Option.getD_some]

theorem decWords_eq_map {s : State} {mem : Nat → Word} {n : Nat} (h : ∀ k, k < n → s.readDecIn k = mem k) :
    s.decWords n = (List.range n).map mem :=
  List.map_congr_left fun k hk => h k (List.mem_range.1 hk)

/-- Settles O46: DEC computes RvlDecompress of the words ENC left, which are RvlCompress of its samples. -/
theorem chainedUnitsAreLossless : Obligations.ChainedUnitsAreLossless := by
  intro s t u ts us hb hts hcount hrun herr hub hN hW hwords hus hdcount
  obtain ⟨t', hrun', hcomputed⟩ := compressorComputesFunction s ts hb hts hcount
  obtain rfl : t = t' := hrun.unique hrun'
  obtain ⟨hwr, hmem⟩ := EncComputed.words hcomputed herr
  obtain ⟨v, hv, _, hends⟩ := decompressorComputesFunction u us hub hus (by rwa [hW])
  have hlen : (s.encSamples s.enc.numPixels.toNat).length = s.enc.numPixels.toNat := by
    simp [State.encSamples]
  have hlossless := decompressUndoesCompress (s.encSamples s.enc.numPixels.toNat)
  rw [hlen] at hlossless
  rw [hW, decWords_eq_map hwords, hmem, hN, hlossless] at hends
  obtain ⟨hst, _, hcnt, hrd, hout⟩ := hends
  refine ⟨v, hv, hst, hcnt, BitVec.eq_of_toNat_eq (hrd.trans hwr.symm), fun i hi => ?_⟩
  rw [State.readDecOut, hout, hlen, if_pos hi, State.encSamples, List.getElem?_map,
    List.getElem?_range hi, Option.map_some, Option.getD_some]

end Sys2Proof.Machine

/-! ## What a step writes to its unit's output buffer (R205, R252; log entry 5)

A step writes the same elements with the same values whatever its output buffer held before, and among them
all those between its counter and where it moves it. So the first of these can be written early, and the
step that follows makes no difference between a buffer with them and one without. -/

namespace Sys2Proof.Machine

/-! ### A function that overwrites part of a buffer -/

/-- `f` writes certain elements with certain values, whatever the buffer, and every element from `lo` to below
`hi` is one of them. -/
structure Overwrites {w : Nat} (lo hi : Nat) (f : Buf w → Buf w) : Prop where
  wf : ∀ b, bufWf b = true → bufWf (f b) = true
  reads : ∃ g : Nat → Option (BitVec w), (∀ i, lo ≤ i → i < hi → g i ≠ none) ∧
    ∀ b i, bufRead (f b) i = (g i).or (bufRead b i)

section
variable {w lo mid hi : Nat} {f g : Buf w → Buf w}

theorem overwrites_id : Overwrites (w := w) lo lo id :=
  ⟨fun _ h => h, fun _ => none, fun _ _ _ => by omega, fun _ _ => rfl⟩

theorem Overwrites.comp (hf : Overwrites lo mid f) (hg : Overwrites mid hi g) :
    Overwrites lo hi fun b => g (f b) := by
  obtain ⟨hwf, r, hr, hread⟩ := hf
  obtain ⟨hwf', r', hr', hread'⟩ := hg
  refine ⟨fun b h => hwf' _ (hwf b h), fun i => (r' i).or (r i), fun i hlo hhi => ?_, fun b i => ?_⟩
  · rw [ne_eq, Option.or_eq_none_iff, not_and_or]
    exact (Nat.lt_or_ge i mid).elim (fun h => .inr (hr i hlo h)) fun h => .inl (hr' i h hhi)
  · rw [hread', hread, Option.or_assoc]

theorem overwrites_bufWrite (v : BitVec w) (hhi : hi ≤ lo + 1) : Overwrites lo hi (bufWrite · lo v) := by
  refine ⟨fun b h => bufWrite_wf b lo v h, fun i => if i = lo then some v else none,
    fun i hlo hlt => ?_, fun b i => ?_⟩
  · simp [show i = lo by omega]
  · rw [bufRead_bufWrite]
    by_cases h : i = lo <;> simp [h]

theorem overwrites_bufFill {n : Nat} (v : BitVec w) (hhi : hi ≤ lo + n) :
    Overwrites lo hi (bufFill · lo v n) := by
  refine ⟨fun b h => bufFill_wf b lo v n h, fun i => if lo ≤ i ∧ i < lo + n then some v else none,
    fun i hlo hlt => ?_, fun b i => ?_⟩
  · simp [hlo, hlt.trans_le hhi]
  · rw [bufRead_bufFill]
    by_cases h : lo ≤ i ∧ i < lo + n <;> simp [h]

/-- The first elements of the stretch, taken over early, read as after `f`, all others as before. -/
theorem Overwrites.bufRead_early (h : Overwrites lo hi f) (b : Buf w) {n : Nat} (hn : n ≤ hi - lo) (i : Nat) :
    bufRead (bufCopy (f b) b lo n) i =
      if lo ≤ i ∧ i < lo + n then bufRead (f b) i else bufRead b i := by
  obtain ⟨_, r, hr, hread⟩ := h
  rw [bufRead_bufCopy]
  split
  · obtain ⟨v, hv⟩ := Option.ne_none_iff_exists'.1 (hr i (by omega) (by omega))
    rw [hread, hv]
    rfl
  · rfl

/-- After them `f` leaves what it leaves without them. -/
theorem Overwrites.early (h : Overwrites lo hi f) {b : Buf w} (hb : bufWf b = true) {n : Nat}
    (hn : n ≤ hi - lo) : f (bufCopy (f b) b lo n) = f b := by
  have hearly := h.bufRead_early b hn
  obtain ⟨hwf, r, hr, hread⟩ := h
  refine buf_ext _ _ (hwf _ (bufCopy_wf _ _ _ _ hb)) (hwf b hb) fun i => ?_
  rw [hread, hearly]
  split
  · rw [hread, ← Option.or_assoc, Option.or_self]
  · rw [hread]

end

/-! ### A unit's output buffer and its counter -/

/-- The width of the elements of a unit's output buffer (R60). -/
abbrev outWidth : UnitId → Nat
  | .enc => 32
  | .dec => 16

def State.outBuf (s : State) : (u : UnitId) → Buf (outWidth u)
  | .enc => s.encOut
  | .dec => s.decOut

def State.setOutBuf (s : State) : (u : UnitId) → Buf (outWidth u) → State
  | .enc, b => { s with encOut := b }
  | .dec, b => { s with decOut := b }

/-- How many elements the running operation has written (R27, R30). -/
def State.outCount (s : State) : UnitId → Nat
  | .enc => s.enc.wr.toNat
  | .dec => s.dec.cnt.toNat

theorem setOutBuf_outBuf (s : State) (u : UnitId) : s.setOutBuf u (s.outBuf u) = s := by cases u <;> rfl

theorem outBuf_setOutBuf (s : State) (u : UnitId) (b : Buf (outWidth u)) :
    (s.setOutBuf u b).outBuf u = b := by cases u <;> rfl

theorem outCount_setOutBuf (s : State) (u : UnitId) (b : Buf (outWidth u)) :
    (s.setOutBuf u b).outCount u = s.outCount u := by cases u <;> rfl

/-! ### Operations that overwrite -/

/-- From `s` on `m` ends the same way whatever unit `u`'s output buffer, which it overwrites from the unit's
count up to the new one at least. -/
def EndsWriting (u : UnitId) (m : State → Ended) (s : State) : Prop :=
  ∃ (t : State) (f : Buf (outWidth u) → Buf (outWidth u)),
    Overwrites (s.outCount u) (t.outCount u) f ∧
    ((∀ b, m (s.setOutBuf u b) = .ok (t.setOutBuf u (f b))) ∨
      ∃ c, ∀ b, m (s.setOutBuf u b) = .raised c (t.setOutBuf u (f b)))

/-- The same of a step, which always ends in a state. -/
def StepWriting (u : UnitId) (step : State → State) (s : State) : Prop :=
  ∃ (t : State) (f : Buf (outWidth u) → Buf (outWidth u)),
    Overwrites (s.outCount u) (t.outCount u) f ∧
    ∀ b, step (s.setOutBuf u b) = t.setOutBuf u (f b)

section
variable {u : UnitId} {s : State} {m k : State → Ended}

theorem EndsWriting.andThen (hm : EndsWriting u m s) (hk : ∀ t, EndsWriting u k t) :
    EndsWriting u (fun s => Machine.andThen (m s) k) s := by
  obtain ⟨t, f, hf, hok | ⟨c, hraised⟩⟩ := hm
  · obtain ⟨t', f', hf', hend⟩ := hk t
    refine ⟨t', fun b => f' (f b), hf.comp hf', ?_⟩
    simp only [hok, andThen_ok]
    exact hend.imp (fun h b => h (f b)) (Exists.imp fun c h b => h (f b))
  · exact ⟨t, f, hf, .inr ⟨c, fun b => by simp only [hraised, andThen_raised]⟩⟩

theorem EndsWriting.settle (h : EndsWriting u m s) :
    StepWriting u (fun s => Machine.settle u (m s)) s := by
  obtain ⟨t, f, hf, hok | ⟨c, hraised⟩⟩ := h
  · exact ⟨t, f, hf, fun b => by simp only [hok, settle_ok]⟩
  · have hcount : (t.takeFault u c).outCount u = t.outCount u := by cases u <;> rfl
    refine ⟨t.takeFault u c, f, hcount ▸ hf, fun b => ?_⟩
    simp only [hraised, settle_raised]
    cases u <;> rfl

/-- An end that does not see the buffer, with no count moved. -/
theorem endsWriting_of_ok {t : State} (hm : ∀ b, m (s.setOutBuf u b) = .ok (t.setOutBuf u b))
    (hcount : t.outCount u = s.outCount u) : EndsWriting u m s :=
  ⟨t, id, hcount ▸ overwrites_id, .inl hm⟩

/-- The same of a fault raised. -/
theorem endsWriting_of_raised {t : State} {c : FaultCode}
    (hm : ∀ b, m (s.setOutBuf u b) = .raised c (t.setOutBuf u b)) (hcount : t.outCount u = s.outCount u) :
    EndsWriting u m s :=
  ⟨t, id, hcount ▸ overwrites_id, .inr ⟨c, hm⟩⟩

theorem endsWriting_update {g : State → State} (hg : ∀ b, g (s.setOutBuf u b) = (g s).setOutBuf u b)
    (hcount : (g s).outCount u = s.outCount u) : EndsWriting u (fun s => .ok (g s)) s :=
  endsWriting_of_ok (fun b => congrArg Ended.ok (hg b)) hcount

theorem EndsWriting.congr (h : EndsWriting u k s)
    (hmk : ∀ b, m (s.setOutBuf u b) = k (s.setOutBuf u b)) : EndsWriting u m s := by
  unfold EndsWriting
  simp only [hmk]
  exact h

theorem stepWriting_of_frame {step : State → State} {t : State}
    (hstep : ∀ b, step (s.setOutBuf u b) = t.setOutBuf u b) (hcount : t.outCount u = s.outCount u) :
    StepWriting u step s :=
  ⟨t, id, hcount ▸ overwrites_id, hstep⟩

end

/-! ### ENC -/

/-- From the write index of `e` on `p` ends the same way whatever ENC_OUT, which it overwrites. -/
def PutWriting (e : EncUnit) (p : Buf 32 → Put) : Prop :=
  ∃ e' f, Overwrites e.wr.toNat e'.wr.toNat f ∧
    ((∀ b, p b = .ok e' (f b)) ∨ ∀ b, p b = .full e' (f b))

theorem writeWord_writing (v : Word) (e : EncUnit) : PutWriting e (writeWord v e) := by
  by_cases h : e.wr = e.outCap
  · exact ⟨e, id, overwrites_id, .inr fun b => if_pos h⟩
  · have hsucc : (e.wr + 1).toNat ≤ e.wr.toNat + 1 := by
      rw [count_toNat_add, count_toNat_one]
      exact Nat.mod_le _ _
    exact ⟨{ e with wr := e.wr + 1, word := 0, nib := 0 }, _, overwrites_bufWrite v hsucc,
      .inl fun b => if_neg h⟩

theorem putNib_writing (fill : NibbleFill) (nb : Nibble) (e : EncUnit) :
    PutWriting e (putNib fill nb e) := by
  by_cases h : e.nib = 7
  · obtain ⟨e', f, hf, hend⟩ :=
      writeWord_writing (appendNibble fill e.word e.nib.toNat nb)
        { e with word := appendNibble fill e.word e.nib.toNat nb }
    refine ⟨e', f, hf, hend.imp (fun hok b => ?_) fun hfull b => ?_⟩
    · exact (if_pos h).trans (hok b)
    · exact (if_pos h).trans (hfull b)
  · exact ⟨{ e with word := appendNibble fill e.word e.nib.toNat nb, nib := e.nib + 1 }, id,
      overwrites_id, .inl fun b => if_neg h⟩

theorem putNibs_writing (fill : NibbleFill) (q : List Nibble) (e : EncUnit) :
    PutWriting e (putNibs fill q e) := by
  induction q generalizing e with
  | nil => exact ⟨e, id, overwrites_id, .inl fun _ => rfl⟩
  | cons nb q ih =>
    obtain ⟨e', f, hf, hok | hfull⟩ := putNib_writing fill nb e
    · obtain ⟨e'', f', hf', hend⟩ := ih e'
      refine ⟨e'', fun b => f' (f b), hf.comp hf', ?_⟩
      simp only [putNibs, hok]
      exact hend.imp (fun h b => h (f b)) fun h b => h (f b)
    · exact ⟨e', f, hf, .inr fun b => by simp only [putNibs, hfull]⟩

theorem flushNibs_writing (fill : NibbleFill) (e : EncUnit) : PutWriting e (flushNibs fill e) := by
  by_cases h : e.nib = 0
  · exact ⟨e, id, overwrites_id, .inl fun _ => if_pos h⟩
  · obtain ⟨e', f, hf, hend⟩ := writeWord_writing (flushWord fill e.word e.nib.toNat) e
    exact ⟨e', f, hf, hend.imp (fun hok b => (if_neg h).trans (hok b))
      fun hfull b => (if_neg h).trans (hfull b)⟩

theorem put_writing {p : State → Put} {s : State} {q : Buf 32 → Put} (hq : PutWriting s.enc q)
    (hp : ∀ b, p (s.setOutBuf .enc b) = q b) : EndsWriting .enc (fun s => s.put (p s)) s := by
  obtain ⟨e', f, hf, hok | hfull⟩ := hq
  · exact ⟨{ s with enc := e' }, f, hf, .inl fun b => by simp only [hp, hok]; rfl⟩
  · exact ⟨{ s with enc := e' }, f, hf, .inr ⟨.outFull, fun b => by simp only [hp, hfull]; rfl⟩⟩

theorem encVle_writing (n : Nat) (s : State) : EndsWriting .enc (encVle n) s :=
  put_writing (p := fun s => putNibs Config.nibbleFill (vleNibbles n) s.enc s.encOut)
    (putNibs_writing Config.nibbleFill (vleNibbles n) s.enc) fun _ => rfl

theorem encFlush_writing (s : State) : EndsWriting .enc encFlush s :=
  put_writing (p := fun s => flushNibs Config.nibbleFill s.enc s.encOut)
    (flushNibs_writing Config.nibbleFill s.enc) fun _ => rfl

theorem encPair_writing (s : State) : EndsWriting .enc encPair s :=
  endsWriting_update (fun _ => rfl) rfl

theorem encZRun_writing (s : State) : EndsWriting .enc encZRun s :=
  (encVle_writing (s.encRun true) s).andThen (k := fun s' => .ok { s' with enc := { s'.enc with
    pos := s'.enc.pos + BitVec.ofNat Config.countW (s.encRun true), phase := .nrun } })
    fun _ => endsWriting_update (fun _ => rfl) rfl

theorem encNRun_writing (s : State) : EndsWriting .enc encNRun s :=
  (encVle_writing (s.encRun false) s).andThen (k := fun s' => .ok { s' with enc := { s'.enc with
    run := BitVec.ofNat Config.countW (s.encRun false),
    phase := if s.encRun false = 0 then .pair else .delta } })
    fun _ => endsWriting_update (fun _ => rfl) rfl

theorem encDeltaVle_writing (s : State) : EndsWriting .enc encDeltaVle s :=
  encVle_writing (zzEnc (sampleDelta (s.readEncIn s.enc.pos.toNat) s.enc.prev))
    { s with enc := { s.enc with prev := s.readEncIn s.enc.pos.toNat } }

theorem encDelta_writing (s : State) : EndsWriting .enc encDelta s :=
  (encDeltaVle_writing s).andThen fun _ => endsWriting_update (fun _ => rfl) rfl

theorem encEnd_writing (s : State) : EndsWriting .enc encEnd s :=
  (encFlush_writing s).andThen fun _ => endsWriting_update (fun _ => rfl) rfl

theorem encPhaseStep_writing (s : State) : EndsWriting .enc encPhaseStep s := by
  cases h : s.enc.phase with
  | idle => exact (endsWriting_update (g := id) (fun _ => rfl) rfl).congr fun _ => encPhaseStep_idle h
  | pair => exact (encPair_writing s).congr fun _ => encPhaseStep_pair h
  | zrun => exact (encZRun_writing s).congr fun _ => encPhaseStep_zrun h
  | nrun => exact (encNRun_writing s).congr fun _ => encPhaseStep_nrun h
  | delta => exact (encDelta_writing s).congr fun _ => encPhaseStep_delta h
  | flush => exact (encEnd_writing s).congr fun _ => encPhaseStep_flush h

theorem encStep_writing (s : State) : StepWriting .enc encStep s := by
  cases h : s.enc.status.busy with
  | false => exact stepWriting_of_frame (fun _ => encStep_notBusy h) rfl
  | true =>
    obtain ⟨t, f, hf, hstep⟩ := (encPhaseStep_writing s).settle
    exact ⟨t, f, hf, fun b => (encStep_busy (s := s.setOutBuf .enc b) h).trans (hstep b)⟩

/-! ### DEC -/

theorem decVle_writing (cw : Codeword) (s : State) : EndsWriting .dec (decVle cw) s := by
  cases h : takeNibbles Config.nibbleFill s.readDecIn cw s.dec.clearScratch with
  | ok d =>
    have hcnt : d.cnt = s.dec.cnt := by rw [takeNibbles_frame _ _ _ (.inl h)]; rfl
    exact endsWriting_of_ok (t := { s with dec := d })
      (fun b => decVle_of_ok (s := s.setOutBuf .dec b) h) (congrArg BitVec.toNat hcnt)
  | exhausted d =>
    have hcnt : d.cnt = s.dec.cnt := by rw [takeNibbles_frame _ _ _ (.inr h)]; rfl
    exact endsWriting_of_raised (t := { s with dec := d })
      (fun b => decVle_of_exhausted (s := s.setOutBuf .dec b) h) (congrArg BitVec.toNat hcnt)

theorem symbolOperand_writing (cw : Codeword) (s : State) : EndsWriting .dec (symbolOperand cw) s := by
  cases h : s.dec.held with
  | none =>
    exact (decVle_writing cw s).congr fun b => symbolOperand_fresh (s := s.setOutBuf .dec b) h
  | some c =>
    exact endsWriting_of_ok (t := { s with dec := { s.dec with held := none } })
      (fun b => symbolOperand_held (s := s.setOutBuf .dec b) h) rfl

theorem symbolBody_writing (r : Role) (s : State) : EndsWriting .dec (symbolBody r) s := by
  have hadd (n : Count) : (s.dec.cnt + n).toNat ≤ s.dec.cnt.toNat + n.toNat := by
    rw [count_toNat_add]
    exact Nat.mod_le _ _
  cases r with
  | z =>
    by_cases h : overRemaining s.dec = true
    · exact endsWriting_of_raised (t := s) (fun _ => if_pos h) rfl
    · exact ⟨{ s with dec := { s.dec with cnt := s.dec.cnt + s.dec.acc, phase := .nrun } }, _,
        overwrites_bufFill 0 (hadd s.dec.acc), .inl fun _ => if_neg h⟩
  | n =>
    by_cases h : overRemaining s.dec = true
    · exact endsWriting_of_raised (t := s) (fun _ => if_pos h) rfl
    · exact endsWriting_of_ok (t := { s with dec := { s.dec with
        run := s.dec.acc, phase := if s.dec.acc = 0 then .pair else .delta } }) (fun _ => if_neg h) rfl
  | d =>
    cases h : reconstruct s.dec with
    | none =>
      exact endsWriting_of_raised (t := s) (fun b => deltaBody_range (s := s.setOutBuf .dec b) h) rfl
    | some v =>
      exact ⟨{ s with dec := { s.dec with
          prev := v, cnt := s.dec.cnt + 1, run := s.dec.run - 1,
          phase := if s.dec.run - 1 = 0 then .pair else .delta } }, _,
        overwrites_bufWrite v (hadd 1), .inl fun b => deltaBody_sample (s := s.setOutBuf .dec b) h⟩

theorem symbolStep_writing (r : Role) (cw : Codeword) (s : State) :
    StepWriting .dec (symbolStep r cw) s :=
  ((symbolOperand_writing cw s).andThen fun _ => symbolBody_writing r _).settle

theorem runCutShort_writing (s : State) : StepWriting .dec runCutShort s :=
  (decVle_writing (s.stream.map nibblePayload ++ [0]) s).settle

theorem decPair_writing (s : State) : StepWriting .dec decPair s := by
  by_cases h : s.dec.cnt = s.dec.numPixels
  · exact stepWriting_of_frame (t := { s with dec := { s.dec with
      phase := .idle, status := s.dec.status.finished } }) (fun _ => if_pos h) rfl
  · exact stepWriting_of_frame (t := { s with dec := { s.dec with phase := .zrun } })
      (fun _ => if_neg h) rfl

/-- What DEC's step fetches does not depend on DEC_OUT, and running it is one of these steps. -/
theorem decStep_writing (s : State) : StepWriting .dec (afterTurn .dec) s := by
  have of_fetched {step : State → State} (h : StepWriting .dec step s)
      (hrun : ∀ x, runFetched (fetchDec s) x = .next (step x)) :
      StepWriting .dec (afterTurn .dec) s := by
    obtain ⟨t, f, hf, hstep⟩ := h
    have hturn (b : Buf 16) : runTurn .dec (s.setOutBuf .dec b) =
        runFetched (fetchDec s) (s.setOutBuf .dec b) := rfl
    exact ⟨t, f, hf, fun b => (afterTurn_eq ((hturn b).trans (hrun _))).trans (hstep b)⟩
  have hid : StepWriting .dec id s := stepWriting_of_frame (fun _ => rfl) rfl
  rcases fetchDec_cases s with ⟨_, hf⟩ | ⟨_, _, hf⟩ | ⟨_, _, hf⟩ | ⟨r, cw, _, _, hf⟩ |
    ⟨_, _, _, hf⟩ <;> rw [hf] at of_fetched
  · exact of_fetched hid fun _ => rfl
  · exact of_fetched (decPair_writing s) fun _ => rfl
  · exact of_fetched hid fun _ => rfl
  · exact of_fetched (symbolStep_writing r cw s) (exec_symbolInstr r cw)
  · exact of_fetched (runCutShort_writing s) fun _ => rfl

/-! ### The early writes -/

/-- One phase step of a unit. -/
def unitStep (u : UnitId) : State → State := afterTurn (unitTurn u)

theorem runTurn_unitTurn (u : UnitId) (s : State) : runTurn (unitTurn u) s = .next (unitStep u s) := by
  cases u with
  | enc => rfl
  | dec => exact runTurn_afterTurn (.inl rfl) s

theorem unitStep_writing (u : UnitId) (s : State) : StepWriting u (unitStep u) s := by
  cases u with
  | enc => exact encStep_writing s
  | dec => exact decStep_writing s

/-- How many elements the first `k` writes of a unit's next step are, at most all. -/
def earlyCount (u : UnitId) (k : Nat) (s : State) : Nat :=
  min k ((unitStep u s).outCount u - s.outCount u)

theorem partialWrites_eq (u : UnitId) (k : Nat) (s : State) :
    partialWrites u k s = s.setOutBuf u
      (bufCopy ((unitStep u s).outBuf u) (s.outBuf u) (s.outCount u) (earlyCount u k s)) := by
  cases u with
  | enc => rfl
  | dec =>
    have hrun : runFetched (fetchDec s) s = .next (unitStep .dec s) := runTurn_unitTurn .dec s
    simp only [partialWrites, hrun]
    rfl

/-- A unit's step as an overwriting of its output buffer, of which the early writes are a part. -/
theorem unitStep_overwrites (u : UnitId) (s : State) :
    ∃ (t : State) (f : Buf (outWidth u) → Buf (outWidth u)),
      Overwrites (s.outCount u) (t.outCount u) f ∧
      (∀ b, unitStep u (s.setOutBuf u b) = t.setOutBuf u (f b)) ∧
      unitStep u s = t.setOutBuf u (f (s.outBuf u)) ∧
      ∀ k, earlyCount u k s ≤ t.outCount u - s.outCount u := by
  obtain ⟨t, f, hf, hstep⟩ := unitStep_writing u s
  have hself : unitStep u s = t.setOutBuf u (f (s.outBuf u)) := by rw [← hstep, setOutBuf_outBuf]
  refine ⟨t, f, hf, hstep, hself, fun k => ?_⟩
  rw [earlyCount, hself, outCount_setOutBuf]
  exact Nat.min_le_right _ _

/-- What the early writes leave: the elements they are, as after the step, and all others as before. -/
theorem bufRead_partialWrites (u : UnitId) (k : Nat) (s : State) (i : Nat) :
    bufRead ((partialWrites u k s).outBuf u) i =
      if s.outCount u ≤ i ∧ i < s.outCount u + earlyCount u k s then
        bufRead ((unitStep u s).outBuf u) i
      else bufRead (s.outBuf u) i := by
  obtain ⟨t, f, hf, _, hself, hn⟩ := unitStep_overwrites u s
  rw [partialWrites_eq, outBuf_setOutBuf, hself, outBuf_setOutBuf]
  exact hf.bufRead_early _ (hn k) i

/-- The step that follows them ends where it ends without them. -/
theorem unitStep_partialWrites {u : UnitId} {s : State} (hwf : bufWf (s.outBuf u) = true) (k : Nat) :
    unitStep u (partialWrites u k s) = unitStep u s := by
  obtain ⟨t, f, hf, hstep, hself, hn⟩ := unitStep_overwrites u s
  rw [partialWrites_eq, hstep, hself, outBuf_setOutBuf, hf.early hwf (hn k)]

/-- A turn of a unit does not look at the turns to come. -/
theorem runTurn_withTurns {u : Turn} (hu : u = .enc ∨ u = .dec ∨ u = .decCodeword) (s : State)
    (ts : List Turn) : runTurn u (s.withTurns ts) = .next ((afterTurn u s).withTurns ts) := by
  rcases hu with rfl | hu
  · exact step_enc s ts
  · obtain ⟨r, hr⟩ := decTurn_alike hu s
    rw [afterTurn_eq (hr s (.of_readDecIn rfl rfl rfl))]
    exact hr _ (.of_readDecIn rfl rfl rfl)

theorem runTurn_unitTurn_withTurns (u : UnitId) (s : State) (ts : List Turn) :
    runTurn (unitTurn u) (s.withTurns ts) = .next ((unitStep u s).withTurns ts) := by
  cases u with
  | enc => exact runTurn_withTurns (.inl rfl) s ts
  | dec => exact runTurn_withTurns (.inr (.inl rfl)) s ts

theorem partialWrites_withTurns (u : UnitId) (k : Nat) (s : State) (ts : List Turn) :
    partialWrites u k (s.withTurns ts) = (partialWrites u k s).withTurns ts := by
  have hstep : unitStep u (s.withTurns ts) = (unitStep u s).withTurns ts :=
    afterTurn_eq (runTurn_unitTurn_withTurns u s ts)
  rw [partialWrites_eq, partialWrites_eq, earlyCount, hstep]
  cases u <;> rfl

/-- Settles O53: the early writes are the first of the step's own, and it overwrites them. -/
theorem earlyWritesArePrefix : Obligations.EarlyWritesArePrefix := by
  intro s k hwf
  refine ⟨fun u t => ?_, ⟨partialWrites .enc k s, unitStep .enc s, rfl, rfl, rfl,
    bufRead_partialWrites .enc k s⟩, ⟨partialWrites .dec k s, unitStep .dec s, rfl, ?_,
    runTurn_unitTurn .dec s, bufRead_partialWrites .dec k s⟩⟩
  · have hout : bufWf (s.outBuf u) = true := by
      simp only [State.buffersWf, Bool.and_eq_true] at hwf
      obtain ⟨⟨⟨_, henc⟩, _⟩, hdec⟩ := hwf
      cases u with
      | enc => exact henc
      | dec => exact hdec
    have hearly : runTurn (.partialWrites u k) (s.withTurns [unitTurn u]) =
        .next ((partialWrites u k s).withTurns [unitTurn u]) :=
      congrArg Host.Outcome.next (partialWrites_withTurns u k s _)
    rw [reaches_two_iff hearly (runTurn_unitTurn_withTurns u _ []),
      reaches_one_iff (runTurn_unitTurn_withTurns u s []), unitStep_partialWrites hout]
  · rw [partialWrites_eq]
    rfl

end Sys2Proof.Machine

/-! ## Operations cut short (R205, R252)

While an operation runs, and after its end, its output buffer holds as many first elements of the function's
result as its counter says (`OutputBegun`); this holds after the next step as well, so the early writes of
that step leave some number of first elements too, and what aborts the operation does not touch them. -/

namespace Sys2Proof.Machine

/-! ### The output of an operation so far -/

/-- In `t` the unit's count says how many first elements of `xs` are written, on its output buffer as it was
in `s`; they are within the declared extent `cap`. -/
structure OutputBegun (u : UnitId) (xs : List (BitVec (outWidth u))) (cap : Nat) (s t : State) : Prop where
  le_cap : t.outCount u ≤ cap
  le_length : t.outCount u ≤ xs.length
  reads : ∀ i, bufRead (t.outBuf u) i = if i < t.outCount u then xs[i]? else bufRead (s.outBuf u) i

/-- Element `i` of a unit's output buffer. -/
def State.readOut (s : State) : (u : UnitId) → Nat → BitVec (outWidth u)
  | .enc, i => s.readEncOut i
  | .dec, i => s.readDecOut i

theorem readOut_of_written {s : State} {u : UnitId} {i : Nat} {v : BitVec (outWidth u)}
    (h : bufRead (s.outBuf u) i = some v) : s.readOut u i = v := by
  cases u with
  | enc => exact congrArg (Option.getD · _) h
  | dec => exact congrArg (Option.getD · _) h

theorem readOut_congr {s t : State} {u : UnitId} {i : Nat}
    (h : bufRead (t.outBuf u) i = bufRead (s.outBuf u) i) (he : t.epochs = s.epochs) :
    t.readOut u i = s.readOut u i := by
  cases u with
  | enc =>
    have hread : bufRead t.encOut i = bufRead s.encOut i := h
    simp only [State.readOut, State.readEncOut, hread, he]
  | dec =>
    have hread : bufRead t.decOut i = bufRead s.decOut i := h
    simp only [State.readOut, State.readDecOut, hread, he]

section
variable {u : UnitId} {xs : List (BitVec (outWidth u))} {cap : Nat} {s t : State}

/-- Early writes of a step between two such states leave some number of first elements of `xs`. -/
theorem OutputBegun.partialWrites (h : OutputBegun u xs cap s t)
    (h' : OutputBegun u xs cap s (unitStep u t)) (he : t.epochs = s.epochs) (k : Nat) :
    ∃ m, m ≤ cap ∧ m ≤ xs.length ∧ ∀ i,
      (i < m → xs[i]? = some ((Machine.partialWrites u k t).readOut u i)) ∧
      (m ≤ i → (Machine.partialWrites u k t).readOut u i = s.readOut u i) := by
  obtain ⟨hcap, hlen, hread⟩ := h
  obtain ⟨hcap', hlen', hread'⟩ := h'
  have hcount : earlyCount u k t ≤ (unitStep u t).outCount u - t.outCount u := Nat.min_le_right _ _
  have hepochs : (Machine.partialWrites u k t).epochs = s.epochs := by
    rw [partialWrites_eq, ← he]
    cases u <;> rfl
  have hreads (i : Nat) : bufRead ((Machine.partialWrites u k t).outBuf u) i =
      if i < t.outCount u + earlyCount u k t then xs[i]? else bufRead (s.outBuf u) i := by
    rw [bufRead_partialWrites]
    split
    · next hi => rw [hread', if_pos (by omega), if_pos hi.2]
    · next hi =>
      rw [hread]
      exact if_congr (by omega) rfl rfl
  refine ⟨t.outCount u + earlyCount u k t, by omega, by omega, fun i => ⟨fun hi => ?_, fun hi => ?_⟩⟩
  · have hlt : i < xs.length := by omega
    have hsome := hreads i
    rw [if_pos hi, List.getElem?_eq_getElem hlt] at hsome
    rw [readOut_of_written hsome, List.getElem?_eq_getElem hlt]
  · exact readOut_congr ((hreads i).trans (if_neg (not_lt.2 hi))) hepochs

end

/-! ### Turns of both units -/

theorem afterTurn_frame {u : Turn} (hu : u = .dec ∨ u = .decCodeword) (s : State) :
    afterTurn u s = s.setResult .dec (afterTurn u s) := by
  obtain ⟨f, hf, hrun⟩ := decTurn_actsOn hu s
  rw [afterTurn_eq (s := s) (hrun s)]
  exact hf.frame

theorem afterTurn_epochs {u : Turn} (hu : u = .enc ∨ u = .dec ∨ u = .decCodeword) (s : State) :
    (afterTurn u s).epochs = s.epochs := by
  rcases hu with rfl | hu
  · have hframe : afterTurn .enc s = s.setResult .enc (encStep s) := (encStep_actsOn s).frame
    rw [hframe]
    rfl
  · rw [afterTurn_frame hu s]
    rfl

theorem Reaches.cons_inv {k : Nat} {s t : State} (h : Reaches (k + 1) s t) :
    ∃ s', step s = .next s' ∧ Reaches k s' t := by
  have hstep : Sys2Proof.core.step s = step s := rfl
  simp only [Reaches, Host.Core.run, hstep] at h
  cases hs : step s with
  | next s' => rw [hs] at h; exact ⟨s', rfl, h⟩
  | fault r => cases r
  | refused r => rw [hs] at h; cases h

theorem Reaches.trans {j k : Nat} {s t u : State} (h : Reaches j s t) (h' : Reaches k t u) :
    Reaches (j + k) s u := by
  induction j generalizing s with
  | zero => cases h; rwa [Nat.zero_add]
  | succ j ih =>
    obtain ⟨s', hstep, hrest⟩ := h.cons_inv
    rw [Nat.succ_add]
    exact reaches_cons hstep (ih hrest)

/-- Turns of the two units in any order keep what each of them keeps. -/
theorem reaches_of_invariant {P : State → Prop}
    (hstep : ∀ {u s}, (u = .enc ∨ u = .dec ∨ u = .decCodeword) → P s → P (afterTurn u s))
    {ts : List Turn} (hts : OnlyUnits ts) {s : State} (hs : P s) (rest : List Turn) :
    ∃ t, Reaches ts.length (s.withTurns (ts ++ rest)) (t.withTurns rest) ∧ P t ∧ t.epochs = s.epochs := by
  induction ts generalizing s with
  | nil => exact ⟨s, rfl, hs, rfl⟩
  | cons u ts ih =>
    obtain ⟨hu, hrest⟩ := List.forall_mem_cons.1 hts
    obtain ⟨t, hrun, ht, he⟩ := ih hrest (hstep hu hs)
    exact ⟨t, reaches_cons (runTurn_withTurns hu s _) hrun, ht, he.trans (afterTurn_epochs hu s)⟩

/-! ### ENC -/

/-- `t` is a state of the operation that START begins on ENC as it is in `s`, or its end. -/
def EncGoing (s t : State) : Prop := (∃ k, EncWorking s t k) ∨ EncComputed s t

theorem EncWorking.setResult_dec {s t : State} {k : Nat} (h : EncWorking s t k) (r : State) :
    EncWorking s (t.setResult .dec r) k :=
  ⟨h.input, h.numPixels, h.outCap, h.status, h.pos_le, h.predictor, h.progress⟩

theorem EncGoing.turn {s t : State} {u : Turn} (hu : u = .enc ∨ u = .dec ∨ u = .decCodeword)
    (h : EncGoing s t) : EncGoing s (afterTurn u t) := by
  rcases hu with rfl | hu
  · rcases h with ⟨k, hw⟩ | hc
    · obtain ⟨_, htodo, _⟩ := hw.progress
      obtain ⟨k, rfl⟩ := Nat.exists_eq_add_one.2 htodo.pos
      exact hw.step.imp_left fun h => ⟨k, h⟩
    · have hstay : afterTurn .enc t = t := encStep_notBusy hc.notBusy
      rw [hstay]
      exact .inr hc
  · rw [afterTurn_frame hu t]
    exact h.imp (Exists.imp fun k hw => hw.setResult_dec _) id

/-- What ENC has sent is written as far as it makes whole words (R37, R120). -/
theorem Sending.written {b later : List Nibble} {out0 out : Buf 32} {e : EncUnit}
    (h : Sending b later out0 e out) :
    e.wr.toNat ≤ e.outCap.toNat ∧ e.wr.toNat ≤ (packNibbles b).length ∧
    ∀ i, bufRead out i = if i < e.wr.toNat then (packNibbles b)[i]? else bufRead out0 i := by
  obtain ⟨ws, c, hpacked, hroom, hb⟩ := h
  obtain ⟨us, hus, _⟩ := eq_append_of_wordsNibbles (ws := ws) (vs := packNibbles b)
    (by rw [wordsNibbles_packNibbles, ← hb, packedNibbles, wordsNibbles, List.append_assoc,
      List.append_assoc])
  rw [hpacked.wr, hus, List.length_append]
  refine ⟨hroom, Nat.le_add_right _ _, fun i => ?_⟩
  rw [hpacked.written]
  split
  · next hi => rw [List.getElem?_append_left hi, List.getElem?_eq_getElem hi, Option.some_or]
  · next hi => rw [List.getElem?_eq_none (not_lt.1 hi), Option.none_or]

/-- At its end `enc.wr` is the number of words that had room (R164). -/
theorem EncComputed.wr_eq {s t : State} (h : EncComputed s t) :
    t.enc.wr.toNat =
      min s.enc.outCap.toNat (rvlCompress (s.encSamples s.enc.numPixels.toNat)).length := by
  obtain ⟨_, hsent, hfull⟩ := h
  rcases Nat.lt_or_ge s.enc.outCap.toNat
    (rvlCompress (s.encSamples s.enc.numPixels.toNat)).length with hlt | hge
  · rw [(hfull hlt).2.1, Nat.min_eq_left hlt.le]
  · have hcap := count_lt s.enc.outCap
    rw [hsent hge, Nat.min_eq_right hge, count_toNat_ofNat]
    omega

theorem EncGoing.begun {s t : State} (h : EncGoing s t) :
    OutputBegun .enc (rvlCompress (s.encSamples s.enc.numPixels.toNat)) s.enc.outCap.toNat s t := by
  rcases h with ⟨k, hw⟩ | hc
  · obtain ⟨_, _, hsend⟩ := hw.progress
    obtain ⟨hcap, hlen, hread⟩ := hsend.written
    rw [hw.outCap] at hcap
    exact ⟨hcap, hlen, hread⟩
  · have hwr := hc.wr_eq
    refine ⟨hwr.trans_le (Nat.min_le_left _ _), hwr.trans_le (Nat.min_le_right _ _), fun i => ?_⟩
    rw [State.outCount, hwr]
    exact hc.1 i

/-! ### DEC -/

/-- The samples an outcome of RvlDecompress says are written (R189). -/
def Decompressed.samples : Decompressed → List Sample
  | .ok out _ => out
  | .fault _ out _ => out

section
variable {m numPixels fuel : Nat}

/-- The deltas of a run only append to the samples there are. -/
theorem decodeRun_extends
    (hpairs : ∀ prev out b, out <+: (decodePairs m numPixels fuel prev out b).samples) (n : Nat)
    (prev : Sample) (out : List Sample) (b : List Nibble) :
    out <+: (decodeRun m numPixels fuel prev out n b).samples := by
  induction n generalizing prev out b with
  | zero => exact hpairs prev out b
  | succ n ih =>
    cases hnext : nextValue b with
    | none => rw [decodeRun_cut hnext]; exact List.prefix_rfl
    | some p =>
      cases hv : accum prev (zzDec p.1) with
      | none => rw [decodeRun_range hnext hv]; exact List.prefix_rfl
      | some v =>
        rw [decodeRun_sample hnext hv]
        exact (List.prefix_append out [v]).trans (ih v _ p.2)

theorem decodeNRun_extends
    (hpairs : ∀ prev out b, out <+: (decodePairs m numPixels fuel prev out b).samples)
    (prev : Sample) (out : List Sample) (b : List Nibble) :
    out <+: (decodeNRun m numPixels fuel prev out b).samples := by
  cases hnext : nextValue b with
  | none => rw [decodeNRun_cut hnext]; exact List.prefix_rfl
  | some p =>
    rcases Nat.lt_or_ge (numPixels - out.length) p.1 with hn | hn
    · rw [decodeNRun_over hnext hn]; exact List.prefix_rfl
    · rw [decodeNRun_fits hnext hn]; exact decodeRun_extends hpairs p.1 prev out p.2

theorem decodeZRun_extends
    (hpairs : ∀ prev out b, out <+: (decodePairs m numPixels fuel prev out b).samples)
    (prev : Sample) (out : List Sample) (b : List Nibble) :
    out <+: (decodeZRun m numPixels fuel prev out b).samples := by
  cases hnext : nextValue b with
  | none => rw [decodeZRun_cut hnext]; exact List.prefix_rfl
  | some p =>
    rcases Nat.lt_or_ge (numPixels - out.length) p.1 with hz | hz
    · rw [decodeZRun_over hnext hz]; exact List.prefix_rfl
    · rw [decodeZRun_fits hnext hz]
      exact (List.prefix_append out _).trans (decodeNRun_extends hpairs prev _ p.2)

end

theorem decodePairs_extends (m numPixels fuel : Nat) (prev : Sample) (out : List Sample)
    (b : List Nibble) : out <+: (decodePairs m numPixels fuel prev out b).samples := by
  induction fuel generalizing prev out b with
  | zero => exact List.prefix_rfl
  | succ fuel ih =>
    rcases Nat.lt_or_ge out.length numPixels with h | h
    · rw [decodePairs_more h]; exact decodeZRun_extends ih prev out b
    · rw [decodePairs_done h]; exact List.prefix_rfl

/-- What is written is the beginning of what the function answers from here on. -/
theorem DecTodo.samples_extend {m numPixels : Nat} {d : DecUnit} {out : List Sample} {b : List Nibble}
    {res : Decompressed} {k : Nat} {p : DecPhase} (h : DecTodo m numPixels d out b res k p) :
    out <+: res.samples := by
  cases p with
  | idle => exact h.elim
  | pair => obtain ⟨_, fuel, _, rfl⟩ := h; exact decodePairs_extends ..
  | zrun => obtain ⟨_, fuel, _, rfl⟩ := h; exact decodeZRun_extends (decodePairs_extends _ _ _) ..
  | nrun => obtain ⟨_, fuel, _, rfl⟩ := h; exact decodeNRun_extends (decodePairs_extends _ _ _) ..
  | delta =>
    obtain ⟨_, _, _, fuel, _, rfl⟩ := h
    exact decodeRun_extends (decodePairs_extends _ _ _) ..

/-- `t` is a state between two phase steps of the operation that START begins on DEC as it is in `s`, or its
end. -/
def DecGoing (s t : State) : Prop :=
  (∃ k, DecWorking s t k) ∨ (DecComputed s t ∧ t.dec.cnt.toNat ≤ s.dec.numPixels.toNat)

/-- The step that ends an operation leaves the count within the extent: at it, or where a fault found it. -/
theorem DecWorking.cnt_le_of_computed {s t : State} {k : Nat} (h : DecWorking s t k)
    (hc : DecComputed s (afterTurn .dec t)) :
    (afterTurn .dec t).dec.cnt.toNat ≤ s.dec.numPixels.toNat := by
  obtain ⟨_, hends⟩ := hc
  cases hres : decOutcome s with
  | ok out used =>
    rw [hres] at hends
    obtain ⟨_, _, hcnt, _⟩ := hends
    rw [hcnt]
  | fault c out used =>
    rw [hres] at hends
    obtain ⟨out', hcnt, hle, _⟩ := h.progress
    obtain ⟨_, hkeeps, _⟩ := decFaultsWriteNothing t _ h.busy (by rw [h.status]; rfl)
      (runTurn_afterTurn (.inl rfl) t) (by rw [hends.1])
    rw [hkeeps, hcnt]
    exact hle

theorem DecGoing.step {s t : State} (h : DecGoing s t) : DecGoing s (afterTurn .dec t) := by
  rcases h with ⟨k, hw⟩ | ⟨hc, hle⟩
  · obtain ⟨_, _, _, _, htodo⟩ := hw.progress
    obtain ⟨k, rfl⟩ := Nat.exists_eq_add_one.2 htodo.pos
    exact hw.step.imp (fun h => ⟨k, h⟩) fun h => ⟨h, hw.cnt_le_of_computed h⟩
  · rw [afterTurn_eq (runTurn_dec_notBusy hc.notBusy)]
    exact .inr ⟨hc, hle⟩

theorem DecGoing.begun {s t : State} (h : DecGoing s t) :
    OutputBegun .dec (decOutcome s).samples s.dec.numPixels.toNat s t := by
  have of_written {out : List Sample} (hcnt : t.dec.cnt.toNat = out.length)
      (hle : out.length ≤ s.dec.numPixels.toNat) (hout : OutWritten out s.decOut t.decOut)
      (hext : out <+: (decOutcome s).samples) :
      OutputBegun .dec (decOutcome s).samples s.dec.numPixels.toNat s t := by
    refine ⟨hcnt.trans_le hle, hcnt.trans_le hext.length_le, fun i => ?_⟩
    rw [State.outCount, hcnt]
    refine (hout i).trans ?_
    split
    · next hi =>
      obtain ⟨later, happend⟩ := hext
      rw [← happend, List.getElem?_append_left hi]
    · rfl
  rcases h with ⟨k, hw⟩ | ⟨⟨_, hends⟩, hle⟩
  · obtain ⟨out, hcnt, hle, hout, htodo⟩ := hw.progress
    exact of_written hcnt hle hout htodo.samples_extend
  · cases hres : decOutcome s with
    | ok out used =>
      rw [hres] at hends of_written
      obtain ⟨_, hlen, hcnt, _, hout⟩ := hends
      exact of_written (by rw [hcnt, hlen]) hlen.le hout List.prefix_rfl
    | fault c out used =>
      rw [hres] at hends of_written
      obtain ⟨_, hcnt, _, hout⟩ := hends
      exact of_written hcnt (hcnt ▸ hle) hout List.prefix_rfl

/-- A codeword turn moves no count and writes nothing (log entry 4). -/
theorem decCodeword_writes_nothing (s : State) :
    (afterTurn .decCodeword s).dec.cnt = s.dec.cnt ∧ (afterTurn .decCodeword s).decOut = s.decOut := by
  suffices h : ∃ x, runTurn .decCodeword s = .next x ∧ x.dec.cnt = s.dec.cnt ∧ x.decOut = s.decOut by
    obtain ⟨x, hrun, hx⟩ := h
    rwa [afterTurn_eq hrun]
  rw [runTurn]
  rcases fetchDecCodeword_cases s with hf | ⟨_, _, _, hf⟩ <;> rw [hf]
  · exact ⟨s, rfl, rfl, rfl⟩
  · rcases runFetched_codeword_cases s with ⟨cw, _, _, hrun⟩ | ⟨_, hrun⟩ <;> refine ⟨_, hrun s, ?_⟩
    · rw [readCodeword]
      rcases decVle_cases cw s with ⟨_, d, hv, _, hd⟩ | ⟨_, d, hv, _, _, hd⟩ <;> rw [hv, hd]
      · exact ⟨rfl, rfl⟩
      · exact ⟨rfl, rfl⟩
    · obtain ⟨d, hcut, _, _, hd⟩ := runCutShort_eq s
      rw [hcut, hd]
      exact ⟨rfl, rfl⟩

/-- For DEC, `t` is a state of the operation that START begins on it as it is in `s`, or its end: `y` has the
same DEC, and is at most a codeword turn past the phase steps that lead to `p`. -/
def DecUnderway (s t : State) : Prop :=
  ∃ p y, DecGoing s p ∧ Tracks p y ∧ y.dec.cnt = p.dec.cnt ∧ y.decOut = p.decOut ∧
    t = y.setUnit .enc t

theorem DecUnderway.turn {s t : State} {u : Turn} (hu : u = .enc ∨ u = .dec ∨ u = .decCodeword)
    (h : DecUnderway s t) : DecUnderway s (afterTurn u t) := by
  obtain ⟨p, y, hp, hy, hcnt, hout, ht⟩ := h
  have hblind {u : Turn} (hu : u = .dec ∨ u = .decCodeword) :
      afterTurn u t = (afterTurn u y).setUnit .enc (afterTurn u t) := by
    obtain ⟨f, hf, hrun⟩ := decTurn_actsOn hu y
    have hself : afterTurn u y = f y := afterTurn_eq (s := y) (hrun y)
    have hturn : afterTurn u t = (f y).setUnit .enc t := by
      rw [ht, afterTurn_eq (hrun t)]
      exact hf.blind t
    rw [hturn, hself]
    rfl
  rcases hu with rfl | rfl | rfl
  · refine ⟨p, y, hp, hy, hcnt, hout, ?_⟩
    have hframe : afterTurn .enc t = t.setResult .enc (afterTurn .enc t) := (encStep_actsOn t).frame
    rw [hframe, ht]
    rfl
  · have hnext := hblind (.inl rfl)
    rw [hy.dec] at hnext
    exact ⟨_, _, hp.step, tracks_self _, rfl, rfl, hnext⟩
  · obtain ⟨hcnt', hout'⟩ := decCodeword_writes_nothing y
    exact ⟨p, _, hp, hy.decCodeword, hcnt'.trans hcnt, hout'.trans hout, hblind (.inr rfl)⟩

theorem DecUnderway.begun {s t : State} (h : DecUnderway s t) :
    OutputBegun .dec (decOutcome s).samples s.dec.numPixels.toNat s t := by
  obtain ⟨p, y, hp, _, hcnt, hout, ht⟩ := h
  obtain ⟨hcap, hlen, hread⟩ := hp.begun
  have hcount : t.outCount .dec = p.outCount .dec := by rw [ht]; exact congrArg BitVec.toNat hcnt
  have hbuf : t.outBuf .dec = p.outBuf .dec := by rw [ht]; exact hout
  exact ⟨hcount ▸ hcap, hcount ▸ hlen, by rw [hcount, hbuf]; exact hread⟩

/-! ### The abort -/

/-- SRST, or a hardware reset that keeps ENC_OUT, puts ENC to its reset values and leaves ENC_OUT. -/
theorem enc_abort {r : Turn}
    (hr : r = .host (.regWrite 0 2) ∨ ∃ kept, .encOut ∈ kept ∧ r = .hardReset kept) (s : State) :
    ∃ t, runTurn r s = .next t ∧ t.enc = State.reset.enc ∧ ∀ i, t.readEncOut i = s.readEncOut i := by
  rcases hr with rfl | ⟨kept, hkept, rfl⟩
  · exact ⟨{ s with enc := EncUnit.reset }, rfl, rfl, fun _ => rfl⟩
  · exact ⟨s.hardReset kept, rfl, rfl, readEncOut_hardReset_kept hkept s⟩

/-- The same for DEC and DEC_OUT. -/
theorem dec_abort {r : Turn}
    (hr : r = .host (.regWrite 8 2) ∨ ∃ kept, .decOut ∈ kept ∧ r = .hardReset kept) (s : State) :
    ∃ t, runTurn r s = .next t ∧ t.dec = State.reset.dec ∧ ∀ i, t.readDecOut i = s.readDecOut i := by
  rcases hr with rfl | ⟨kept, hkept, rfl⟩
  · exact ⟨{ s with dec := DecUnit.reset }, rfl, rfl, fun _ => rfl⟩
  · exact ⟨s.hardReset kept, rfl, rfl, readDecOut_hardReset_kept hkept s⟩

/-- After START and the units' turns, the early writes and the abort. -/
theorem reaches_abort {s s' q t : State} {ts : List Turn} {start r : Turn} {u : UnitId} {k : Nat}
    (hstart : ∀ rest, step (s.withTurns (start :: rest)) = .next (s'.withTurns rest))
    (hrun : Reaches ts.length (s'.withTurns (ts ++ [.partialWrites u k, r]))
      (q.withTurns [.partialWrites u k, r]))
    (habort : runTurn r ((partialWrites u k q).withTurns []) = .next t) :
    Reaches (ts.length + 3) (s.withTurns (start :: (ts ++ [.partialWrites u k, r]))) t := by
  have hearly : step (q.withTurns [.partialWrites u k, r]) =
      .next ((partialWrites u k q).withTurns [r]) := congrArg Host.Outcome.next (partialWrites_withTurns u k q [r])
  exact reaches_cons (hstart _) (hrun.trans (reaches_cons hearly (reaches_cons habort rfl)))

/-- Settles O58: whatever turns the units have had, the output so far and the output after the next step are
first elements of the result; the early writes lie between the two, and the abort leaves them. -/
theorem abandonedOutputIsPrefix : Obligations.AbandonedOutputIsPrefix := by
  intro s ts k r hts
  refine ⟨fun hb hr => ?enc, fun hb hr => ?dec⟩
  case enc =>
    obtain ⟨q, hrun, hq, he⟩ := reaches_of_invariant (P := EncGoing s) EncGoing.turn hts
      (.inl ⟨_, encWorking_start s⟩) [.partialWrites .enc k, r]
    have hnext : EncGoing s (unitStep .enc q) := hq.turn (.inl rfl)
    obtain ⟨m, hcap, hlen, hreads⟩ := hq.begun.partialWrites hnext.begun he k
    obtain ⟨t, habort, henc, hout⟩ := enc_abort hr ((partialWrites .enc k q).withTurns [])
    refine ⟨t, m, reaches_abort (step_encStart hb) hrun habort, henc, hcap, hlen, fun i => ?_⟩
    rw [hout]
    exact hreads i
  case dec =>
    obtain ⟨q, hrun, hq, he⟩ := reaches_of_invariant (P := DecUnderway s) DecUnderway.turn hts
      ⟨_, _, .inl ⟨_, decWorking_start s⟩, tracks_self _, rfl, rfl, (setUnit_self _ .enc).symm⟩
      [.partialWrites .dec k, r]
    have hnext : DecUnderway s (unitStep .dec q) := hq.turn (.inr (.inl rfl))
    obtain ⟨m, hcap, hlen, hreads⟩ := hq.begun.partialWrites hnext.begun he k
    obtain ⟨t, habort, hdec, hout⟩ := dec_abort hr ((partialWrites .dec k q).withTurns [])
    refine ⟨t, m, reaches_abort (step_decStart hb) hrun habort, hdec, hcap, hlen, fun i => ?_⟩
    rw [hout]
    exact hreads i

end Sys2Proof.Machine

/-! ## How a fault leaves its unit (R221, R222, R226, R228) -/

namespace Sys2Proof.Machine

/-- Settles O37: fault entry and the fault numbers, by definition. -/
theorem faultEntryChangesOnlyStatus : Obligations.FaultEntryChangesOnlyStatus :=
  fun _ _ => ⟨rfl, rfl, rfl, rfl, rfl, rfl⟩

/-! ### EXHAUSTED (R222) -/

/-- EXHAUSTED taken with the stream used up and nothing but the cursor and the scratch changed. -/
theorem exhausted_takeFault {s : State} {d : DecUnit} (hnib : d.nib = 0) (hrd : d.rd = d.inWords)
    (hd : d = { s.dec with word := d.word, nib := d.nib, rd := d.rd,
                           acc := d.acc, ovf := d.ovf, sh := d.sh }) :
    Exhausted s (State.takeFault { s with dec := d } .dec .exhausted) :=
  ⟨hnib, hrd, congrArg (fun c => State.takeFault { s with dec := c } .dec .exhausted) hd⟩

/-- A codeword with more nibbles than are left consumes those there are (R123, R222). -/
theorem readCodeword_exhausts {cw : Codeword} {s : State} (h : nibblesLeft s.dec < cw.length) :
    Exhausted s (readCodeword cw s) := by
  rcases decVle_cases cw s with ⟨hle, _⟩ | ⟨_, d, hv, hnib, hrd, hd⟩
  · exact absurd h (not_lt.2 hle)
  · rw [readCodeword, hv, andThen_raised, settle_raised]
    exact exhausted_takeFault hnib hrd hd

theorem runCutShort_exhausts (s : State) : Exhausted s (runCutShort s) := by
  obtain ⟨d, hcut, hnib, hrd, hd⟩ := runCutShort_eq s
  rw [hcut]
  exact exhausted_takeFault hnib hrd hd

theorem runTurn_decCodeword_cutShort {s : State} {r : Role} (hb : s.dec.status.busy = true)
    (hp : phaseRole s.dec.phase = some r) (hh : s.dec.held = none)
    (hs : splitCodeword s.stream = none) : runTurn .decCodeword s = .next (runCutShort s) := by
  rcases runFetched_codeword_cases s with ⟨cw, rest, hsome, _⟩ | ⟨_, hrun⟩
  · cases hs.symm.trans hsome
  · rw [runTurn, fetchDecCodeword_fresh hb hp hh, hrun]

/-- Settles O11: a row and a DEC step both read a codeword that asks for more nibbles than are left. -/
theorem missingNibbleExhausts : Obligations.MissingNibbleExhausts :=
  ⟨fun _ _ s hi h => ⟨_, exec_of_vleRow hi s, readCodeword_exhausts h⟩,
    fun s _ hb hp hh hs => ⟨_, runTurn_dec_cutShort hb hp hh hs, runCutShort_exhausts s,
      runTurn_decCodeword_cutShort hb hp hh hs⟩⟩

/-! ### OUT_FULL (R228) -/

section
variable {fill : NibbleFill} {e e' : EncUnit} {out out' : Buf 32}

/-- PUTNIB raises only with the write index at the capacity, and leaves both (R120). -/
theorem wr_eq_outCap_of_putNib_full {nb : Nibble} (h : putNib fill nb e out = .full e' out') :
    e'.wr = e'.outCap := by
  rcases putNib_cases fill nb e out with ⟨_, hp⟩ | ⟨_, hwr, hp⟩ | ⟨_, _, hp⟩ <;> rw [hp] at h
  · cases h
  · cases h; exact hwr
  · cases h

theorem wr_eq_outCap_of_putNibs_full {q : List Nibble} (h : putNibs fill q e out = .full e' out') :
    e'.wr = e'.outCap := by
  induction q generalizing e out with
  | nil => cases h
  | cons nb rest ih =>
    rw [putNibs] at h
    cases hp : putNib fill nb e out with
    | ok e₁ out₁ => rw [hp] at h; exact ih h
    | full e₁ out₁ => rw [hp] at h; cases h; exact wr_eq_outCap_of_putNib_full hp

end

theorem wr_eq_outCap_of_encVle_raised {n : Nat} {s r : State} {c : FaultCode}
    (h : encVle n s = .raised c r) : r.enc.wr = r.enc.outCap := by
  rw [encVle] at h
  cases hp : putNibs Config.nibbleFill (vleNibbles n) s.enc s.encOut with
  | ok e out => rw [hp] at h; cases h
  | full e out => rw [hp] at h; cases h; exact wr_eq_outCap_of_putNibs_full hp

/-- ENC at a raise of OUT_FULL in a step from `s`: at its capacity, and what the step updates only after its
ENCVLE or FLUSH as it was (R226, R228). The predictor is not among it: DELTA(v) sets it before (R140). -/
structure StoppedFull (s r : State) : Prop where
  wr : r.enc.wr = r.enc.outCap
  pos : r.enc.pos = s.enc.pos
  run : r.enc.run = s.enc.run
  numPixels : r.enc.numPixels = s.enc.numPixels
  outCap : r.enc.outCap = s.enc.outCap

/-- A part of an ENC step from `s` that leaves ERR alone or raises OUT_FULL at the capacity. -/
def Ended.FaultsOnlyFull (s : State) : Ended → Prop
  | .ok t => t.enc.status.err = s.enc.status.err
  | .raised c r => c = .outFull ∧ StoppedFull s r

/-- What a step does after its ENCVLE or FLUSH raises nothing, so ERR is all it has to leave alone. -/
theorem Ended.FaultsOnlyFull.andThen_ok {s : State} {m : Ended} (h : m.FaultsOnlyFull s)
    {g : State → State} (hg : ∀ t, (g t).enc.status.err = t.enc.status.err) :
    (andThen m fun t => .ok (g t)).FaultsOnlyFull s := by
  cases m with
  | ok t => exact (hg t).trans h
  | raised c r => exact h

theorem encVle_faultsOnlyFull (n : Nat) (s : State) : (encVle n s).FaultsOnlyFull s := by
  obtain ⟨e, out, hv | hv, he⟩ := encVle_cases n s
  · rw [hv, he]
    exact rfl
  · have hwr : e.wr = e.outCap := wr_eq_outCap_of_encVle_raised hv
    rw [he] at hv hwr
    rw [hv]
    exact ⟨rfl, hwr, rfl, rfl, rfl, rfl⟩

/-- The predictor that DELTA(v) sets first is none of the registers in question (R140). -/
theorem encDeltaVle_faultsOnlyFull (s : State) : (encDeltaVle s).FaultsOnlyFull s := by
  have h : (encDeltaVle s).FaultsOnlyFull
      { s with enc := { s.enc with prev := s.readEncIn s.enc.pos.toNat } } := encVle_faultsOnlyFull _ _
  cases hv : encDeltaVle s with
  | ok t => rw [hv] at h; exact h
  | raised c r =>
    rw [hv] at h
    obtain ⟨hc, hwr, hpos, hrun, hN, hcap⟩ := h
    exact ⟨hc, hwr, hpos, hrun, hN, hcap⟩

theorem encFlush_faultsOnlyFull (s : State) : (encFlush s).FaultsOnlyFull s := by
  rcases encFlush_cases s with ⟨_, h⟩ | ⟨_, _, h⟩ | ⟨_, hwr, h⟩ <;> rw [h]
  · exact rfl
  · exact rfl
  · exact ⟨rfl, hwr, rfl, rfl, rfl, rfl⟩

theorem encPhaseStep_faultsOnlyFull (s : State) : (encPhaseStep s).FaultsOnlyFull s := by
  cases hp : s.enc.phase with
  | idle => rw [encPhaseStep_idle hp]; exact rfl
  | pair => rw [encPhaseStep_pair hp]; exact rfl
  | zrun =>
    rw [encPhaseStep_zrun hp, encZRun]
    exact (encVle_faultsOnlyFull _ s).andThen_ok fun _ => rfl
  | nrun =>
    rw [encPhaseStep_nrun hp, encNRun]
    exact (encVle_faultsOnlyFull _ s).andThen_ok fun _ => rfl
  | delta =>
    rw [encPhaseStep_delta hp, encDelta_eq]
    exact (encDeltaVle_faultsOnlyFull s).andThen_ok fun _ => rfl
  | flush =>
    rw [encPhaseStep_flush hp, encEnd]
    exact (encFlush_faultsOnlyFull s).andThen_ok fun _ => rfl

/-- Settles O36: an ENC step that ends with ERR raised OUT_FULL at its capacity, and acts on ENC alone. -/
theorem encFaultsOnlyWhenFull : Obligations.EncFaultsOnlyWhenFull := by
  intro s hb herr
  have hframe := (encStep_actsOn s).frame
  have hend := encPhaseStep_faultsOnlyFull s
  rw [encStep_busy hb] at hframe ⊢
  cases hm : encPhaseStep s with
  | ok x =>
    rw [hm] at hend
    have hx : x.enc.status.err = false := hend.trans herr
    intro t hterr
    exact Bool.noConfusion (hx.symm.trans hterr)
  | raised c r =>
    rw [hm] at hframe hend
    obtain ⟨rfl, hwr, hpos, hrun, hN, hcap⟩ := hend
    exact fun _ => ⟨rfl, rfl, hwr, hpos, hrun, hN, hcap, hframe⟩

end Sys2Proof.Machine

/-! ## Host accesses without an outcome, and idle units (R261, R262, R265) -/

namespace Sys2Proof.Machine

/-! ### Accesses that a busy unit's buffer refuses -/

section
variable {busy : Bool} {q : Refusal} {x t : State}

/-- The shape of each access to a buffer that the host must leave to a busy unit (R262). -/
theorem busyRefuses_refused_iff :
    (∃ r, (if busy then .refused q else .next x : Host.Outcome State Fault Refusal) = .refused r) ↔
      busy = true := by
  cases busy <;> simp

theorem eq_of_busyRefuses_next
    (h : (if busy then .refused q else .next x : Host.Outcome State Fault Refusal) = .next t) : t = x := by
  split at h <;> cases h
  rfl

end

/-- No step faults, so what is not refused goes on. -/
theorem refused_or_next (o : Host.Outcome State Fault Refusal) : (∃ r, o = .refused r) ∨ ∃ t, o = .next t := by
  cases o with
  | next t => exact .inr ⟨t, rfl⟩
  | fault f => nomatch f
  | refused r => exact .inl ⟨r, rfl⟩

theorem not_refused_of_next {o : Host.Outcome State Fault Refusal} (h : ∃ t, o = .next t) :
    ¬ ∃ r, o = .refused r := by
  obtain ⟨t, rfl⟩ := h
  exact fun ⟨_, hr⟩ => nomatch hr

theorem runHost_regWrite_next (i : RegNo) (v : Word) (s : State) : ∃ t, runHost (.regWrite i v) s = .next t := by
  cases hc : fetchCommand i v with
  | some c => rw [runHost_regWrite_command hc]; exact exec_next c s
  | none => exact ⟨_, runHost_regWrite_noCommand hc s⟩

/-- The rows of R261: six accesses look at BUSY, all others are taken at any time. -/
theorem runHost_refused_iff (a : HostAction) (s : State) : (∃ r, runHost a s = .refused r) ↔ Hazard a s := by
  cases a with
  | regRead i => exact iff_of_false (not_refused_of_next ⟨_, rfl⟩) (by simp [Hazard])
  | regWrite i v => exact iff_of_false (not_refused_of_next (runHost_regWrite_next i v s)) (by simp [Hazard])
  | sampleRead b i =>
    cases b with
    | encIn => exact iff_of_false (not_refused_of_next ⟨_, rfl⟩) (by simp [Hazard])
    | decOut => exact busyRefuses_refused_iff.trans (by simp [Hazard])
  | wordRead b i =>
    cases b with
    | encOut => exact busyRefuses_refused_iff.trans (by simp [Hazard])
    | decIn => exact iff_of_false (not_refused_of_next ⟨_, rfl⟩) (by simp [Hazard])
  | sampleWrite b i v => cases b <;> exact busyRefuses_refused_iff.trans (by simp [Hazard])
  | wordWrite b i v => cases b <;> exact busyRefuses_refused_iff.trans (by simp [Hazard])

/-- Only a turn of the host is refused. -/
theorem host_of_runTurn_refused {u : Turn} {s : State} {r : Refusal} (h : runTurn u s = .refused r) :
    ∃ a, u = .host a := by
  rcases runTurn_refused h with ⟨_, _, rfl⟩ | ⟨_, _, _, rfl⟩ | ⟨_, _, rfl⟩ | ⟨_, _, _, rfl⟩ <;>
    exact ⟨_, rfl⟩

/-- Settles O26: a step runs its first turn, and of the turns only a host access can be refused. -/
theorem onlyHazardsRefused : Obligations.OnlyHazardsRefused := by
  have hostStep (s : State) (a : HostAction) (rest : List Turn) (hs : s.turns = .host a :: rest) :
      (∃ r, step s = .refused r) ↔ Hazard a s := by
    rw [step_cons s hs]
    exact runHost_refused_iff a { s with turns := rest }
  refine ⟨hostStep, fun s => ?_⟩
  rcases refused_or_next (step s) with ⟨r, hr⟩ | hnext
  · cases hs : s.turns with
    | nil => cases (step_nil s hs).symm.trans hr
    | cons u rest =>
      obtain ⟨a, rfl⟩ := host_of_runTurn_refused ((step_cons s hs).symm.trans hr)
      exact .inr ⟨a, rest, rfl, (hostStep s a rest hs).1 ⟨r, hr⟩⟩
  · exact .inl hnext

/-! ### What a host access leaves unchanged (R206) -/

/-- A host access that is no register write leaves the units as they are, and each output buffer but for a
write to it. -/
theorem runHost_frame {a : HostAction} {s t : State} (ha : ∀ i v, a ≠ .regWrite i v)
    (h : runHost a s = .next t) :
    t.enc = s.enc ∧ t.dec = s.dec ∧
      ((∀ i v, a ≠ .wordWrite .encOut i v) → t.encOut = s.encOut) ∧
      ((∀ i v, a ≠ .sampleWrite .decOut i v) → t.decOut = s.decOut) := by
  cases a with
  | regRead i =>
    obtain ⟨x, n, hread⟩ := regRead_eq i s
    cases h
    rw [hread]
    exact ⟨rfl, rfl, fun _ => rfl, fun _ => rfl⟩
  | regWrite i v => exact absurd rfl (ha i v)
  | sampleRead b i =>
    cases b with
    | encIn => cases h; exact ⟨rfl, rfl, fun _ => rfl, fun _ => rfl⟩
    | decOut => cases eq_of_busyRefuses_next h; exact ⟨rfl, rfl, fun _ => rfl, fun _ => rfl⟩
  | wordRead b i =>
    cases b with
    | encOut => cases eq_of_busyRefuses_next h; exact ⟨rfl, rfl, fun _ => rfl, fun _ => rfl⟩
    | decIn => cases h; exact ⟨rfl, rfl, fun _ => rfl, fun _ => rfl⟩
  | sampleWrite b i v =>
    cases b with
    | encIn => cases eq_of_busyRefuses_next h; exact ⟨rfl, rfl, fun _ => rfl, fun _ => rfl⟩
    | decOut => cases eq_of_busyRefuses_next h; exact ⟨rfl, rfl, fun _ => rfl, fun hw => absurd rfl (hw i v)⟩
  | wordWrite b i v =>
    cases b with
    | encOut => cases eq_of_busyRefuses_next h; exact ⟨rfl, rfl, fun hw => absurd rfl (hw i v), fun _ => rfl⟩
    | decIn => cases eq_of_busyRefuses_next h; exact ⟨rfl, rfl, fun _ => rfl, fun _ => rfl⟩

/-! ### What an idle unit keeps (R265) -/

def State.unitBusy (s : State) : UnitId → Bool
  | .enc => s.enc.status.busy
  | .dec => s.dec.status.busy

/-- Unit `u` has in `t` the registers and the output buffer it has in `s`. -/
def SameResult (u : UnitId) (s t : State) : Prop :=
  match u with
  | .enc => t.enc = s.enc ∧ t.encOut = s.encOut
  | .dec => t.dec = s.dec ∧ t.decOut = s.decOut

theorem sameResult_self (u : UnitId) (s : State) : SameResult u s s := by cases u <;> exact ⟨rfl, rfl⟩

theorem sameResult_setResult {u v : UnitId} (h : v ≠ u) (s r : State) : SameResult v s (s.setResult u r) := by
  cases u with
  | enc =>
    cases v with
    | enc => exact absurd rfl h
    | dec => exact ⟨rfl, rfl⟩
  | dec =>
    cases v with
    | enc => exact ⟨rfl, rfl⟩
    | dec => exact absurd rfl h

/-- A turn that acts on `u` alone, and does nothing while `u` is idle, keeps what any idle unit has. -/
theorem sameResult_of_idle {u v : UnitId} {s t : State} (hframe : t = s.setResult u t)
    (hidle : s.unitBusy u = false → t = s) (hv : s.unitBusy v = false) : SameResult v s t := by
  by_cases huv : v = u
  · subst huv
    rw [hidle hv]
    exact sameResult_self v s
  · rw [hframe]
    exact sameResult_setResult huv s t

theorem unitStep_idle {u : UnitId} {s : State} (hb : s.unitBusy u = false) : unitStep u s = s := by
  cases u with
  | enc => exact encStep_notBusy hb
  | dec => exact afterTurn_eq (runTurn_dec_notBusy hb)

/-- An idle unit has no step to write the first elements of. -/
theorem partialWrites_idle {u : UnitId} {s : State} (hb : s.unitBusy u = false) (k : Nat) :
    partialWrites u k s = s := by
  rw [partialWrites_eq, earlyCount, unitStep_idle hb, Nat.sub_self, Nat.min_zero, bufCopy, setOutBuf_outBuf]

theorem partialWrites_frame (u : UnitId) (k : Nat) (s : State) :
    partialWrites u k s = s.setResult u (partialWrites u k s) := by
  rw [partialWrites_eq]
  cases u <;> rfl

/-- Every turn of the units, the early writes among them, keeps what an idle unit has. -/
theorem runTurn_keeps_idle {s t : State} {u : Turn} {v : UnitId} (hhost : ∀ a, u ≠ .host a)
    (hreset : ∀ kept, u ≠ .hardReset kept) (h : runTurn u s = .next t) (hv : s.unitBusy v = false) :
    SameResult v s t := by
  cases u with
  | enc => cases h; exact sameResult_of_idle (encStep_actsOn s).frame encStep_notBusy hv
  | dec =>
    rw [← afterTurn_eq h]
    exact sameResult_of_idle (afterTurn_frame (.inl rfl) s) (fun hb => afterTurn_eq (runTurn_dec_notBusy hb)) hv
  | decCodeword =>
    rw [← afterTurn_eq h]
    exact sameResult_of_idle (afterTurn_frame (.inr rfl) s)
      (fun hb => afterTurn_eq (runTurn_decCodeword_notBusy hb)) hv
  | partialWrites u k =>
    cases h
    exact sameResult_of_idle (partialWrites_frame u k s) (fun hb => partialWrites_idle hb k) hv
  | host a => exact absurd rfl (hhost a)
  | hardReset kept => exact absurd rfl (hreset kept)

/-- Settles O57: the units' turns keep what an idle unit has, and the host's accesses keep what they do not
write. -/
theorem idleUnitIsStable : Obligations.IdleUnitIsStable := by
  intro s t u hwrite hreset h
  by_cases hhost : ∃ a, u = .host a
  · obtain ⟨a, rfl⟩ := hhost
    obtain ⟨henc, hdec, hencOut, hdecOut⟩ :=
      runHost_frame (fun i v ha => hwrite i v (congrArg Turn.host ha)) h
    exact ⟨fun _ => ⟨henc, fun hw => hencOut fun i v ha => hw i v (congrArg Turn.host ha)⟩,
      fun _ => ⟨hdec, fun hw => hdecOut fun i v ha => hw i v (congrArg Turn.host ha)⟩⟩
  · have keeps (v : UnitId) (hv : s.unitBusy v = false) : SameResult v s t :=
      runTurn_keeps_idle (fun a ha => hhost ⟨a, ha⟩) hreset h hv
    refine ⟨fun hb => ?enc, fun hb => ?dec⟩
    case enc =>
      obtain ⟨henc, hout⟩ := keeps .enc hb
      exact ⟨henc, fun _ => hout⟩
    case dec =>
      obtain ⟨hdec, hout⟩ := keeps .dec hb
      exact ⟨hdec, fun _ => hout⟩

end Sys2Proof.Machine
